-- ==== Sys2Proof/Word.lean ====
section
/-! DEFINITION. The word types of `gascop_core` (spec 00 R5, 30 R92, R100): bytes, 32-bit CSR and
code words, 64-bit command and event words, and the two one-bit choices a command can name. -/

namespace Sys2Proof

/-- One byte: a raw I or Q byte (40 R120), a character of the message buffer (20 R70), a CSR address
(20 R71). -/
abbrev Byte := BitVec 8

/-- A 32-bit word: a codeword (00 R12) or a CSR value (`CSR_W`, 00 R5). -/
abbrev Word := BitVec 32

/-- A command word, `CMD_W` = 64 bits (30 R92). -/
abbrev CmdWord := BitVec 64

/-- An event word, `EVT_W` = 64 bits (30 R100). -/
abbrev EvtWord := BitVec 64

/-- The demodulator's mode (10 R23 `DEMOD_MODE`, 40 R121, R122). -/
inductive DemodMode where
  /-- 0: the magnitude of the sample. -/
  | mag
  /-- 1: the frequency-deviation discriminator. -/
  | fm
  deriving DecidableEq, Repr

/-- The bit that encodes a mode (10 R23, 30 R93). -/
def DemodMode.bit : DemodMode → Bool
  | .mag => false
  | .fm => true

/-- The mode a bit encodes (10 R23, 30 R93). -/
def DemodMode.ofBit (b : Bool) : DemodMode :=
  if b then .fm else .mag

end Sys2Proof
end

