-- ==== Sys2Proof/Machine/Arith.lean ====
section
/-! DEFINITION. The arithmetic helpers of 00 R11, exact on integers, and the protocol constants of
00 R12. -/

namespace Sys2Proof.Machine

/-- The digits of the square root from bit `k - 1` down, each kept when the square still fits. -/
def isqrtDigits (n : Nat) : Nat → Nat → Nat
  | 0, r => r
  | k + 1, r => if (r + 2 ^ k) * (r + 2 ^ k) ≤ n then isqrtDigits n k (r + 2 ^ k) else isqrtDigits n k r

/-- `isqrt(n)`: the largest r with r * r <= n (00 R11). -/
def isqrt (n : Nat) : Nat :=
  isqrtDigits n (n.log2 / 2 + 1) 0

/-- `clamp(v, a, b)` (00 R11). -/
def clamp (v a b : Int) : Int :=
  min (max v a) b

/-- `sat32(v)` (00 R11). -/
def sat32 (v : Int) : Int :=
  min (max v (-(2 ^ 31))) (2 ^ 31 - 1)

/-- `floor_shr(v, k)`: `v / 2^k` rounded toward minus infinity (00 R11). -/
def floorShr (v : Int) (k : Nat) : Int :=
  v / 2 ^ k

/-- The set bits among the lowest `k` bits of `x`. -/
def popcountBelow (x : Nat) : Nat → Nat
  | 0 => 0
  | k + 1 => popcountBelow x k + (x.testBit k).toNat

/-- `popcount(x)` (00 R11). -/
def popcount {n : Nat} (x : BitVec n) : Nat :=
  popcountBelow x.toNat n

/-- `SYNC_WORD` (00 R12). -/
def syncWord : Word := 0x7CD215D8

/-- `IDLE_WORD` (00 R12). -/
def idleWord : Word := 0x7A89C197

/-- `BCH_GEN`, x^10 + x^9 + x^8 + x^6 + x^5 + x^3 + 1 (00 R12, 43 R190). -/
def bchGen : BitVec 31 := 0x769

/-- `CW_PER_BATCH` (00 R12). -/
def cwPerBatch : Nat := 16

/-- `CW_BITS` (00 R12). -/
def cwBits : Nat := 32

end Sys2Proof.Machine
end

