-- ==== Sys2Proof/Config.lean ====
section
/-! DEFINITION. The build parameters of spec 00 R5. `execFor` and `stepFor` take them as an argument
(00 R5, R7); `exec` and `step` are those at the values 00 R5 gives. -/

namespace Sys2Proof

/-- What is fixed when the block is built (00 R5). -/
structure Config where
  /-- The raw byte that stands for zero (40 R120). -/
  adcMid : Nat
  /-- The size of the message buffer in bytes (20 R70). -/
  maxCap : Nat
  deriving DecidableEq, Repr

/-- The values spec 00 R5 gives: `ADC_MID` 127 and `MAX_CAP` 256 (log entry 7). -/
def Config.build : Config where
  adcMid := 127
  maxCap := 256

end Sys2Proof
end

