-- ==== Sys2Proof/Syntax.lean ====
section
/-! DEFINITION. The commands of spec 30 R92, one constructor per row of the opcode table, with the
operand fields of 30 R93 at their widths, in the order of the textual form (30 R103). -/

namespace Sys2Proof

/-- One command of the command port. -/
inductive Instr where
  /-- `NOP` (45 R250). -/
  | nop
  /-- `SAMPLE i, q`: one raw I/Q pair (40 R123). -/
  | sample (i q : Byte)
  /-- `SAMPLE_LOSS n`: n samples the host dropped (40 R124). -/
  | sampleLoss (n : Word)
  /-- `MAG_IN y`: one demod value, the 32 bits of a two's-complement number (41 R145). -/
  | magIn (y : Word)
  /-- `BIT_IN b`: one hard bit (42 R175). -/
  | bitIn (b : Bool)
  /-- `CW_IN w, slot`: one codeword with its slot (44 R230). -/
  | cwIn (w : Word) (slot : BitVec 4)
  /-- `DEMOD_QUERY i, q, ip, qp, mode` (40 R125). -/
  | demodQuery (i q ip qp : Byte) (mode : DemodMode)
  /-- `BCH_SYNDROME w` (43 R195). -/
  | bchSyndrome (w : Word)
  /-- `BCH_CORRECT w` (43 R196). -/
  | bchCorrect (w : Word)
  /-- `CSR_READ a` (45 R251). -/
  | csrRead (a : Byte)
  /-- `CSR_WRITE a, v` (45 R252). -/
  | csrWrite (a : Byte) (v : Word)
  /-- `FLUSH` (45 R253). -/
  | flush
  /-- `RESET` (45 R254). -/
  | reset
  deriving DecidableEq, Repr

end Sys2Proof
end

