-- ==== Sys2Proof/WellFormed.lean ====
section
/-! DEFINITION. Well-formedness. A field of `Instr` has exactly the width of its bits (30 R93), so
every command term is a command. The checks stand where numbers are still unbounded: the textual
form of 30 R103, whose operands an assembler refuses outside their ranges. -/

namespace Sys2Proof

/-- Every command term is well formed: each operand's type is its field of 30 R93, and no value of a
field is illegal to encode (30 R94, 60 R272). -/
def Instr.wellFormed : Instr → Bool
  | .nop => true
  | .sample _ _ => true
  | .sampleLoss _ => true
  | .magIn _ => true
  | .bitIn _ => true
  | .cwIn _ _ => true
  | .demodQuery _ _ _ _ _ => true
  | .bchSyndrome _ => true
  | .bchCorrect _ => true
  | .csrRead _ => true
  | .csrWrite _ _ => true
  | .flush => true
  | .reset => true

/-- A command as text gives it (30 R103): the fields in the order of that table, as whole numbers. -/
inductive Asm where
  | nop
  | sample (i q : Int)
  | sampleLoss (n : Int)
  | magIn (y : Int)
  | bitIn (b : Int)
  | cwIn (w slot : Int)
  | demodQuery (i q ip qp mode : Int)
  | bchSyndrome (w : Int)
  | bchCorrect (w : Int)
  | csrRead (a : Int)
  | csrWrite (a v : Int)
  | flush
  | reset
  deriving DecidableEq, Repr

/-- A value of an unsigned field of `n` bits. -/
def fitsUnsigned (n : Nat) (v : Int) : Bool :=
  decide (0 ≤ v) && decide (v < 2 ^ n)

/-- A value of a two's-complement field of 32 bits. -/
def fitsSigned32 (v : Int) : Bool :=
  decide (-(2 ^ 31) ≤ v) && decide (v < 2 ^ 31)

/-- The ranges of 30 R103. A `CSR_WRITE` value may be negative, "a negative V means its two's
complement". -/
def Asm.wellFormed : Asm → Bool
  | .nop => true
  | .sample i q => fitsUnsigned 8 i && fitsUnsigned 8 q
  | .sampleLoss n => fitsUnsigned 32 n
  | .magIn y => fitsSigned32 y
  | .bitIn b => fitsUnsigned 1 b
  | .cwIn w slot => fitsUnsigned 32 w && fitsUnsigned 4 slot
  | .demodQuery i q ip qp mode =>
    fitsUnsigned 8 i && fitsUnsigned 8 q && fitsUnsigned 8 ip && fitsUnsigned 8 qp
      && fitsUnsigned 1 mode
  | .bchSyndrome w => fitsUnsigned 32 w
  | .bchCorrect w => fitsUnsigned 32 w
  | .csrRead a => fitsUnsigned 8 a
  | .csrWrite a v => fitsUnsigned 8 a && (fitsUnsigned 32 v || fitsSigned32 v)
  | .flush => true
  | .reset => true

end Sys2Proof
end

