-- ==== Sys2Proof/Decode.lean ====
section
/-! DEFINITION. Decoding and encoding of command words (30 R92 to R97), and the little-endian packing
a host may use on a byte stream (20 R73). -/

namespace Sys2Proof

/-- The opcodes of 30 R92. -/
inductive Opcode where
  | nop
  | sample
  | sampleLoss
  | magIn
  | bitIn
  | cwIn
  | demodQuery
  | bchSyndrome
  | bchCorrect
  | csrRead
  | csrWrite
  | flush
  | reset
  deriving DecidableEq, Repr

/-- Why a word names no command (30 R95). -/
inductive Reject where
  /-- `cmd[63:56]` is not an opcode of 30 R92: cause 1. -/
  | unknownOpcode
  /-- A bit of `cmd[55:0]` outside the operand mask is 1: cause 2. -/
  | reservedBits
  deriving DecidableEq, Repr

/-- What a command word is (30 R96: "every word is either a command ... or refused"). -/
inductive Decoded where
  | command (i : Instr)
  | rejected (r : Reject)
  deriving DecidableEq, Repr

/-- The opcode's byte (30 R92). -/
def Opcode.byte : Opcode → Byte
  | .nop => 0x00
  | .sample => 0x01
  | .sampleLoss => 0x02
  | .magIn => 0x10
  | .bitIn => 0x11
  | .cwIn => 0x12
  | .demodQuery => 0x20
  | .bchSyndrome => 0x21
  | .bchCorrect => 0x22
  | .csrRead => 0x30
  | .csrWrite => 0x31
  | .flush => 0x40
  | .reset => 0x7F

/-- The opcode a byte names, none for a reserved one (30 R92, R96). -/
def Opcode.ofByte (b : Byte) : Option Opcode :=
  if b = 0x00 then some .nop
  else if b = 0x01 then some .sample
  else if b = 0x02 then some .sampleLoss
  else if b = 0x10 then some .magIn
  else if b = 0x11 then some .bitIn
  else if b = 0x12 then some .cwIn
  else if b = 0x20 then some .demodQuery
  else if b = 0x21 then some .bchSyndrome
  else if b = 0x22 then some .bchCorrect
  else if b = 0x30 then some .csrRead
  else if b = 0x31 then some .csrWrite
  else if b = 0x40 then some .flush
  else if b = 0x7F then some .reset
  else none

/-- The operand mask over `cmd[55:0]` (30 R93). -/
def Opcode.operandMask : Opcode → BitVec 56
  | .nop => 0x00000000000000
  | .sample => 0x0000000000FFFF
  | .sampleLoss => 0x000000FFFFFFFF
  | .magIn => 0x000000FFFFFFFF
  | .bitIn => 0x00000000000001
  | .cwIn => 0x00000FFFFFFFFF
  | .demodQuery => 0x000001FFFFFFFF
  | .bchSyndrome => 0x000000FFFFFFFF
  | .bchCorrect => 0x000000FFFFFFFF
  | .csrRead => 0x0000FF00000000
  | .csrWrite => 0x0000FFFFFFFFFF
  | .flush => 0x00000000000000
  | .reset => 0x00000000000000

/-- `cmd[63:56]` (30 R92). -/
def opcodeOf (w : CmdWord) : Byte :=
  w.extractLsb' 56 8

/-- `cmd[55:0]` (30 R92). -/
def operandsOf (w : CmdWord) : BitVec 56 :=
  w.extractLsb' 0 56

/-- `cmd[lo+7:lo]`, a byte field (30 R93). -/
def byteField (w : CmdWord) (lo : Nat) : Byte :=
  w.extractLsb' lo 8

/-- `cmd[31:0]`, the word field (30 R93). -/
def wordField (w : CmdWord) : Word :=
  w.extractLsb' 0 32

/-- The command of an opcode with the fields of 30 R93. -/
def Opcode.assemble (w : CmdWord) : Opcode → Instr
  | .nop => .nop
  | .sample => .sample (byteField w 0) (byteField w 8)
  | .sampleLoss => .sampleLoss (wordField w)
  | .magIn => .magIn (wordField w)
  | .bitIn => .bitIn (w.getLsbD 0)
  | .cwIn => .cwIn (wordField w) (w.extractLsb' 32 4)
  | .demodQuery =>
    .demodQuery (byteField w 0) (byteField w 8) (byteField w 16) (byteField w 24)
      (DemodMode.ofBit (w.getLsbD 32))
  | .bchSyndrome => .bchSyndrome (wordField w)
  | .bchCorrect => .bchCorrect (wordField w)
  | .csrRead => .csrRead (byteField w 32)
  | .csrWrite => .csrWrite (byteField w 32) (wordField w)
  | .flush => .flush
  | .reset => .reset

/-- The decode procedure of 30 R95: the opcode first, then the reserved bits. -/
def decode (w : CmdWord) : Decoded :=
  match Opcode.ofByte (opcodeOf w) with
  | none => .rejected .unknownOpcode
  | some op =>
    if operandsOf w &&& ~~~op.operandMask = 0 then .command (op.assemble w)
    else .rejected .reservedBits

/-- The opcode of a command (30 R92). -/
def Instr.opcode : Instr → Opcode
  | .nop => .nop
  | .sample _ _ => .sample
  | .sampleLoss _ => .sampleLoss
  | .magIn _ => .magIn
  | .bitIn _ => .bitIn
  | .cwIn _ _ => .cwIn
  | .demodQuery _ _ _ _ _ => .demodQuery
  | .bchSyndrome _ => .bchSyndrome
  | .bchCorrect _ => .bchCorrect
  | .csrRead _ => .csrRead
  | .csrWrite _ _ => .csrWrite
  | .flush => .flush
  | .reset => .reset

/-- A command's operand bits `cmd[55:0]`, its fields from the high bits down as in 30 R93, every
other bit 0. -/
def Instr.operands : Instr → BitVec 56
  | .nop => 0
  | .sample i q => 0#40 ++ (q ++ i)
  | .sampleLoss n => 0#24 ++ n
  | .magIn y => 0#24 ++ y
  | .bitIn b => 0#55 ++ BitVec.ofBool b
  | .cwIn w slot => 0#20 ++ (slot ++ w)
  | .demodQuery i q ip qp mode =>
    0#23 ++ (BitVec.ofBool mode.bit ++ (qp ++ (ip ++ (q ++ i))))
  | .bchSyndrome w => 0#24 ++ w
  | .bchCorrect w => 0#24 ++ w
  | .csrRead a => 0#16 ++ (a ++ 0#32)
  | .csrWrite a v => 0#16 ++ (a ++ v)
  | .flush => 0
  | .reset => 0

/-- The command word of a command (30 R92, R93). -/
def encode (i : Instr) : CmdWord :=
  i.opcode.byte ++ i.operands

/-- The instruction the decoder reads from a table row's bits: the word of `nbits` bits, every bit
above them 0 (a command is one whole 64-bit word, 30 R97). -/
def decodeTableWord (nbits w : Nat) : Option Instr :=
  match decode (BitVec.ofNat 64 (w % 2 ^ nbits)) with
  | .command i => some i
  | .rejected _ => none

/-- Byte k of a packed word is its bits `8k+7 .. 8k` (20 R73). -/
def packWord (w : BitVec 64) : List Byte :=
  [w.extractLsb' 0 8, w.extractLsb' 8 8, w.extractLsb' 16 8, w.extractLsb' 24 8,
    w.extractLsb' 32 8, w.extractLsb' 40 8, w.extractLsb' 48 8, w.extractLsb' 56 8]

/-- The next word of a packed stream and what follows it, none when fewer than 8 bytes are left
(20 R73). -/
def unpackWord : List Byte → Option (BitVec 64 × List Byte)
  | b0 :: b1 :: b2 :: b3 :: b4 :: b5 :: b6 :: b7 :: rest =>
    some (b7 ++ (b6 ++ (b5 ++ (b4 ++ (b3 ++ (b2 ++ (b1 ++ b0)))))), rest)
  | _ => none

end Sys2Proof
end

