-- ==== Sys2Proof/Machine/State.lean ====
section
/-! DEFINITION. The state of the block (10 R20 to R50), the host's side of its ports (30 R90, R91), the
reasons a step can stop, and the state after hardware reset (10 R50, 70 R290). A field whose rule
gives a width is a bit vector; a field whose rule gives a range is a number, and `Safety.lean` states
the ranges. -/

namespace Sys2Proof.Machine

/-- The message buffer as a list of (index, byte) pairs: indices strictly rising, no byte equal to
what an unlisted index reads as (log entry 5). -/
abbrev Memory := List Host.Cell

/-- The payload kind of a message (10 R46, 44 R214). -/
inductive Kind where
  /-- 0: 4-bit units. -/
  | numeric
  /-- 1: 7-bit units. -/
  | alphanumeric
  deriving DecidableEq, Repr

/-- The frame acquirer's state (10 R44). -/
inductive FsmState where
  /-- `SEARCH_PREAMBLE_START`, 0. -/
  | searchPreambleStart
  /-- `SEARCH_PREAMBLE_END`, 1. -/
  | searchPreambleEnd
  /-- `SEARCH_SYNC`, 2. -/
  | searchSync
  /-- `SYNCHED`, 3. -/
  | synched
  deriving DecidableEq, Repr

/-- The fields of the RW configuration registers (10 R20, R23 to R30). -/
structure CsrFields where
  bitTrace : Bool
  trEn : Bool
  invert : Bool
  demodMode : DemodMode
  threshold : Word
  sampleRate : Word
  symbolRate : Word
  gainShift : BitVec 5
  preMinLen : BitVec 16
  preStartRun : BitVec 16
  errLimit : BitVec 5
  syncMissLimit : BitVec 8
  softThreshold : BitVec 6
  cap : BitVec 16
  placeholder : Byte
  kindMap : BitVec 4
  deriving DecidableEq, Repr

/-- The demodulator's previous centred sample (10 R42). -/
structure DemodState where
  pi : Int
  pq : Int
  deriving DecidableEq, Repr

/-- The symbol synchronizer's state (10 R43). -/
structure SyncState where
  phase : Nat
  acc : Word
  prevS : Bool
  havePrevS : Bool
  deriving DecidableEq, Repr

/-- The frame acquirer's registers (10 R44, R45). -/
structure Acquirer where
  state : FsmState
  sr : Word
  altRun : BitVec 16
  prevBit : Bool
  havePrev : Bool
  bitcnt : Nat
  cwIndex : Nat
  miss : BitVec 8
  errHist : BitVec 16
  deriving DecidableEq, Repr

/-- The message register (10 R46); `isOpen` is the spec's `msg.open`. -/
structure MsgReg where
  isOpen : Bool
  capcode : BitVec 21
  func : BitVec 2
  kind : Kind
  trunc : Bool
  err : Bool
  bits : BitVec 7
  nb : Nat
  nc : Nat
  deriving DecidableEq, Repr

/-- The names of the twelve counters (10 R48). -/
inductive Counter where
  | samples
  | bits
  | cwClean
  | cwFixed
  | cwUncorr
  | syncAcq
  | syncLost
  | batch
  | msg
  | trunc
  | illegal
  | overrun
  deriving DecidableEq, Repr

/-- The twelve counters (10 R40, R48). -/
structure Counters where
  samples : Word
  bits : Word
  cwClean : Word
  cwFixed : Word
  cwUncorr : Word
  syncAcq : Word
  syncLost : Word
  batch : Word
  msg : Word
  trunc : Word
  illegal : Word
  overrun : Word
  deriving DecidableEq, Repr

/-- One thing the host does at the ports (30 R90, R91, log entry 1). -/
inductive Input where
  /-- A command word is offered on the command port. -/
  | command (w : CmdWord)
  /-- The host takes one event word from the event port. -/
  | takeEvent
  /-- `rst` is 1 at a rising edge of `clk` (70 R290). -/
  | hardReset
  deriving DecidableEq, Repr

/-- The state: the tuple of 10 R20, then the model's own view of the two ports. -/
structure State where
  /-- The configuration fields (10 R23 to R30). -/
  csr : CsrFields
  /-- The demodulator (10 R42). -/
  demod : DemodState
  /-- The synchronizer (10 R43). -/
  sync : SyncState
  /-- The frame acquirer (10 R44, R45). -/
  fsm : Acquirer
  /-- The message register (10 R46). -/
  msg : MsgReg
  /-- The message buffer (10 R47, 20 R70). -/
  buf : Memory
  /-- The counters (10 R48). -/
  cnt : Counters
  /-- The event words emitted and not yet taken, oldest first (30 R91, log entry 2). -/
  evts : List EvtWord
  /-- What the host does next, in order (30 R91, log entry 1). -/
  inputs : List Input
  deriving DecidableEq, Repr

/-- Why the model stops with a fault. -/
inductive Fault where
  /-- Raised by `MemRead` and `MemWrite` (20 R70) at an index of `MAX_CAP` or more, which is no byte of
  the buffer. The spec derives that no access is one (20 R70), and no run from reset reaches it.
  SAFE: the model stops where the spec gives no effect (log entry 6). -/
  | bufferIndex (k : Nat)
  deriving DecidableEq, Repr

/-- Why the model has no meaning for a command. No arm of `exec` uses it: every command has its
meaning, and a refused command WORD is an ILLEGAL event and a next state (60 R271), not this. -/
inductive Refusal where
  /-- Raised by `exec` for a row of the table that has no meaning yet. SAFE: the model stops. -/
  | notModelled (mnemonic : String)
  deriving DecidableEq, Repr

/-- The reset values of the RW registers (10 R21, R23 to R30). -/
def CsrFields.reset : CsrFields where
  bitTrace := false
  trEn := true
  invert := false
  demodMode := .mag
  threshold := 0
  sampleRate := 2000000
  symbolRate := 1200
  gainShift := 4
  preMinLen := 64
  preStartRun := 32
  errLimit := 8
  syncMissLimit := 0
  softThreshold := 2
  cap := 256
  placeholder := 0x3F
  kindMap := 0b1000

/-- The demodulator after reset (10 R42, R50). -/
def DemodState.reset : DemodState where
  pi := 0
  pq := 0

/-- The synchronizer after reset (10 R43, R50). -/
def SyncState.reset : SyncState where
  phase := 0
  acc := 0
  prevS := false
  havePrevS := false

/-- The frame acquirer after reset (10 R44, R45, R50). -/
def Acquirer.reset : Acquirer where
  state := .searchPreambleStart
  sr := 0
  altRun := 0
  prevBit := false
  havePrev := false
  bitcnt := 0
  cwIndex := 0
  miss := 0
  errHist := 0

/-- The message register after reset and while no message is open (10 R46, R50, R51). -/
def MsgReg.closed : MsgReg where
  isOpen := false
  capcode := 0
  func := 0
  kind := .numeric
  trunc := false
  err := false
  bits := 0
  nb := 0
  nc := 0

/-- The counters after reset (10 R48, R50). -/
def Counters.zero : Counters where
  samples := 0
  bits := 0
  cwClean := 0
  cwFixed := 0
  cwUncorr := 0
  syncAcq := 0
  syncLost := 0
  batch := 0
  msg := 0
  trunc := 0
  illegal := 0
  overrun := 0

/-- The block right after hardware reset (10 R50, 70 R290): no byte of the buffer written, no event
waiting, and nothing offered yet. -/
def State.reset : State where
  csr := .reset
  demod := .reset
  sync := .reset
  fsm := .reset
  msg := .closed
  buf := []
  cnt := .zero
  evts := []
  inputs := []

end Sys2Proof.Machine
end

