-- ==== Sys2Proof/Machine/Events.lean ====
section
/-! DEFINITION. The events of the event port and their 64-bit words (30 R100 to R102). -/

namespace Sys2Proof.Machine

/-- The reason of a SYNC_LOST event (30 R101): reasons 2 and 3 are never emitted (42 R170). -/
inductive LossReason where
  /-- 0: expected sync words missed. -/
  | syncMissed
  /-- 1: the error window exceeded. -/
  | errorRate
  deriving DecidableEq, Repr

/-- The cause of an ILLEGAL event (60 R272): no other cause exists. -/
inductive Cause where
  | unknownOpcode
  | reservedBits
  | csrUnmapped
  | csrReadOnly
  | csrIllegalValue
  deriving DecidableEq, Repr

/-- The ten event types of 30 R100 with the payload fields of 30 R101. -/
inductive Event where
  | msgHeader (nc : BitVec 16) (err trunc : Bool) (kind : Kind) (func : BitVec 2)
      (capcode : BitVec 21)
  | msgChar (index : BitVec 16) (ch : Byte)
  | msgEnd (nc : BitVec 16)
  | bit (soft : Word) (b : Bool)
  | syncAcquired (d : BitVec 6)
  | batchSync (flips : BitVec 2)
  | syncMiss (misses : BitVec 8)
  | syncLost (reason : LossReason)
  | result (payload : BitVec 56)
  | illegal (addr op : Byte) (cause : Cause)
  deriving DecidableEq, Repr

/-- `msg.kind` as a bit (10 R46). -/
def Kind.bit : Kind → Bool
  | .numeric => false
  | .alphanumeric => true

/-- The reason's code (30 R101). -/
def LossReason.code : LossReason → BitVec 2
  | .syncMissed => 0
  | .errorRate => 1

/-- The cause's code (60 R272). -/
def Cause.code : Cause → Byte
  | .unknownOpcode => 1
  | .reservedBits => 2
  | .csrUnmapped => 3
  | .csrReadOnly => 4
  | .csrIllegalValue => 5

/-- The event's type `evt[63:56]` (30 R100). -/
def Event.type : Event → Byte
  | .msgHeader _ _ _ _ _ _ => 0x01
  | .msgChar _ _ => 0x02
  | .msgEnd _ => 0x03
  | .bit _ _ => 0x10
  | .syncAcquired _ => 0x20
  | .batchSync _ => 0x21
  | .syncMiss _ => 0x22
  | .syncLost _ => 0x23
  | .result _ => 0x30
  | .illegal _ _ _ => 0x3F

/-- The event's payload `evt[55:0]`, every bit that 30 R101 does not list being 0. -/
def Event.payload : Event → BitVec 56
  | .msgHeader nc err trunc kind func capcode =>
    0#14 ++ (nc ++ (BitVec.ofBool err ++ (BitVec.ofBool trunc ++ (BitVec.ofBool kind.bit
      ++ (func ++ capcode)))))
  | .msgChar index ch => 0#32 ++ (index ++ ch)
  | .msgEnd nc => 0#40 ++ nc
  | .bit soft b => 0#16 ++ (soft ++ (0#7 ++ BitVec.ofBool b))
  | .syncAcquired d => 0#50 ++ d
  | .batchSync flips => 0#54 ++ flips
  | .syncMiss misses => 0#48 ++ misses
  | .syncLost reason => 0#54 ++ reason.code
  | .result payload => payload
  | .illegal addr op cause => 0#32 ++ (addr ++ (op ++ cause.code))

/-- The event word `{TYPE[7:0], payload[55:0]}` (30 R100). -/
def Event.word (e : Event) : EvtWord :=
  e.type ++ e.payload

/-- The RESULT of DEMOD_QUERY: `[31:0]` the demod value as two's complement (30 R102). -/
def resultDemod (y : Int) : Event :=
  .result (0#24 ++ BitVec.ofInt 32 y)

/-- The RESULT of BCH_SYNDROME: `[10:0]` the syndrome (30 R102). -/
def resultSyndrome (syn : BitVec 11) : Event :=
  .result (0#45 ++ syn)

/-- The RESULT of BCH_CORRECT: `[34]` fail, `[33:32]` flips, `[31:0]` word (30 R102). -/
def resultCorrect (fail : Bool) (flips : BitVec 2) (w : Word) : Event :=
  .result (0#21 ++ (BitVec.ofBool fail ++ (flips ++ w)))

/-- The RESULT of CSR_READ: `[39:32]` the address, `[31:0]` the value (30 R102). -/
def resultCsr (a : Byte) (v : Word) : Event :=
  .result (0#16 ++ (a ++ v))

end Sys2Proof.Machine
end

