-- ==== Sys2Proof/Machine/Ops.lean ====
section
/-! DEFINITION. The named operations of 00 R10: `MemRead` and `MemWrite` over the message buffer
(20 R70), `emit`, `inc` (10 R48), the refusal report `raise Illegal` (60 R271), which stands where
another machine takes an exception, and the two resets (10 R50). There is no return from a report
(60 R275). -/

namespace Sys2Proof.Machine

/-! ### The message buffer -/

/-- What a byte of the buffer reads as until it is written. DESIGN CHOICE, unsafe (log entry 5): the
spec leaves it unspecified, and no rule reads such a byte (10 R47, R50). -/
def Memory.unlisted : Byte := 0

/-- The byte at index `k`. -/
def Memory.read : Memory → Nat → Byte
  | [], _ => Memory.unlisted
  | (k, b) :: m, a => if k = a then b else Memory.read m a

/-- The buffer with index `a` unlisted. -/
def Memory.without (m : Memory) (a : Nat) : Memory :=
  m.filter fun c => c.1 != a

/-- The buffer with `(a, b)` put before the first higher index. -/
def Memory.place : Memory → Nat → Byte → Memory
  | [], a, b => [(a, b)]
  | (k, c) :: m, a, b => if a < k then (a, b) :: (k, c) :: m else (k, c) :: Memory.place m a b

/-- The buffer with byte `b` at index `a`, in canonical form. -/
def Memory.write (m : Memory) (a : Nat) (b : Byte) : Memory :=
  if b = Memory.unlisted then m.without a else (m.without a).place a b

/-- Every index is at least `lo`, indices strictly rise, and no byte is the unlisted one. -/
def Memory.wfFrom : Nat → Memory → Bool
  | _, [] => true
  | lo, (k, b) :: m => decide (lo ≤ k) && decide (b ≠ Memory.unlisted) && Memory.wfFrom (k + 1) m

/-- The canonical form of a buffer. -/
def Memory.wf (m : Memory) : Bool :=
  Memory.wfFrom 0 m

/-- `MemRead(k, 1)` (00 R10, 20 R70); an index that is no byte of the buffer faults (log entry 6). -/
def memRead (cfg : Config) (m : Memory) (k : Nat) : Except Fault Byte :=
  if k < cfg.maxCap then .ok (m.read k) else .error (.bufferIndex k)

/-- `MemWrite(k, 1, b)` (00 R10, 20 R70); an index that is no byte of the buffer faults (log entry 6). -/
def memWrite (cfg : Config) (m : Memory) (k : Nat) (b : Byte) : Except Fault Memory :=
  if k < cfg.maxCap then .ok (m.write k b) else .error (.bufferIndex k)

/-! ### Writing one part of the state -/

def State.setCsr (s : State) (v : CsrFields) : State := { s with csr := v }
def State.setDemod (s : State) (v : DemodState) : State := { s with demod := v }
def State.setSync (s : State) (v : SyncState) : State := { s with sync := v }
def State.setFsm (s : State) (v : Acquirer) : State := { s with fsm := v }
def State.setMsg (s : State) (v : MsgReg) : State := { s with msg := v }
def State.setBuf (s : State) (v : Memory) : State := { s with buf := v }
def State.setCnt (s : State) (v : Counters) : State := { s with cnt := v }
def State.setEvts (s : State) (v : List EvtWord) : State := { s with evts := v }
def State.setInputs (s : State) (v : List Input) : State := { s with inputs := v }

/-! ### Events and counters -/

/-- `emit(TYPE, payload)`: one event word after those already waiting (00 R10, 30 R91). -/
def State.emit (s : State) (e : Event) : State :=
  s.setEvts (s.evts ++ [e.word])

/-- Events emitted one after another. -/
def State.emitAll (s : State) (es : List Event) : State :=
  s.setEvts (s.evts ++ es.map Event.word)

/-- The value of a counter (10 R40, R48). -/
def Counters.get (k : Counters) : Counter → Word
  | .samples => k.samples
  | .bits => k.bits
  | .cwClean => k.cwClean
  | .cwFixed => k.cwFixed
  | .cwUncorr => k.cwUncorr
  | .syncAcq => k.syncAcq
  | .syncLost => k.syncLost
  | .batch => k.batch
  | .msg => k.msg
  | .trunc => k.trunc
  | .illegal => k.illegal
  | .overrun => k.overrun

/-- `cnt.c + n`, modulo 2^32 (10 R48). -/
def Counters.add (k : Counters) (n : Word) : Counter → Counters
  | .samples => { k with samples := k.samples + n }
  | .bits => { k with bits := k.bits + n }
  | .cwClean => { k with cwClean := k.cwClean + n }
  | .cwFixed => { k with cwFixed := k.cwFixed + n }
  | .cwUncorr => { k with cwUncorr := k.cwUncorr + n }
  | .syncAcq => { k with syncAcq := k.syncAcq + n }
  | .syncLost => { k with syncLost := k.syncLost + n }
  | .batch => { k with batch := k.batch + n }
  | .msg => { k with msg := k.msg + n }
  | .trunc => { k with trunc := k.trunc + n }
  | .illegal => { k with illegal := k.illegal + n }
  | .overrun => { k with overrun := k.overrun + n }

/-- `inc(c, n)` (10 R48). -/
def State.inc (s : State) (c : Counter) (n : Word) : State :=
  s.setCnt (s.cnt.add n c)

/-! ### Refused commands -/

/-- `raise Illegal(cause, op, addr)`: count it, emit the ILLEGAL event, nothing else (60 R271). -/
def raiseIllegal (cause : Cause) (op addr : Byte) (s : State) : State :=
  (s.inc .illegal 1).emit (.illegal addr op cause)

/-- The cause of a word that names no command (30 R95, 60 R272). -/
def rejectCause : Reject → Cause
  | .unknownOpcode => .unknownOpcode
  | .reservedBits => .reservedBits

/-- The refusal of a word that names no command: its opcode byte, address 0 (30 R95). -/
def refuseWord (r : Reject) (w : CmdWord) (s : State) : State :=
  raiseIllegal (rejectCause r) (opcodeOf w) 0 s

/-! ### Reset -/

/-- The RESET command's column of 10 R50: the RW CSRs and the buffer unchanged, events of earlier
commands kept (45 R254), an open message dropped. -/
def softReset (s : State) : State :=
  ((((s.setDemod .reset).setSync .reset).setFsm .reset).setMsg .closed).setCnt .zero

/-- Hardware reset (70 R290): every state at the first column of 10 R50 and the waiting events
discarded; what the host does afterwards is the host's (log entry 3). -/
def hardwareReset (s : State) : State :=
  State.reset.setInputs s.inputs

/-! ### The ports -/

/-- The host takes the oldest event word; with none offered nothing moves (30 R91, log entry 4). -/
def takeEvent (s : State) : State :=
  s.setEvts (s.evts.drop 1)

/-- What the host does next, and the state without it; none when it does nothing. -/
def State.nextInput (s : State) : Option (Input × State) :=
  match s.inputs with
  | [] => none
  | x :: rest => some (x, s.setInputs rest)

/-- The state in which the host offers a command word before all else (log entry 1). -/
def State.offer (s : State) (w : CmdWord) : State :=
  s.setInputs (.command w :: s.inputs)

/-- The outcome of an operation that may reach outside the buffer. -/
def answer : Except Fault State → Host.Outcome State Fault Refusal
  | .ok s => .next s
  | .error f => .fault f

end Sys2Proof.Machine
end

