-- ==== Sys2Proof/Machine/Operands.lean ====
section
/-! DEFINITION. The operand forms of 30 R93 and R94: every field is unsigned except `Y` of MAG_IN; and
the fields of a codeword (43 R190, 44 R215, R216). -/

namespace Sys2Proof.Machine

/-- `sext_32` of a field: `Y` of MAG_IN and `THRESHOLD` (00 R9, 30 R94, 10 R24). -/
def signed32 (w : Word) : Int :=
  w.toInt

/-- The frame number `s div 2` of a slot (44 R215). -/
def slotFrame (slot : BitVec 4) : BitVec 3 :=
  slot.extractLsb' 1 3

/-- `c[31]`: 0 for an address codeword, 1 for a message codeword (44 R215, R216). -/
def isMessageWord (c : Word) : Bool :=
  c.getLsbD 31

/-- `c[30:13] * 8 + (s div 2)` (44 R215). -/
def capcodeOf (c : Word) (slot : BitVec 4) : BitVec 21 :=
  c.extractLsb' 13 18 ++ slotFrame slot

/-- `c[12:11]` (44 R215). -/
def funcOf (c : Word) : BitVec 2 :=
  c.extractLsb' 11 2

/-- `c[hi], c[hi - 1], ...`, `n` bits in transmission order (20 R75, R76). -/
def bitsDown (c : Word) : Nat → Nat → List Bool
  | _, 0 => []
  | hi, n + 1 => c.getLsbD hi :: bitsDown c (hi - 1) n

/-- The 20 payload bits `c[30]` down to `c[11]` (44 R211, R216). -/
def payloadBits (c : Word) : List Bool :=
  bitsDown c 30 20

end Sys2Proof.Machine
end

