-- ==== Sys2Proof/Machine/Flags.lean ====
section
/-! DEFINITION. The one-bit computations. The block has no flags register (10 R49); what takes its place
are the signs, breaks and parities the rules compute. -/

namespace Sys2Proof.Machine

/-- The sign bit `s` of a sliced value: 1 when `v >= 0` (41 R141). -/
def sliceSign (v : Int) : Bool :=
  decide (0 ≤ v)

/-- A zero crossing that timing recovery acts on (41 R142). -/
def zeroCrossing (c : CsrFields) (y : SyncState) (s : Bool) : Bool :=
  c.trEn && y.havePrevS && (s != y.prevS)

/-- The hard bit of a symbol: 1 when the sum is not negative, inverted when `INVERT` is 1 (41 R143). -/
def hardBit (acc : Int) (invert : Bool) : Bool :=
  sliceSign acc ^^ invert

/-- `brk`: this bit repeats the previous one (42 R161). -/
def runBreaks (f : Acquirer) (b : Bool) : Bool :=
  f.havePrev && (b == f.prevBit)

/-- This bit extends the alternating run (42 R161). -/
def runExtends (f : Acquirer) (b : Bool) : Bool :=
  f.havePrev && (b != f.prevBit)

/-- The overall parity of a word: 1 for an odd number of set bits (43 R192). -/
def oddParity {n : Nat} (w : BitVec n) : Bool :=
  popcount w % 2 == 1

end Sys2Proof.Machine
end

