-- ==== Sys2Proof/Machine/Parser.lean ====
section
/-! DEFINITION. The batch and message parser (44 R210 to R226): classification, bit accumulation, the
numeric table, capacity, and handing a message out. -/

namespace Sys2Proof.Machine

/-- The width of a kind's output unit (44 R214, R219). -/
def Kind.width : Kind → Nat
  | .numeric => 4
  | .alphanumeric => 7

/-- `KIND_MAP[func]` (44 R214). -/
def kindOf (kindMap : BitVec 4) (func : BitVec 2) : Kind :=
  if kindMap.getLsbD func.toNat then .alphanumeric else .numeric

/-- `NumChar(u)` (44 R221). -/
def numChar (placeholder : Byte) (u : BitVec 4) : Byte :=
  if u = 0xA then placeholder
  else if u = 0xB then 0x55
  else if u = 0xC then 0x20
  else if u = 0xD then 0x2D
  else if u = 0xE then 0x5D
  else if u = 0xF then 0x5B
  else 0x30 + u.setWidth 8

/-- The character of a complete unit (44 R219, R221, R222). -/
def unitChar (kind : Kind) (placeholder : Byte) (u : BitVec 7) : Byte :=
  match kind with
  | .numeric => numChar placeholder (u.setWidth 4)
  | .alphanumeric => u.setWidth 8

/-- The MSG_CHAR events of `n` characters from index `k` up (44 R224). -/
def charEvents (cfg : Config) (m : Memory) : Nat → Nat → Except Fault (List Event)
  | _, 0 => .ok []
  | k, n + 1 =>
    match memRead cfg m k with
    | .error f => .error f
    | .ok b =>
      match charEvents cfg m (k + 1) n with
      | .error f => .error f
      | .ok es => .ok (.msgChar (BitVec.ofNat 16 k) b :: es)

/-- The MSG_HEADER event of a message (44 R224). -/
def headerEvent (m : MsgReg) : Event :=
  .msgHeader (BitVec.ofNat 16 m.nc) m.err m.trunc m.kind m.func m.capcode

/-- `inc(MSG, 1)`, and `inc(TRUNC, 1)` for a truncated message (44 R224). -/
def countMessage (trunc : Bool) (s : State) : State :=
  if trunc then (s.inc .msg 1).inc .trunc 1 else s.inc .msg 1

/-- `Finalize()`: the events of the message register's message, then the register closed (44 R224). -/
def finalize (cfg : Config) (s : State) : Except Fault State :=
  match charEvents cfg s.buf 0 s.msg.nc with
  | .error f => .error f
  | .ok cs =>
    .ok ((countMessage s.msg.trunc
      (s.emitAll (headerEvent s.msg :: (cs ++ [.msgEnd (BitVec.ofNat 16 s.msg.nc)])))).setMsg .closed)

/-- `if msg.open = 1: Finalize()` (42 R170, 44 R211, 45 R253). -/
def finalizeIfOpen (cfg : Config) (s : State) : Except Fault State :=
  if s.msg.isOpen then finalize cfg s else .ok s

/-- The unit being built with one more bit (44 R219). -/
def addBit (m : MsgReg) (b : Bool) : BitVec 7 :=
  m.bits + (BitVec.ofNat 7 b.toNat <<< m.nb)

/-- A complete unit `u`: its character appended, or at capacity the message truncated and finalized
(44 R219, R220, R223). -/
def appendUnit (cfg : Config) (u : BitVec 7) (s : State) : Except Fault State :=
  if s.csr.cap.toNat ≤ s.msg.nc then
    finalize cfg (s.setMsg { s.msg with bits := 0, nb := 0, trunc := true })
  else
    match memWrite cfg s.buf s.msg.nc (unitChar s.msg.kind s.csr.placeholder u) with
    | .error f => .error f
    | .ok m => .ok ((s.setBuf m).setMsg { s.msg with bits := 0, nb := 0, nc := s.msg.nc + 1 })

/-- `Accum(b)` (44 R219). -/
def accum (cfg : Config) (b : Bool) (s : State) : Except Fault State :=
  if s.msg.nb + 1 = s.msg.kind.width then appendUnit cfg (addBit s.msg b) s
  else .ok (s.setMsg { s.msg with bits := addBit s.msg b, nb := s.msg.nb + 1 })

/-- `Accum` of each bit in turn, stopping once the message is closed by capacity (44 R211, R223). -/
def accumBits (cfg : Config) : List Bool → State → Except Fault State
  | [], s => .ok s
  | b :: bs, s =>
    match accum cfg b s with
    | .error f => .error f
    | .ok t => if t.msg.isOpen then accumBits cfg bs t else .ok t

/-- The message an address codeword opens (44 R211, R215). -/
def openedMessage (kindMap : BitVec 4) (c : Word) (slot : BitVec 4) : MsgReg where
  isOpen := true
  capcode := capcodeOf c slot
  func := funcOf c
  kind := kindOf kindMap (funcOf c)
  trunc := false
  err := false
  bits := 0
  nb := 0
  nc := 0

/-- The address codeword's arm of `Parse` (44 R215): close, then open; opening emits no event. -/
def parseAddress (cfg : Config) (c : Word) (slot : BitVec 4) (s : State) : Except Fault State :=
  match finalizeIfOpen cfg s with
  | .error f => .error f
  | .ok t => .ok (t.setMsg (openedMessage t.csr.kindMap c slot))

/-- `Parse(c, s)` (44 R211): idle, sync, address, message, in that order. -/
def parse (cfg : Config) (c : Word) (slot : BitVec 4) (s : State) : Except Fault State :=
  if c = idleWord then finalizeIfOpen cfg s
  else if c = syncWord then .ok s
  else if isMessageWord c then
    if s.msg.isOpen then accumBits cfg (payloadBits c) s else .ok s
  else parseAddress cfg c slot s

end Sys2Proof.Machine
end

