-- ==== Sys2Proof/Machine/Control.lean ====
section
/-! DEFINITION. The control commands NOP, FLUSH and RESET (45 R250, R253, R254); CSR_READ and CSR_WRITE
stand with the CSR space. -/

namespace Sys2Proof.Machine

/-- NOP (45 R250). -/
def execNop (s : State) : Host.Outcome State Fault Refusal :=
  .next s

/-- FLUSH of any build (45 R253, 00 R5). -/
def flushFor (cfg : Config) (s : State) : Host.Outcome State Fault Refusal :=
  answer (finalizeIfOpen cfg s)

/-- FLUSH (45 R253). -/
def execFlush (s : State) : Host.Outcome State Fault Refusal :=
  flushFor .build s

/-- RESET (45 R254). -/
def execReset (s : State) : Host.Outcome State Fault Refusal :=
  .next (softReset s)

end Sys2Proof.Machine
end

