-- ==== Sys2Proof/Machine/Csr.lean ====
section
/-! DEFINITION. The CSR space (10 R21 to R41), CSR_READ, CSR_WRITE (45 R251, R252, R255). -/

namespace Sys2Proof.Machine

/-- The mapped registers of 10 R21 by name; the twelve counters under one constructor. -/
inductive Csr where
  | id
  | ctrl
  | threshold
  | sampleRate
  | symbolRate
  | timing
  | preamble
  | syncCfg
  | msgCfg
  | status
  | phase
  | acc
  | shiftReg
  | bitHist
  | errHist
  | msgAddr
  | msgAccum
  | prevIq
  | count (c : Counter)
  deriving DecidableEq, Repr

/-- The counter of address `0x20 + n` (10 R40). -/
def counterAt (n : Nat) : Option Counter :=
  [Counter.samples, .bits, .cwClean, .cwFixed, .cwUncorr, .syncAcq, .syncLost, .batch, .msg, .trunc,
    .illegal, .overrun][n]?

/-- The register of an address, none when it is unmapped (10 R21, R41). -/
def csrAt (a : Byte) : Option Csr :=
  if a = 0x00 then some .id
  else if a = 0x01 then some .ctrl
  else if a = 0x02 then some .threshold
  else if a = 0x03 then some .sampleRate
  else if a = 0x04 then some .symbolRate
  else if a = 0x05 then some .timing
  else if a = 0x06 then some .preamble
  else if a = 0x07 then some .syncCfg
  else if a = 0x08 then some .msgCfg
  else if a = 0x10 then some .status
  else if a = 0x11 then some .phase
  else if a = 0x12 then some .acc
  else if a = 0x13 then some .shiftReg
  else if a = 0x14 then some .bitHist
  else if a = 0x15 then some .errHist
  else if a = 0x16 then some .msgAddr
  else if a = 0x17 then some .msgAccum
  else if a = 0x18 then some .prevIq
  else if 0x20 ≤ a.toNat then (counterAt (a.toNat - 0x20)).map .count
  else none

/-- A read-write register (10 R21); every other mapped register is read-only. -/
def Csr.writable : Csr → Bool
  | .ctrl => true
  | .threshold => true
  | .sampleRate => true
  | .symbolRate => true
  | .timing => true
  | .preamble => true
  | .syncCfg => true
  | .msgCfg => true
  | .id => false
  | .status => false
  | .phase => false
  | .acc => false
  | .shiftReg => false
  | .bitHist => false
  | .errHist => false
  | .msgAddr => false
  | .msgAccum => false
  | .prevIq => false
  | .count _ => false

/-- `fsm.state` in 2 bits (10 R44). -/
def FsmState.code : FsmState → BitVec 2
  | .searchPreambleStart => 0
  | .searchPreambleEnd => 1
  | .searchSync => 2
  | .synched => 3

/-- CTRL (10 R23). -/
def ctrlWord (c : CsrFields) : Word :=
  0#28 ++ (BitVec.ofBool c.bitTrace ++ (BitVec.ofBool c.trEn ++ (BitVec.ofBool c.invert
    ++ BitVec.ofBool c.demodMode.bit)))

/-- TIMING (10 R27). -/
def timingWord (c : CsrFields) : Word :=
  0#27 ++ c.gainShift

/-- PREAMBLE (10 R28). -/
def preambleWord (c : CsrFields) : Word :=
  c.preMinLen ++ c.preStartRun

/-- SYNC_CFG (10 R29). -/
def syncCfgWord (c : CsrFields) : Word :=
  0#11 ++ (c.errLimit ++ (c.syncMissLimit ++ (0#2 ++ c.softThreshold)))

/-- MSG_CFG (10 R30). -/
def msgCfgWord (c : CsrFields) : Word :=
  c.cap ++ (c.placeholder ++ (0#4 ++ c.kindMap))

/-- STATUS (10 R31). -/
def statusWord (f : Acquirer) (m : MsgReg) : Word :=
  0#10 ++ (f.miss ++ (BitVec.ofNat 5 f.bitcnt ++ (BitVec.ofNat 5 f.cwIndex
    ++ (BitVec.ofBool m.kind.bit ++ (BitVec.ofBool m.isOpen ++ f.state.code)))))

/-- BITHIST (10 R35). -/
def bitHistWord (x : SyncState) (f : Acquirer) : Word :=
  0#12 ++ (BitVec.ofBool x.havePrevS ++ (BitVec.ofBool x.prevS ++ (BitVec.ofBool f.havePrev
    ++ (BitVec.ofBool f.prevBit ++ f.altRun))))

/-- MSG_ADDR (10 R37). -/
def msgAddrWord (m : MsgReg) : Word :=
  0#7 ++ (BitVec.ofBool m.err ++ (BitVec.ofBool m.trunc ++ (m.func ++ m.capcode)))

/-- MSG_ACCUM (10 R38). -/
def msgAccumWord (m : MsgReg) : Word :=
  BitVec.ofNat 16 m.nc ++ (0#5 ++ (BitVec.ofNat 3 m.nb ++ (0#1 ++ m.bits)))

/-- PREV_IQ (10 R39). -/
def prevIqWord (d : DemodState) : Word :=
  BitVec.ofInt 16 d.pq ++ BitVec.ofInt 16 d.pi

/-- `CsrRead`: the value of a register in a state (10 R22 to R40, 45 R251). -/
def csrRead (s : State) : Csr → Word
  | .id => 0x47534350
  | .ctrl => ctrlWord s.csr
  | .threshold => s.csr.threshold
  | .sampleRate => s.csr.sampleRate
  | .symbolRate => s.csr.symbolRate
  | .timing => timingWord s.csr
  | .preamble => preambleWord s.csr
  | .syncCfg => syncCfgWord s.csr
  | .msgCfg => msgCfgWord s.csr
  | .status => statusWord s.fsm s.msg
  | .phase => BitVec.ofNat 32 s.sync.phase
  | .acc => s.sync.acc
  | .shiftReg => s.fsm.sr
  | .bitHist => bitHistWord s.sync s.fsm
  | .errHist => 0#16 ++ s.fsm.errHist
  | .msgAddr => msgAddrWord s.msg
  | .msgAccum => msgAccumWord s.msg
  | .prevIq => prevIqWord s.demod
  | .count c => s.cnt.get c

/-- The legality of a value for a read-write register (45 R255); a read-only register takes none. -/
def csrLegal (cfg : Config) (c : CsrFields) (v : Word) : Csr → Bool
  | .ctrl => v.extractLsb' 4 28 == 0
  | .threshold => true
  | .sampleRate => decide (c.symbolRate.toNat ≤ v.toNat)
  | .symbolRate => decide (1 ≤ v.toNat) && decide (v.toNat ≤ c.sampleRate.toNat)
  | .timing => v.extractLsb' 5 27 == 0
  | .preamble => decide (1 ≤ (v.extractLsb' 0 16).toNat)
  | .syncCfg =>
    v.extractLsb' 21 11 == 0 && v.extractLsb' 6 2 == 0 && decide ((v.extractLsb' 0 6).toNat ≤ 32)
  | .msgCfg =>
    v.extractLsb' 4 4 == 0 && decide (1 ≤ (v.extractLsb' 16 16).toNat)
      && decide ((v.extractLsb' 16 16).toNat ≤ cfg.maxCap)
  | .id => false
  | .status => false
  | .phase => false
  | .acc => false
  | .shiftReg => false
  | .bitHist => false
  | .errHist => false
  | .msgAddr => false
  | .msgAccum => false
  | .prevIq => false
  | .count _ => false

/-- "Every field of the register takes its bits of V" (45 R252). -/
def csrSet (c : CsrFields) (v : Word) : Csr → CsrFields
  | .ctrl =>
    { c with
      bitTrace := v.getLsbD 3
      trEn := v.getLsbD 2
      invert := v.getLsbD 1
      demodMode := DemodMode.ofBit (v.getLsbD 0) }
  | .threshold => { c with threshold := v }
  | .sampleRate => { c with sampleRate := v }
  | .symbolRate => { c with symbolRate := v }
  | .timing => { c with gainShift := v.extractLsb' 0 5 }
  | .preamble => { c with preMinLen := v.extractLsb' 16 16, preStartRun := v.extractLsb' 0 16 }
  | .syncCfg =>
    { c with
      errLimit := v.extractLsb' 16 5
      syncMissLimit := v.extractLsb' 8 8
      softThreshold := v.extractLsb' 0 6 }
  | .msgCfg =>
    { c with
      cap := v.extractLsb' 16 16
      placeholder := v.extractLsb' 8 8
      kindMap := v.extractLsb' 0 4 }
  | .id => c
  | .status => c
  | .phase => c
  | .acc => c
  | .shiftReg => c
  | .bitHist => c
  | .errHist => c
  | .msgAddr => c
  | .msgAccum => c
  | .prevIq => c
  | .count _ => c

/-- The two rate registers, whose accepted writes restart the symbol (41 R148). -/
def Csr.isRate : Csr → Bool
  | .sampleRate => true
  | .symbolRate => true
  | .id => false
  | .ctrl => false
  | .threshold => false
  | .timing => false
  | .preamble => false
  | .syncCfg => false
  | .msgCfg => false
  | .status => false
  | .phase => false
  | .acc => false
  | .shiftReg => false
  | .bitHist => false
  | .errHist => false
  | .msgAddr => false
  | .msgAccum => false
  | .prevIq => false
  | .count _ => false

/-- `CsrWrite` of an accepted value and what goes with it (45 R252, 41 R148). -/
def csrWrite (s : State) (v : Word) (r : Csr) : State :=
  if r.isRate then (s.setCsr (csrSet s.csr v r)).setSync { s.sync with phase := 0, acc := 0 }
  else s.setCsr (csrSet s.csr v r)

/-- CSR_READ (45 R251). -/
def execCsrRead (a : Byte) (s : State) : Host.Outcome State Fault Refusal :=
  match csrAt a with
  | none => .next (raiseIllegal .csrUnmapped Opcode.csrRead.byte a s)
  | some r => .next (s.emit (resultCsr a (csrRead s r)))

/-- CSR_WRITE of any build (45 R252, 00 R5): read-only, unmapped, illegal, in that order (60 R273; the
first two are disjoint). -/
def csrWriteFor (cfg : Config) (a : Byte) (v : Word) (s : State) :
    Host.Outcome State Fault Refusal :=
  match csrAt a with
  | none => .next (raiseIllegal .csrUnmapped Opcode.csrWrite.byte a s)
  | some r =>
    if r.writable then
      if csrLegal cfg s.csr v r then .next (csrWrite s v r)
      else .next (raiseIllegal .csrIllegalValue Opcode.csrWrite.byte a s)
    else .next (raiseIllegal .csrReadOnly Opcode.csrWrite.byte a s)

/-- CSR_WRITE (45 R252). -/
def execCsrWrite (a : Byte) (v : Word) (s : State) : Host.Outcome State Fault Refusal :=
  csrWriteFor .build a v s

end Sys2Proof.Machine
end

