-- ==== Sys2Proof/Machine/Demod.lean ====
section
/-! DEFINITION. The demodulator function (40 R120 to R122, R126). -/

namespace Sys2Proof.Machine

/-- `c(r) = r - ADC_MID`, an exact integer (40 R120). -/
def centre (cfg : Config) (r : Byte) : Int :=
  (r.toNat : Int) - cfg.adcMid

/-- Mode MAG: `round(256 * sqrt(ci² + cq²))` as `(isqrt(262144 * n) + 1) >> 1` (40 R121). -/
def magnitude (ci cq : Int) : Int :=
  ((isqrt (262144 * (ci * ci + cq * cq).toNat) + 1) / 2 : Nat)

/-- Mode FM: the cross product of the previous and the current sample (40 R122). -/
def discriminator (pi pq ci cq : Int) : Int :=
  pi * cq - pq * ci

/-- The demod value of a mode (40 R121, R122). -/
def demodValue (mode : DemodMode) (pi pq ci cq : Int) : Int :=
  match mode with
  | .mag => magnitude ci cq
  | .fm => discriminator pi pq ci cq

/-- The entry of the source's 256 x 256 magnitude table at index `{Q, I}` (40 R126): a constant of the
design, not state. -/
def magTable (cfg : Config) (index : BitVec 16) : Int :=
  magnitude (centre cfg (index.extractLsb' 0 8)) (centre cfg (index.extractLsb' 8 8))

end Sys2Proof.Machine
end

