-- ==== Sys2Proof/Machine/Bch.lean ====
section
/-! DEFINITION. The BCH(31,21) codec with even parity (43 R190 to R197) and its two commands. -/

namespace Sys2Proof.Machine

/-- The division steps for `k + 9` down to 10 of 43 R191, `k` of them left. -/
def bchRemSteps : Nat → BitVec 31 → BitVec 31
  | 0, r => r
  | k + 1, r => bchRemSteps k (if r.getLsbD (k + 10) then r ^^^ (bchGen <<< k) else r)

/-- `BchRem(v)`: the remainder of v(x) divided by g(x) (43 R191). -/
def bchRem (v : BitVec 31) : BitVec 10 :=
  (bchRemSteps 21 v).extractLsb' 0 10

/-- `Syndrome(w)`: bit 10 the overall parity, bits 9:0 the remainder (43 R192). -/
def syndrome (w : Word) : BitVec 11 :=
  BitVec.ofBool (oddParity w) ++ bchRem (w.extractLsb' 1 31)

/-- `2^i`. -/
def oneBit (i : Nat) : Word :=
  1#32 <<< i

/-- `w` is a codeword with even parity (43 R192). -/
def isCodeword (w : Word) : Bool :=
  syndrome w == 0

/-- The numbers from `lo` up, `n` of them. -/
def countUp : Nat → Nat → List Nat
  | _, 0 => []
  | lo, n + 1 => lo :: countUp (lo + 1) n

/-- The single flips of 43 R193, lowest bit first. -/
def singleFlips : List Word :=
  (countUp 0 32).map oneBit

/-- The double flips of 43 R193, `i` from 0 up and `j` from `i + 1` up. -/
def doubleFlips : List Word :=
  (countUp 0 31).flatMap fun i => (countUp (i + 1) (31 - i)).map fun j => oneBit i ^^^ oneBit j

/-- The first flip of a list that makes `w` a codeword. -/
def firstFlip (w : Word) (flips : List Word) : Option Word :=
  flips.find? fun e => isCodeword (w ^^^ e)

/-- What `Correct` answers: `ok`, `c` and `nf` of 43 R193. -/
structure Correction where
  ok : Bool
  word : Word
  flips : BitVec 2
  deriving DecidableEq, Repr

/-- `Correct(w)`: no flip, then every single flip, then every pair (43 R193). -/
def correct (w : Word) : Correction :=
  if isCodeword w then ⟨true, w, 0⟩
  else match firstFlip w singleFlips with
    | some e => ⟨true, w ^^^ e, 1⟩
    | none =>
      match firstFlip w doubleFlips with
      | some e => ⟨true, w ^^^ e, 2⟩
      | none => ⟨false, w, 0⟩

/-- `Encode(m)`: the codeword with information bits `m` (43 R197). The block never encodes; rules and
test vectors are stated with it. -/
def bchEncode (m : BitVec 21) : Word :=
  let v : BitVec 31 := m ++ 0#10
  let c31 : BitVec 31 := v ^^^ (bchRem v).setWidth 31
  c31 ++ BitVec.ofBool (oddParity c31)

/-- BCH_SYNDROME (43 R195). -/
def execBchSyndrome (w : Word) (s : State) : Host.Outcome State Fault Refusal :=
  .next (s.emit (resultSyndrome (syndrome w)))

/-- BCH_CORRECT (43 R196): an uncorrectable word is a result, not an error. -/
def execBchCorrect (w : Word) (s : State) : Host.Outcome State Fault Refusal :=
  .next (s.emit (resultCorrect (!(correct w).ok) (correct w).flips (correct w).word))

end Sys2Proof.Machine
end

