-- ==== Sys2Proof/Machine/Framing.lean ====
section
/-! DEFINITION. The frame acquirer (42 R160 to R175) and the data word handler that CW_IN shares
(42 R168, 44 R230), with the commands BIT_IN and CW_IN. -/

namespace Sys2Proof.Machine

/-- `min(alt_run + 1, 65535)` (42 R161). -/
def extendRun (run : BitVec 16) : BitVec 16 :=
  if run = 65535 then run else run + 1

/-- `min(miss + 1, 255)` (42 R166). -/
def countMiss (miss : BitVec 8) : BitVec 8 :=
  if miss = 255 then miss else miss + 1

/-- The bit history after one bit, kept in every state: `alt_run`, `prev_bit`, `have_prev` and the
shift register, newest bit in bit 0 (42 R161). -/
def pushBit (f : Acquirer) (b : Bool) : Acquirer :=
  { f with
    altRun := if runExtends f b then extendRun f.altRun else 1
    prevBit := b
    havePrev := true
    sr := f.sr <<< 1 ||| BitVec.setWidth 32 (BitVec.ofBool b) }

/-- The framing fields cleared and the state set, the bit history kept (42 R164, R170). -/
def reframe (f : Acquirer) (st : FsmState) : Acquirer :=
  { f with state := st, bitcnt := 0, cwIndex := 0, miss := 0, errHist := 0 }

/-- `Acquire(d)` (42 R164). -/
def acquire (d : Nat) (s : State) : State :=
  ((s.setFsm (reframe s.fsm .synched)).inc .syncAcq 1).emit (.syncAcquired (BitVec.ofNat 6 d))

/-- `LoseSync(reason)` (42 R170): the open message finalized first. -/
def loseSync (cfg : Config) (reason : LossReason) (s : State) : Except Fault State :=
  match finalizeIfOpen cfg s with
  | .error f => .error f
  | .ok t =>
    .ok (((t.setFsm (reframe t.fsm .searchPreambleStart)).inc .syncLost 1).emit (.syncLost reason))

/-- The error window with one more word, 1 for an uncorrectable one, newest in bit 0 (42 R168, R169). -/
def pushErr (f : Acquirer) (bad : Bool) : Acquirer :=
  { f with errHist := f.errHist <<< 1 ||| BitVec.setWidth 16 (BitVec.ofBool bad) }

/-- An uncorrectable data word: counted, the open message marked (42 R168). -/
def markUncorrectable (s : State) : State :=
  if s.msg.isOpen then (s.inc .cwUncorr 1).setMsg { s.msg with err := true } else s.inc .cwUncorr 1

/-- The error window after an uncorrectable word in SYNCHED, and the loss it may cause (42 R168, R169). -/
def windowFailure (cfg : Config) (s : State) : Except Fault State :=
  if s.csr.errLimit.toNat < popcount (pushErr s.fsm true).errHist then
    loseSync cfg .errorRate (s.setFsm (pushErr s.fsm true))
  else .ok (s.setFsm (pushErr s.fsm true))

/-- The counter of a corrected data word (42 R168). -/
def correctedCounter (flips : BitVec 2) : Counter :=
  if flips = 0 then .cwClean else .cwFixed

/-- A corrected data word: counted, and when it came from SYNCHED entered in the error window
(42 R168). -/
def countCorrected (flips : BitVec 2) (fromFsm : Bool) (s : State) : State :=
  if fromFsm then (s.inc (correctedCounter flips) 1).setFsm (pushErr s.fsm false)
  else s.inc (correctedCounter flips) 1

/-- `DataWord(w, slot, f)` (42 R168). -/
def dataWord (cfg : Config) (w : Word) (slot : BitVec 4) (fromFsm : Bool) (s : State) :
    Except Fault State :=
  if (correct w).ok then
    parse cfg (correct w).word slot (countCorrected (correct w).flips fromFsm s)
  else if fromFsm then windowFailure cfg (markUncorrectable s)
  else .ok (markUncorrectable s)

/-- A sync word accepted at the expected position (42 R166, R167). -/
def acceptSync (flips : BitVec 2) (s : State) : State :=
  ((s.setFsm { s.fsm with miss := 0, cwIndex := 0 }).inc .batch 1).emit (.batchSync flips)

/-- An expected sync word missed (42 R166, R167). -/
def missSync (cfg : Config) (s : State) : Except Fault State :=
  if s.csr.syncMissLimit.toNat < (countMiss s.fsm.miss).toNat then
    loseSync cfg .syncMissed (s.setFsm { s.fsm with miss := countMiss s.fsm.miss })
  else
    .ok ((s.setFsm { s.fsm with miss := countMiss s.fsm.miss, cwIndex := 0 }).emit
      (.syncMiss (countMiss s.fsm.miss)))

/-- `SynchedWord(w)` (42 R166). -/
def synchedWord (cfg : Config) (w : Word) (s : State) : Except Fault State :=
  if s.fsm.cwIndex = cwPerBatch then
    if (correct w).ok ∧ (correct w).word = syncWord then .ok (acceptSync (correct w).flips s)
    else missSync cfg s
  else
    dataWord cfg w (BitVec.ofNat 4 s.fsm.cwIndex) true
      (s.setFsm { s.fsm with cwIndex := s.fsm.cwIndex + 1 })

/-- SEARCH_PREAMBLE_START after a bit (42 R162). -/
def stepPreambleStart (s : State) : State :=
  if s.csr.preStartRun.toNat ≤ s.fsm.altRun.toNat then
    s.setFsm { s.fsm with state := .searchPreambleEnd }
  else s

/-- SEARCH_PREAMBLE_END after a bit: `brk` and the length `altPrev` of the run before it (42 R163). -/
def stepPreambleEnd (brk : Bool) (altPrev : BitVec 16) (s : State) : State :=
  if brk then
    s.setFsm { s.fsm with
      state := if s.csr.preMinLen.toNat ≤ altPrev.toNat then .searchSync else .searchPreambleStart }
  else s

/-- The Hamming distance of the last 32 bits from the sync word (42 R164). -/
def syncDistance (sr : Word) : Nat :=
  popcount (sr ^^^ syncWord)

/-- SEARCH_SYNC after a bit (42 R164). -/
def stepSearchSync (s : State) : State :=
  if syncDistance s.fsm.sr ≤ s.csr.softThreshold.toNat then acquire (syncDistance s.fsm.sr) s else s

/-- SYNCHED after a bit (42 R165). -/
def stepSynched (cfg : Config) (s : State) : Except Fault State :=
  if s.fsm.bitcnt + 1 = cwBits then
    synchedWord cfg s.fsm.sr (s.setFsm { s.fsm with bitcnt := 0 })
  else .ok (s.setFsm { s.fsm with bitcnt := s.fsm.bitcnt + 1 })

/-- The part of `FsmBit` every state shares: the count and the bit history (42 R161). -/
def recordBit (b : Bool) (s : State) : State :=
  (s.inc .bits 1).setFsm (pushBit s.fsm b)

/-- `FsmBit(b)` (42 R161). -/
def fsmBit (cfg : Config) (b : Bool) (s : State) : Except Fault State :=
  match s.fsm.state with
  | .searchPreambleStart => .ok (stepPreambleStart (recordBit b s))
  | .searchPreambleEnd => .ok (stepPreambleEnd (runBreaks s.fsm b) s.fsm.altRun (recordBit b s))
  | .searchSync => .ok (stepSearchSync (recordBit b s))
  | .synched => stepSynched cfg (recordBit b s)

/-- BIT_IN of any build (42 R175, 00 R5): the bit as given, not inverted and not traced. -/
def bitInFor (cfg : Config) (b : Bool) (s : State) : Host.Outcome State Fault Refusal :=
  answer (fsmBit cfg b s)

/-- BIT_IN (42 R175). -/
def execBitIn (b : Bool) (s : State) : Host.Outcome State Fault Refusal :=
  bitInFor .build b s

/-- CW_IN of any build (44 R230, 00 R5): BCH and parser only, the frame acquirer neither read nor
written. -/
def cwInFor (cfg : Config) (w : Word) (slot : BitVec 4) (s : State) :
    Host.Outcome State Fault Refusal :=
  answer (dataWord cfg w slot false s)

/-- CW_IN (44 R230). -/
def execCwIn (w : Word) (slot : BitVec 4) (s : State) : Host.Outcome State Fault Refusal :=
  cwInFor .build w slot s

end Sys2Proof.Machine
end

