-- ==== Sys2Proof/Machine/Synchronizer.lean ====
section
/-! DEFINITION. The symbol synchronizer (41 R140 to R148) and the commands that feed it: MAG_IN, and
SAMPLE with the other two commands of the demodulator (40 R123 to R125). -/

namespace Sys2Proof.Machine

/-- `v = y - THRESHOLD`, exact (41 R141). -/
def sliceValue (c : CsrFields) (y : Int) : Int :=
  y - signed32 c.threshold

/-- The phase error: the signed distance from the nearest symbol boundary (41 R142). -/
def phaseError (sampleRate phase : Nat) : Int :=
  if 2 * phase < sampleRate then (phase : Int) else (phase : Int) - sampleRate

/-- The phase after a timing correction (41 R142). -/
def correctedPhase (sampleRate gainShift phase : Nat) : Nat :=
  (clamp ((phase : Int) - floorShr (phaseError sampleRate phase) gainShift) 0
    ((sampleRate : Int) - 1)).toNat

/-- The phase this input starts from: corrected at a zero crossing, else as it was (41 R142). -/
def startPhase (c : CsrFields) (x : SyncState) (v : Int) : Nat :=
  if zeroCrossing c x (sliceSign v) then
    correctedPhase c.sampleRate.toNat c.gainShift.toNat x.phase
  else x.phase

/-- The accumulated sum with this input, saturated (41 R143). -/
def accumulate (acc : Word) (v : Int) : Int :=
  sat32 (acc.toInt + v)

/-- `p`: the phase advanced by one input (41 R143). -/
def advancedPhase (c : CsrFields) (x : SyncState) (v : Int) : Nat :=
  startPhase c x v + c.symbolRate.toNat

/-- The synchronizer after an input that ends no symbol (41 R143). -/
def integrateOnly (c : CsrFields) (x : SyncState) (v : Int) : SyncState where
  phase := advancedPhase c x v
  acc := BitVec.ofInt 32 (accumulate x.acc v)
  prevS := sliceSign v
  havePrevS := true

/-- The synchronizer after an input that ends a symbol (41 R143). -/
def endSymbol (c : CsrFields) (x : SyncState) (v : Int) : SyncState where
  phase := advancedPhase c x v - c.sampleRate.toNat
  acc := 0
  prevS := sliceSign v
  havePrevS := true

/-- The BIT event, emitted while `BIT_TRACE` is 1 (41 R144). -/
def traceBit (acc : Int) (b : Bool) (s : State) : State :=
  if s.csr.bitTrace then s.emit (.bit (BitVec.ofNat 32 acc.natAbs) b) else s

/-- `SyncStep(y)` (41 R140). -/
def syncStep (cfg : Config) (y : Int) (s : State) : Except Fault State :=
  if s.csr.sampleRate.toNat ≤ advancedPhase s.csr s.sync (sliceValue s.csr y) then
    fsmBit cfg (hardBit (accumulate s.sync.acc (sliceValue s.csr y)) s.csr.invert)
      (traceBit (accumulate s.sync.acc (sliceValue s.csr y))
        (hardBit (accumulate s.sync.acc (sliceValue s.csr y)) s.csr.invert)
        (s.setSync (endSymbol s.csr s.sync (sliceValue s.csr y))))
  else .ok (s.setSync (integrateOnly s.csr s.sync (sliceValue s.csr y)))

/-- The demod value of a sample in the state's mode (40 R123). -/
def sampleValue (cfg : Config) (i q : Byte) (s : State) : Int :=
  demodValue s.csr.demodMode s.demod.pi s.demod.pq (centre cfg i) (centre cfg q)

/-- The state after a sample is kept and counted, before its synchronizer step (40 R123). -/
def keepSample (cfg : Config) (i q : Byte) (s : State) : State :=
  (s.setDemod ⟨centre cfg i, centre cfg q⟩).inc .samples 1

/-- SAMPLE of any build (40 R123, 00 R5). -/
def sampleFor (cfg : Config) (i q : Byte) (s : State) : Host.Outcome State Fault Refusal :=
  answer (syncStep cfg (sampleValue cfg i q s) (keepSample cfg i q s))

/-- SAMPLE (40 R123). -/
def execSample (i q : Byte) (s : State) : Host.Outcome State Fault Refusal :=
  sampleFor .build i q s

/-- SAMPLE_LOSS (40 R124). -/
def execSampleLoss (n : Word) (s : State) : Host.Outcome State Fault Refusal :=
  .next (s.inc .overrun n)

/-- MAG_IN of any build (41 R145, 00 R5). -/
def magInFor (cfg : Config) (y : Word) (s : State) : Host.Outcome State Fault Refusal :=
  answer (syncStep cfg (signed32 y) s)

/-- MAG_IN (41 R145). -/
def execMagIn (y : Word) (s : State) : Host.Outcome State Fault Refusal :=
  magInFor .build y s

/-- DEMOD_QUERY of any build (40 R125, 00 R5): neither `DEMOD_MODE` nor the kept sample is read. -/
def demodQueryFor (cfg : Config) (i q ip qp : Byte) (mode : DemodMode) (s : State) :
    Host.Outcome State Fault Refusal :=
  .next (s.emit (resultDemod (demodValue mode (centre cfg ip) (centre cfg qp) (centre cfg i)
    (centre cfg q))))

/-- DEMOD_QUERY (40 R125). -/
def execDemodQuery (i q ip qp : Byte) (mode : DemodMode) (s : State) :
    Host.Outcome State Fault Refusal :=
  demodQueryFor .build i q ip qp mode s

end Sys2Proof.Machine
end

