-- ==== Sys2Proof/Machine/Build.lean ====
section
/-! DEFINITION. The commands of a block built with any parameters: "a model takes them as arguments"
(00 R5). `Dispatch.lean` is the same table at the values 00 R5 gives (log entry 7). -/

namespace Sys2Proof.Machine

/-- A command performed by a block of the build `cfg` (00 R5, R7). A command that reads no parameter has
one meaning in every build. -/
def execFor (cfg : Config) (i : Instr) (s : State) : Host.Outcome State Fault Refusal :=
  match i with
  | .nop => execNop s
  | .sample ib qb => sampleFor cfg ib qb s
  | .sampleLoss n => execSampleLoss n s
  | .magIn y => magInFor cfg y s
  | .bitIn b => bitInFor cfg b s
  | .cwIn w slot => cwInFor cfg w slot s
  | .demodQuery ib qb ip qp mode => demodQueryFor cfg ib qb ip qp mode s
  | .bchSyndrome w => execBchSyndrome w s
  | .bchCorrect w => execBchCorrect w s
  | .csrRead a => execCsrRead a s
  | .csrWrite a v => csrWriteFor cfg a v s
  | .flush => flushFor cfg s
  | .reset => execReset s

end Sys2Proof.Machine
end

