-- ==== Sys2Proof/Machine/Dispatch.lean ====
section
/-! DEFINITION. One arm per command, each one call of its meaning. -/

namespace Sys2Proof.Machine

def exec (i : Instr) (s : State) : Host.Outcome State Fault Refusal :=
  match i with
  | .nop => Sys2Proof.Machine.execNop s
  | .sample ib qb => Sys2Proof.Machine.execSample ib qb s
  | .sampleLoss n => Sys2Proof.Machine.execSampleLoss n s
  | .magIn y => Sys2Proof.Machine.execMagIn y s
  | .bitIn b => Sys2Proof.Machine.execBitIn b s
  | .cwIn w slot => Sys2Proof.Machine.execCwIn w slot s
  | .demodQuery ib qb ip qp mode => Sys2Proof.Machine.execDemodQuery ib qb ip qp mode s
  | .bchSyndrome w => Sys2Proof.Machine.execBchSyndrome w s
  | .bchCorrect w => Sys2Proof.Machine.execBchCorrect w s
  | .csrRead a => Sys2Proof.Machine.execCsrRead a s
  | .csrWrite a v => Sys2Proof.Machine.execCsrWrite a v s
  | .flush => Sys2Proof.Machine.execFlush s
  | .reset => Sys2Proof.Machine.execReset s

end Sys2Proof.Machine
end

