-- ==== Sys2Proof/Machine/Perform.lean ====
section
/-! DEFINITION. Performing an accepted command word (30 R95) and the next thing the host does, over the
meaning of the commands: `exec`, or `execFor` of a build (00 R7). -/

namespace Sys2Proof.Machine

/-- What a command does in a state. -/
abbrev Meaning := Instr → State → Host.Outcome State Fault Refusal

/-- An accepted command word: performed, or refused with an ILLEGAL event (30 R95). -/
def performWith (meaning : Meaning) (w : CmdWord) (s : State) : Host.Outcome State Fault Refusal :=
  match decode w with
  | .command i => meaning i s
  | .rejected r => .next (refuseWord r w s)

/-- An accepted command word (30 R95). -/
def performWord (w : CmdWord) (s : State) : Host.Outcome State Fault Refusal :=
  performWith exec w s

/-- An accepted command word in a block of any build: `step : Config -> State -> Cmd -> ...` of 00 R7,
its events appended to the port. -/
def performWordFor (cfg : Config) (w : CmdWord) (s : State) : Host.Outcome State Fault Refusal :=
  performWith (execFor cfg) w s

/-- The next thing the host does (log entry 1). With nothing at the ports the block waits, its state
held (60 R284). -/
def serveInput (meaning : Meaning) (s : State) : Host.Outcome State Fault Refusal :=
  match s.nextInput with
  | none => .next s
  | some (.command w, t) => performWith meaning w t
  | some (.takeEvent, t) => .next (takeEvent t)
  | some (.hardReset, t) => .next (hardwareReset t)

end Sys2Proof.Machine
end

