-- ==== Sys2Proof/Machine/Step.lean ====
section
/-! DEFINITION. One step: the next thing the host does at the ports (log entry 1). A command word is
decoded and performed whole (00 R7, 30 R95). -/

namespace Sys2Proof.Machine

/-- One step of the block with the parameters 00 R5 gives. -/
def step (s : State) : Host.Outcome State Fault Refusal :=
  serveInput exec s

/-- One step of a block of any build (00 R5, R7). -/
def stepFor (cfg : Config) (s : State) : Host.Outcome State Fault Refusal :=
  serveInput (execFor cfg) s

/-- The state in which the host offers the table row's word next: one whole 64-bit word, the bits from
`nbits` up 0 (log entry 1). -/
def State.withFetchWord (s : State) (nbits w : Nat) : State :=
  s.offer (BitVec.ofNat 64 (w % 2 ^ nbits))

end Sys2Proof.Machine
end

