-- ==== Sys2Proof/Machine/Assembler.lean ====
section
/-! DEFINITION. The textual form of commands (30 R103) and the pseudo-commands (30 R104). What R103 does
not say of blanks, letter case and mixed forms is a DESIGN CHOICE (log entry 8). No step reads this. -/

namespace Sys2Proof.Machine

/-- The command of a textual command; "an assembler refuses a value outside its field's range"
(30 R103). -/
def assemble (a : Asm) : Option Instr :=
  if a.wellFormed then
    match a with
    | .nop => some .nop
    | .sample i q => some (.sample (BitVec.ofInt 8 i) (BitVec.ofInt 8 q))
    | .sampleLoss n => some (.sampleLoss (BitVec.ofInt 32 n))
    | .magIn y => some (.magIn (BitVec.ofInt 32 y))
    | .bitIn b => some (.bitIn (b == 1))
    | .cwIn w slot => some (.cwIn (BitVec.ofInt 32 w) (BitVec.ofInt 4 slot))
    | .demodQuery i q ip qp mode =>
      some (.demodQuery (BitVec.ofInt 8 i) (BitVec.ofInt 8 q) (BitVec.ofInt 8 ip)
        (BitVec.ofInt 8 qp) (DemodMode.ofBit (mode == 1)))
    | .bchSyndrome w => some (.bchSyndrome (BitVec.ofInt 32 w))
    | .bchCorrect w => some (.bchCorrect (BitVec.ofInt 32 w))
    | .csrRead x => some (.csrRead (BitVec.ofInt 8 x))
    | .csrWrite x v => some (.csrWrite (BitVec.ofInt 8 x) (BitVec.ofInt 32 v))
    | .flush => some .flush
    | .reset => some .reset
  else none

/-! ### Pseudo-commands (30 R104) -/

/-- `SAMPLES b0, b1, ...`: pairs in order, refused for an odd count. -/
def expandSamples : List Byte → Option (List Instr)
  | [] => some []
  | [_] => none
  | i :: q :: rest => (expandSamples rest).map (.sample i q :: ·)

/-- Bits `n - 1` down to 0 of a word, one BIT_IN each. -/
def expandBits (w : Word) : Nat → List Instr
  | 0 => []
  | n + 1 => .bitIn (w.getLsbD n) :: expandBits w n

/-- `BITS32 w`. -/
def expandBits32 (w : Word) : List Instr :=
  expandBits w 32

/-- `n` BIT_IN with alternating bits, the first `b`. -/
def expandAlternating : Bool → Nat → List Instr
  | _, 0 => []
  | b, n + 1 => .bitIn b :: expandAlternating (!b) n

/-- `PREAMBLE n`: 1, 0, 1, 0, ... -/
def expandPreamble (n : Nat) : List Instr :=
  expandAlternating true n

/-- `BATCH w0, ..., w15`: refused for another count of words. -/
def expandBatch (ws : List Word) : Option (List Instr) :=
  if ws.length = cwPerBatch then some (expandBits32 syncWord ++ ws.flatMap expandBits32) else none

/-- `IDLES k`. -/
def expandIdles (k : Nat) : List Instr :=
  (List.replicate k (expandBits32 idleWord)).flatten

/-- `STOP` is FLUSH. -/
def expandStop : List Instr :=
  [.flush]

/-! ### Text -/

/-- The pieces of a text between separators. -/
def splitText (sep : Char) : List Char → List (List Char)
  | [] => [[]]
  | c :: cs =>
    match splitText sep cs with
    | [] => [[c]]
    | p :: ps => if c = sep then [] :: p :: ps else (c :: p) :: ps

/-- A text without the blanks at its two ends. -/
def trimText (cs : List Char) : List Char :=
  (((cs.dropWhile (· == ' ')).reverse).dropWhile (· == ' ')).reverse

/-- The value of a digit in a base. -/
def digitValue (base : Nat) (c : Char) : Option Nat :=
  let n := c.toNat
  let v := if 48 ≤ n ∧ n ≤ 57 then n - 48
    else if 97 ≤ n ∧ n ≤ 102 then n - 87
    else if 65 ≤ n ∧ n ≤ 70 then n - 55
    else base
  if v < base then some v else none

/-- The value of digits after those read so far. -/
def readDigits (base : Nat) : Nat → List Char → Option Nat
  | acc, [] => some acc
  | acc, c :: cs =>
    match digitValue base c with
    | none => none
    | some d => readDigits base (acc * base + d) cs

/-- "Numbers may be decimal, `0x` hexadecimal or `0b` binary" (30 R103). -/
def readNatural : List Char → Option Nat
  | [] => none
  | '0' :: 'x' :: d :: ds => readDigits 16 0 (d :: ds)
  | '0' :: 'b' :: d :: ds => readDigits 2 0 (d :: ds)
  | d :: ds => readDigits 10 0 (d :: ds)

/-- A number with an optional minus sign. -/
def readNumber : List Char → Option Int
  | '-' :: ds => (readNatural ds).map fun n => -(n : Int)
  | ds => (readNatural ds).map fun n => (n : Int)

/-- The register names of 10 R21. -/
def registerNames : List (String × Int) :=
  [("ID", 0x00), ("CTRL", 0x01), ("THRESHOLD", 0x02), ("SAMPLE_RATE", 0x03), ("SYMBOL_RATE", 0x04),
    ("TIMING", 0x05), ("PREAMBLE", 0x06), ("SYNC_CFG", 0x07), ("MSG_CFG", 0x08), ("STATUS", 0x10),
    ("PHASE", 0x11), ("ACC", 0x12), ("SHIFTREG", 0x13), ("BITHIST", 0x14), ("ERR_HIST", 0x15),
    ("MSG_ADDR", 0x16), ("MSG_ACCUM", 0x17), ("PREV_IQ", 0x18), ("CNT_SAMPLES", 0x20),
    ("CNT_BITS", 0x21), ("CNT_CW_CLEAN", 0x22), ("CNT_CW_FIXED", 0x23), ("CNT_CW_UNCORR", 0x24),
    ("CNT_SYNC_ACQ", 0x25), ("CNT_SYNC_LOST", 0x26), ("CNT_BATCH", 0x27), ("CNT_MSG", 0x28),
    ("CNT_TRUNC", 0x29), ("CNT_ILLEGAL", 0x2A), ("CNT_OVERRUN", 0x2B)]

/-- The mode names of 30 R103. -/
def modeNames : List (String × Int) :=
  [("MAG", 0), ("FM", 1)]

/-- The value of a field's text: a number, or a name where 30 R103 gives the field names. -/
def readField (field : String) (cs : List Char) : Option Int :=
  match readNumber cs with
  | some v => some v
  | none =>
    if field = "a" then registerNames.lookup (String.ofList cs)
    else if field = "mode" then modeNames.lookup (String.ofList cs)
    else none

/-- The field names of a mnemonic in the order of 30 R103. -/
def fieldNames : List (String × List String) :=
  [("NOP", []), ("SAMPLE", ["i", "q"]), ("SAMPLE_LOSS", ["n"]), ("MAG_IN", ["y"]), ("BIT_IN", ["b"]),
    ("CW_IN", ["w", "slot"]), ("DEMOD_QUERY", ["i", "q", "ip", "qp", "mode"]),
    ("BCH_SYNDROME", ["w"]), ("BCH_CORRECT", ["w"]), ("CSR_READ", ["a"]), ("CSR_WRITE", ["a", "v"]),
    ("FLUSH", []), ("RESET", [])]

/-- A list of answers as an answer. -/
def allSome {α : Type} : List (Option α) → Option (List α)
  | [] => some []
  | none :: _ => none
  | some x :: xs => (allSome xs).map (x :: ·)

/-- A field given as `name=value`. -/
def namedField (part : List Char) : Option (String × List Char) :=
  match splitText '=' part with
  | [n, v] => some (String.ofList (trimText n), trimText v)
  | _ => none

/-- The fields' values: all by position, or all by name in any order (30 R103). -/
def readFields (names : List String) (parts : List (List Char)) : Option (List Int) :=
  if parts.length = names.length then
    match allSome (parts.map namedField) with
    | some pairs => allSome (names.map fun n => (pairs.lookup n).bind (readField n))
    | none => allSome ((names.zip parts).map fun p => readField p.1 (trimText p.2))
  else none

/-- The textual command of a mnemonic and its fields' values (30 R103). -/
def toAsm (mnemonic : String) (vs : List Int) : Option Asm :=
  match vs with
  | [] =>
    if mnemonic = "NOP" then some .nop
    else if mnemonic = "FLUSH" then some .flush
    else if mnemonic = "RESET" then some .reset
    else none
  | [a] =>
    if mnemonic = "SAMPLE_LOSS" then some (.sampleLoss a)
    else if mnemonic = "MAG_IN" then some (.magIn a)
    else if mnemonic = "BIT_IN" then some (.bitIn a)
    else if mnemonic = "BCH_SYNDROME" then some (.bchSyndrome a)
    else if mnemonic = "BCH_CORRECT" then some (.bchCorrect a)
    else if mnemonic = "CSR_READ" then some (.csrRead a)
    else none
  | [a, b] =>
    if mnemonic = "SAMPLE" then some (.sample a b)
    else if mnemonic = "CW_IN" then some (.cwIn a b)
    else if mnemonic = "CSR_WRITE" then some (.csrWrite a b)
    else none
  | [a, b, c, d, e] => if mnemonic = "DEMOD_QUERY" then some (.demodQuery a b c d e) else none
  | _ => none

/-- The commands of a pseudo-command and its values (30 R104). -/
def expandPseudo (mnemonic : String) (vs : List Int) : Option (List Instr) :=
  if mnemonic = "SAMPLES" then
    if vs.all (fitsUnsigned 8) then expandSamples (vs.map (BitVec.ofInt 8)) else none
  else if mnemonic = "BATCH" then
    if vs.all (fitsUnsigned 32) then expandBatch (vs.map (BitVec.ofInt 32)) else none
  else
    match vs with
    | [] => if mnemonic = "STOP" then some expandStop else none
    | [v] =>
      if v < 0 then none
      else if mnemonic = "BITS32" then
        if fitsUnsigned 32 v then some (expandBits32 (BitVec.ofInt 32 v)) else none
      else if mnemonic = "PREAMBLE" then some (expandPreamble v.toNat)
      else if mnemonic = "IDLES" then some (expandIdles v.toNat)
      else none
    | _ => none

/-- The comma-separated parts of a text, none for a blank one. -/
def commaParts (cs : List Char) : List (List Char) :=
  if trimText cs = [] then [] else splitText ',' cs

/-- The commands of one line of text, none when an assembler refuses it (30 R103, R104). -/
def assembleLine (line : String) : Option (List Instr) :=
  let text := trimText line.toList
  let mnemonic := String.ofList (text.takeWhile (· != ' '))
  let parts := commaParts (text.dropWhile (· != ' '))
  match fieldNames.lookup mnemonic with
  | some names =>
    (((readFields names parts).bind (toAsm mnemonic)).bind assemble).map ([·])
  | none => (allSome (parts.map fun p => readNumber (trimText p))).bind (expandPseudo mnemonic)

end Sys2Proof.Machine
end

