-- ==== Sys2Proof/Safety.lean ====
section
/-! DEFINITION. What the spec says holds after every command (10 R51), with the ranges of 10 R42 to R47,
the legality of the configuration (45 R255) and the canonical form of the buffer; and the terms the
statements use. -/

namespace Sys2Proof.Machine

/-- The configuration is one that reset or accepted writes give (45 R255). -/
abbrev ConfigLegal (cfg : Config) (c : CsrFields) : Prop :=
  1 ≤ c.symbolRate.toNat ∧ c.symbolRate.toNat ≤ c.sampleRate.toNat ∧ 1 ≤ c.preStartRun.toNat ∧
    c.softThreshold.toNat ≤ 32 ∧ 1 ≤ c.cap.toNat ∧ c.cap.toNat ≤ cfg.maxCap

/-- The kept sample is a centred one (10 R42). -/
abbrev SampleCentred (cfg : Config) (d : DemodState) : Prop :=
  -(cfg.adcMid : Int) ≤ d.pi ∧ d.pi ≤ 255 - cfg.adcMid ∧
    -(cfg.adcMid : Int) ≤ d.pq ∧ d.pq ≤ 255 - cfg.adcMid

/-- The symbol clock is inside one symbol (10 R43, R51). -/
abbrev PhaseInSymbol (c : CsrFields) (x : SyncState) : Prop :=
  x.phase < c.sampleRate.toNat

/-- The position in the batch is in range, and 0 outside SYNCHED (10 R45, R51). -/
abbrev FramingInRange (f : Acquirer) : Prop :=
  f.bitcnt ≤ 31 ∧ f.cwIndex ≤ 16 ∧ (f.state ≠ .synched → f.bitcnt = 0 ∧ f.cwIndex = 0)

/-- The alternating run counts the newest bit (10 R51). -/
abbrev RunCounted (f : Acquirer) : Prop :=
  f.havePrev = true → 1 ≤ f.altRun.toNat

/-- The message register is in range, and closed means empty (10 R46, R51). -/
abbrev MessageInRange (cfg : Config) (m : MsgReg) : Prop :=
  m.nb < m.kind.width ∧ m.bits.toNat < 2 ^ m.nb ∧ m.nc ≤ cfg.maxCap ∧
    (m.isOpen = false → m = .closed)

/-- The buffer is canonical and lists no index outside itself (20 R70). -/
abbrev BufferInRange (cfg : Config) (m : Memory) : Prop :=
  m.wf = true ∧ ∀ c ∈ m, c.1 < cfg.maxCap

/-- The invariant of 10 R51, with what makes it inductive. -/
abbrev State.Inv (cfg : Config) (s : State) : Prop :=
  ConfigLegal cfg s.csr ∧ SampleCentred cfg s.demod ∧ PhaseInSymbol s.csr s.sync ∧
    FramingInRange s.fsm ∧ RunCounted s.fsm ∧ MessageInRange cfg s.msg ∧ BufferInRange cfg s.buf

/-- No access to the buffer can fall outside it: what the commands that reach the parser need
(20 R70). -/
abbrev State.BufferSafe (cfg : Config) (s : State) : Prop :=
  s.msg.nc ≤ cfg.maxCap ∧ s.csr.cap.toNat ≤ cfg.maxCap

/-- A step that neither faults nor refuses. -/
def Safe (o : Host.Outcome State Fault Refusal) : Prop :=
  ∃ t, o = .next t

/-- Commands performed one after another, each in the state the one before it left (20 R79). -/
def execAll : List Instr → State → Host.Outcome State Fault Refusal
  | [], s => .next s
  | i :: is, s =>
    match exec i s with
    | .next t => execAll is t
    | .fault f => .fault f
    | .refused r => .refused r

/-- Two states that differ at most in bytes of the buffer no rule reads: those at `msg.nc` and above
(10 R47). -/
abbrev SameButUnread (s t : State) : Prop :=
  s.csr = t.csr ∧ s.demod = t.demod ∧ s.sync = t.sync ∧ s.fsm = t.fsm ∧ s.msg = t.msg ∧
    s.cnt = t.cnt ∧ s.evts = t.evts ∧ s.inputs = t.inputs ∧
    ∀ k, k < s.msg.nc → s.buf.read k = t.buf.read k

/-! ### The rules' own arithmetic, for the statements -/

/-- An event word by the numbers of 30 R100: `TYPE * 2^56 + payload`. -/
def eventWord (type payload : Nat) : EvtWord :=
  BitVec.ofNat 64 (type * 2 ^ 56 + payload)

/-- `round(256 * sqrt(n))` as 40 R121 computes it, with the library's square root. -/
def magnitudeOf (ci cq : Int) : Int :=
  (((262144 * (ci * ci + cq * cq)).toNat.sqrt + 1) / 2 : Nat)

/-- The state after a command refused with a cause (60 R271): the count, the ILLEGAL event, nothing
else. -/
def refusedWith (cause op addr : Nat) (s : State) : State :=
  { s with
    cnt := { s.cnt with illegal := s.cnt.illegal + 1 }
    evts := s.evts ++ [eventWord 0x3F (addr * 2 ^ 16 + op * 2 ^ 8 + cause)] }

/-- The event words of a message (44 R224). -/
def messageWords (m : MsgReg) (buf : Memory) : List EvtWord :=
  [eventWord 0x01 (m.nc * 2 ^ 26 + m.err.toNat * 2 ^ 25 + m.trunc.toNat * 2 ^ 24
      + m.kind.bit.toNat * 2 ^ 23 + m.func.toNat * 2 ^ 21 + m.capcode.toNat)]
    ++ (List.range m.nc).map (fun k => eventWord 0x02 (k * 2 ^ 8 + (buf.read k).toNat))
    ++ [eventWord 0x03 m.nc]

/-- The state after `if msg.open = 1: Finalize()` (44 R224): the message's events, its counts, and every
field of the message register 0. -/
def handedOut (s : State) : State :=
  if s.msg.isOpen then
    { s with
      evts := s.evts ++ messageWords s.msg s.buf
      cnt := { s.cnt with
        msg := s.cnt.msg + 1
        trunc := if s.msg.trunc then s.cnt.trunc + 1 else s.cnt.trunc }
      msg := ⟨false, 0, 0, .numeric, false, false, 0, 0, 0⟩ }
  else s

/-- The state after `LoseSync(reason)` (42 R170): the bit history kept. -/
def syncLostWith (reason : Nat) (s : State) : State :=
  { handedOut s with
    fsm := { s.fsm with
      state := .searchPreambleStart, bitcnt := 0, cwIndex := 0, miss := 0, errHist := 0 }
    cnt := { (handedOut s).cnt with syncLost := (handedOut s).cnt.syncLost + 1 }
    evts := (handedOut s).evts ++ [eventWord 0x23 reason] }

/-- The frame acquirer's bit history after one bit (42 R161): every other field as before. -/
def historyAfter (f : Acquirer) (b : Bool) : Acquirer :=
  { f with
    sr := BitVec.ofNat 32 (f.sr.toNat * 2 + b.toNat)
    altRun := if f.havePrev = true ∧ b ≠ f.prevBit then
        BitVec.ofNat 16 (min (f.altRun.toNat + 1) 65535)
      else 1
    prevBit := b
    havePrev := true }

/-- The state with one more bit counted and the frame acquirer as given (42 R161). -/
def bitTaken (f : Acquirer) (s : State) : State :=
  { s with fsm := f, cnt := { s.cnt with bits := s.cnt.bits + 1 } }

/-- The number of set bits of a word. -/
def weight (w : Word) : Nat :=
  ((List.range 32).filter fun k => w.getLsbD k).length

/-- The state with one corrected data word counted (42 R168). -/
def correctedCounted (flips : BitVec 2) (s : State) : State :=
  { s with
    cnt := if flips = 0 then { s.cnt with cwClean := s.cnt.cwClean + 1 }
      else { s.cnt with cwFixed := s.cnt.cwFixed + 1 } }

/-- The payload of a message codeword as a number, the first bit sent (`c[30]`) lowest (44 R219). -/
def payloadValue (c : Word) : Nat :=
  ((List.range 20).map fun p => (c.getLsbD (30 - p)).toNat * 2 ^ p).sum

/-- The bits a message word finds waiting and brings, as one number, the oldest lowest (44 R219). -/
def streamValue (m : MsgReg) (c : Word) : Nat :=
  m.bits.toNat + payloadValue c * 2 ^ m.nb

/-- How many units a message word completes (44 R219). -/
def unitsCompleted (m : MsgReg) : Nat :=
  (m.nb + 20) / m.kind.width

/-- Unit `j` of a stream of bits (44 R219). -/
def unitOf (width stream j : Nat) : Nat :=
  stream / 2 ^ (width * j) % 2 ^ width

/-- The character of a unit (44 R221, R222). -/
def characterOf (kind : Kind) (placeholder : Byte) (u : Nat) : Byte :=
  match kind with
  | .alphanumeric => BitVec.ofNat 8 u
  | .numeric =>
    ([0x30, 0x31, 0x32, 0x33, 0x34, 0x35, 0x36, 0x37, 0x38, 0x39, placeholder, 0x55, 0x20, 0x2D,
      0x5D, 0x5B] : List Byte).getD u 0

/-- The phase an input starts its advance from (41 R142). -/
def phaseBefore (c : CsrFields) (x : SyncState) (v : Int) : Nat :=
  let e : Int := if 2 * x.phase < c.sampleRate.toNat then (x.phase : Int)
    else (x.phase : Int) - c.sampleRate.toNat
  if c.trEn = true ∧ x.havePrevS = true ∧ decide (0 ≤ v) ≠ x.prevS then
    (min (max ((x.phase : Int) - e / 2 ^ c.gainShift.toNat) 0) ((c.sampleRate.toNat : Int) - 1)).toNat
  else x.phase

/-- The accumulated sum with an input, saturated to 32 signed bits (41 R143). -/
def sumAfter (acc : Word) (v : Int) : Int :=
  min (max (acc.toInt + v) (-(2 ^ 31))) (2 ^ 31 - 1)

/-- Every mapped CSR address with the value its rule reads, by numbers (10 R22 to R40). -/
def registerValues (s : State) : List (Nat × Nat) :=
  [(0x00, 0x47534350),
    (0x01, s.csr.bitTrace.toNat * 8 + s.csr.trEn.toNat * 4 + s.csr.invert.toNat * 2
      + s.csr.demodMode.bit.toNat),
    (0x02, s.csr.threshold.toNat),
    (0x03, s.csr.sampleRate.toNat),
    (0x04, s.csr.symbolRate.toNat),
    (0x05, s.csr.gainShift.toNat),
    (0x06, s.csr.preMinLen.toNat * 2 ^ 16 + s.csr.preStartRun.toNat),
    (0x07, s.csr.errLimit.toNat * 2 ^ 16 + s.csr.syncMissLimit.toNat * 2 ^ 8
      + s.csr.softThreshold.toNat),
    (0x08, s.csr.cap.toNat * 2 ^ 16 + s.csr.placeholder.toNat * 2 ^ 8 + s.csr.kindMap.toNat),
    (0x10, s.fsm.miss.toNat * 2 ^ 14 + s.fsm.bitcnt * 2 ^ 9 + s.fsm.cwIndex * 2 ^ 4
      + s.msg.kind.bit.toNat * 8 + s.msg.isOpen.toNat * 4 + s.fsm.state.code.toNat),
    (0x11, s.sync.phase),
    (0x12, s.sync.acc.toNat),
    (0x13, s.fsm.sr.toNat),
    (0x14, s.sync.havePrevS.toNat * 2 ^ 19 + s.sync.prevS.toNat * 2 ^ 18
      + s.fsm.havePrev.toNat * 2 ^ 17 + s.fsm.prevBit.toNat * 2 ^ 16 + s.fsm.altRun.toNat),
    (0x15, s.fsm.errHist.toNat),
    (0x16, s.msg.err.toNat * 2 ^ 24 + s.msg.trunc.toNat * 2 ^ 23 + s.msg.func.toNat * 2 ^ 21
      + s.msg.capcode.toNat),
    (0x17, s.msg.nc * 2 ^ 16 + s.msg.nb * 2 ^ 8 + s.msg.bits.toNat),
    (0x18, (s.demod.pq % 2 ^ 16).toNat * 2 ^ 16 + (s.demod.pi % 2 ^ 16).toNat),
    (0x20, s.cnt.samples.toNat), (0x21, s.cnt.bits.toNat), (0x22, s.cnt.cwClean.toNat),
    (0x23, s.cnt.cwFixed.toNat), (0x24, s.cnt.cwUncorr.toNat), (0x25, s.cnt.syncAcq.toNat),
    (0x26, s.cnt.syncLost.toNat), (0x27, s.cnt.batch.toNat), (0x28, s.cnt.msg.toNat),
    (0x29, s.cnt.trunc.toNat), (0x2A, s.cnt.illegal.toNat), (0x2B, s.cnt.overrun.toNat)]

/-- The addresses of the read-only registers (10 R21). -/
def readOnlyAddresses : List Nat :=
  [0x00, 0x10, 0x11, 0x12, 0x13, 0x14, 0x15, 0x16, 0x17, 0x18, 0x20, 0x21, 0x22, 0x23, 0x24, 0x25,
    0x26, 0x27, 0x28, 0x29, 0x2A, 0x2B]

/-- The addresses of the read-write registers (10 R21). -/
def readWriteAddresses : List Nat :=
  [0x01, 0x02, 0x03, 0x04, 0x05, 0x06, 0x07, 0x08]

/-- The type byte of an event word (30 R100). -/
def typeOf (e : EvtWord) : Nat :=
  e.toNat / 2 ^ 56

/-- How many of some event words have a type. -/
def countType (n : Nat) (es : List EvtWord) : Word :=
  BitVec.ofNat 32 (es.filter fun e => typeOf e == n).length

/-- The opcodes of 30 R92 with the operand masks of 30 R93. -/
def opcodeMasks : List (Nat × Nat) :=
  [(0x00, 0x00000000000000), (0x01, 0x0000000000FFFF), (0x02, 0x000000FFFFFFFF),
    (0x10, 0x000000FFFFFFFF), (0x11, 0x00000000000001), (0x12, 0x00000FFFFFFFFF),
    (0x20, 0x000001FFFFFFFF), (0x21, 0x000000FFFFFFFF), (0x22, 0x000000FFFFFFFF),
    (0x30, 0x0000FF00000000), (0x31, 0x0000FFFFFFFFFF), (0x40, 0x00000000000000),
    (0x7F, 0x00000000000000)]

end Sys2Proof.Machine
end

