-- ==== Sys2Proof/Certificates/Slice0/Obligations.lean ====
section
/-! DEFINITION. What is claimed of the model, from the numbered rules of the spec. Numbers, not the
model's own helpers, stand on the right of each equation wherever the rule gives numbers. Where a
claim needs only that the buffer is not overrun it says `s.msg.nc ≤ 256` or `BufferSafe`, which the
invariant gives. -/

open Sys2Proof Sys2Proof.Machine

/-! ### Command words (30 R92 to R105) -/

/-- Decoding the word of any command gives that command back, as a word and as a table row (30 R92,
R93, R95). -/
def Obligations.DecodeOfEncode : Prop :=
  ∀ i : Instr, i.wellFormed = true →
    decode (encode i) = .command i ∧ decodeTableWord 64 (encode i).toNat = some i

/-- A word that decodes to a command is that command's own word: no second encoding exists (30 R96,
R97). -/
def Obligations.EncodeOfDecode : Prop :=
  ∀ (w : CmdWord) (i : Instr), decode w = .command i → encode i = w

/-- Every command's word by the numbers of the opcode and field tables (30 R92, R93). -/
def Obligations.EncodedNumbers : Prop :=
  (encode .nop).toNat = 0x00 * 2 ^ 56 ∧
  (∀ i q, (encode (.sample i q)).toNat = 0x01 * 2 ^ 56 + q.toNat * 2 ^ 8 + i.toNat) ∧
  (∀ n, (encode (.sampleLoss n)).toNat = 0x02 * 2 ^ 56 + n.toNat) ∧
  (∀ y, (encode (.magIn y)).toNat = 0x10 * 2 ^ 56 + (y.toInt % 2 ^ 32).toNat) ∧
  (∀ b, (encode (.bitIn b)).toNat = 0x11 * 2 ^ 56 + b.toNat) ∧
  (∀ w slot, (encode (.cwIn w slot)).toNat = 0x12 * 2 ^ 56 + slot.toNat * 2 ^ 32 + w.toNat) ∧
  (∀ i q ip qp mode, (encode (.demodQuery i q ip qp mode)).toNat =
    0x20 * 2 ^ 56 + mode.bit.toNat * 2 ^ 32 + qp.toNat * 2 ^ 24 + ip.toNat * 2 ^ 16
      + q.toNat * 2 ^ 8 + i.toNat) ∧
  (∀ w, (encode (.bchSyndrome w)).toNat = 0x21 * 2 ^ 56 + w.toNat) ∧
  (∀ w, (encode (.bchCorrect w)).toNat = 0x22 * 2 ^ 56 + w.toNat) ∧
  (∀ a, (encode (.csrRead a)).toNat = 0x30 * 2 ^ 56 + a.toNat * 2 ^ 32) ∧
  (∀ a v, (encode (.csrWrite a v)).toNat = 0x31 * 2 ^ 56 + a.toNat * 2 ^ 32 + v.toNat) ∧
  (encode .flush).toNat = 0x40 * 2 ^ 56 ∧
  (encode .reset).toNat = 0x7F * 2 ^ 56

/-- Every offered word is refused with cause 1 (no such opcode), refused with cause 2 (a known opcode
with a bit set outside its mask), or performed as one command (30 R95, R96). -/
def Obligations.RefusedWords : Prop :=
  ∀ (w : CmdWord) (s : State),
    ((∀ p ∈ opcodeMasks, p.1 ≠ w.toNat / 2 ^ 56) →
      step (s.offer w) = .next (refusedWith 1 (w.toNat / 2 ^ 56) 0 s)) ∧
    (∀ p ∈ opcodeMasks, p.1 = w.toNat / 2 ^ 56 →
      (w.toNat % 2 ^ 56 &&& p.2 ≠ w.toNat % 2 ^ 56 →
        step (s.offer w) = .next (refusedWith 2 (w.toNat / 2 ^ 56) 0 s)) ∧
      (w.toNat % 2 ^ 56 &&& p.2 = w.toNat % 2 ^ 56 →
        ∃ i, encode i = w ∧ decode w = .command i ∧ step (s.offer w) = exec i s))

/-- The worked encodings, which the spec infers (30 R105): the text's command, the command's word, and
what the word decodes to. -/
def Obligations.WorkedEncodings : Prop :=
  ∀ p ∈ ([("NOP", .nop, 0x0000000000000000), ("SAMPLE 147, 127", .sample 147 127, 0x0100000000007F93),
      ("MAG_IN -1", .magIn (-1), 0x10000000FFFFFFFF), ("BIT_IN 1", .bitIn true, 0x1100000000000001),
      ("CW_IN 0x4B5A1A25, 14", .cwIn 0x4B5A1A25 14, 0x1200000E4B5A1A25),
      ("DEMOD_QUERY 127, 227, 227, 127, FM", .demodQuery 127 227 227 127 .fm, 0x200000017FE3E37F),
      ("BCH_CORRECT 0x7CD215D9", .bchCorrect 0x7CD215D9, 0x220000007CD215D9),
      ("CSR_READ STATUS", .csrRead 0x10, 0x3000001000000000),
      ("CSR_WRITE THRESHOLD, 2560", .csrWrite 0x02 2560, 0x3100000200000A00),
      ("FLUSH", .flush, 0x4000000000000000), ("RESET", .reset, 0x7F00000000000000)] :
        List (String × Instr × CmdWord)),
    assembleLine p.1 = some [p.2.1] ∧ encode p.2.1 = p.2.2 ∧ decode p.2.2 = .command p.2.1

/-! ### A step (00 R7, 30 R91, 60 R284, 70 R290) -/

/-- An offered word that decodes to a command is taken from the port and the command performed: the
step is `exec` of it, with nothing added (00 R7, 30 R91, R95; log entry 1). -/
def Obligations.StepPerformsCommand : Prop :=
  ∀ (s : State) (w : CmdWord) (rest : List Input) (i : Instr),
    s.inputs = .command w :: rest → decode w = .command i → i.wellFormed = true →
      step s = exec i { s with inputs := rest }

/-- The other things the host does at the ports, by the model's own list of them (log entries 1, 3 and
4): with nothing offered the state is held (60 R284), a taken event is the oldest (30 R91), and `rst`
discards the waiting events (70 R290). -/
def Obligations.PortInputs : Prop :=
  ∀ (s : State) (rest : List Input),
    (s.inputs = [] → step s = .next s) ∧
    (∀ e es, s.evts = e :: es → s.inputs = .takeEvent :: rest →
      step s = .next { s with evts := es, inputs := rest }) ∧
    (s.inputs = .hardReset :: rest → ∃ t, step s = .next t ∧ t.evts = [] ∧ t.inputs = rest)

/-- Both columns of the reset table, for every state: hardware reset, and the RESET command with the
configuration, the buffer and the waiting events kept (10 R50, 45 R254, 70 R291). That RESET keeps the
configuration, where 70 R292 says otherwise of three of its fields, is log entry 11. The buffer after
hardware reset is left out: the spec does not say it. -/
def Obligations.ResetValues : Prop :=
  ∀ (s : State) (rest : List Input),
    (s.inputs = .hardReset :: rest →
      ∃ t, step s = .next t ∧
        t.csr = ⟨false, true, false, .mag, 0, 2000000, 1200, 4, 64, 32, 8, 0, 2, 256, 0x3F, 0b1000⟩ ∧
        t.demod = ⟨0, 0⟩ ∧ t.sync = ⟨0, 0, false, false⟩ ∧
        t.fsm = ⟨.searchPreambleStart, 0, 0, false, false, 0, 0, 0, 0⟩ ∧
        t.msg = ⟨false, 0, 0, .numeric, false, false, 0, 0, 0⟩ ∧
        t.cnt = ⟨0, 0, 0, 0, 0, 0, 0, 0, 0, 0, 0, 0⟩) ∧
    exec .reset s = .next
      { s with
        demod := ⟨0, 0⟩
        sync := ⟨0, 0, false, false⟩
        fsm := ⟨.searchPreambleStart, 0, 0, false, false, 0, 0, 0, 0⟩
        msg := ⟨false, 0, 0, .numeric, false, false, 0, 0, 0⟩
        cnt := ⟨0, 0, 0, 0, 0, 0, 0, 0, 0, 0, 0, 0⟩ }

/-! ### The machine as a whole -/

/-- The state after hardware reset meets the invariant, which the spec infers (10 R51); the canonical
buffer in it is the model's own (log entry 5). -/
def Obligations.InvAtReset : Prop :=
  State.reset.Inv .build

/-- Every step, whatever the host does, keeps the invariants that the spec infers ("Invariants that
hold after every command", 10 R51), with the legal configuration and, the model's own (log entry 5), the
canonical buffer. -/
def Obligations.InvKeptByStep : Prop :=
  ∀ s t : State, s.Inv .build → step s = .next t → t.Inv .build

/-- A state that meets the invariant always steps: the model's own fault, an access outside the buffer
(log entry 6), cannot happen, as the spec infers ("no write falls outside the buffer", 20 R70). -/
def Obligations.NeverStops : Prop :=
  ∀ s : State, s.Inv .build → Safe (step s)

/-- Only CSR_WRITE changes the configuration: the other commands' rules do not name it among the state
they write, and RESET keeps it by log entry 11 (10 R21, R49, 45 R252, R254). No command changes what the
host does next, which is the model's own list (log entry 1). -/
def Obligations.ConfigurationKept : Prop :=
  ∀ (i : Instr) (s t : State), exec i s = .next t →
    t.inputs = s.inputs ∧ ((∀ a v, i ≠ .csrWrite a v) → t.csr = s.csr)

/-- The frame acquirer's state moves only on a bit or by RESET, only along the transitions the spec
infers (42 R160), and acquisitions and losses are counted exactly (42 R164, R170). -/
def Obligations.FrameAcquirerMoves : Prop :=
  ∀ (i : Instr) (s t : State), exec i s = .next t →
    ((i = .reset → t.fsm.state = .searchPreambleStart) ∧
    ((∀ a b, i ≠ .sample a b) → (∀ y, i ≠ .magIn y) → (∀ b, i ≠ .bitIn b) → i ≠ .reset →
      t.fsm = s.fsm) ∧
    (i ≠ .reset →
      (t.fsm.state = s.fsm.state ∨
        (s.fsm.state, t.fsm.state) ∈
          [(FsmState.searchPreambleStart, FsmState.searchPreambleEnd),
            (.searchPreambleEnd, .searchSync), (.searchPreambleEnd, .searchPreambleStart),
            (.searchSync, .synched), (.synched, .searchPreambleStart)]) ∧
      t.cnt.syncAcq = s.cnt.syncAcq +
        (if s.fsm.state = .searchSync ∧ t.fsm.state = .synched then 1 else 0) ∧
      t.cnt.syncLost = s.cnt.syncLost +
        (if s.fsm.state = .synched ∧ t.fsm.state = .searchPreambleStart then 1 else 0)))

/-- A command only adds events, at most 260 of them, of the ten types, in the order the spec infers (60
R278): a BIT first, then one message's events with nothing between them, then one last event, which
follows a message only when it is SYNC_LOST. -/
def Obligations.EventOrder : Prop :=
  ∀ (i : Instr) (s t : State), exec i s = .next t →
    ∃ (es : List EvtWord) (bit message last : List Nat),
      t.evts = s.evts ++ es ∧ es.map typeOf = bit ++ message ++ last ∧ es.length ≤ 260 ∧
      (bit = [] ∨
        bit = [0x10] ∧ s.csr.bitTrace = true ∧ ((∃ a b, i = .sample a b) ∨ ∃ y, i = .magIn y)) ∧
      (message = [] ∨ ∃ n ≤ 256, message = 0x01 :: List.replicate n 0x02 ++ [0x03]) ∧
      last ∈ [[], [0x20], [0x21], [0x22], [0x23], [0x30], [0x3F]] ∧
      (message ≠ [] → last = [] ∨ last = [0x23]) ∧
      (last = [0x30] ∨ last = [0x3F] → bit = [] ∧ message = [])

/-- Each event that has a counter is counted: messages, acquisitions, batches, losses and refusals
(10 R40, R48, 60 R271). -/
def Obligations.CountersMatchEvents : Prop :=
  ∀ (i : Instr) (s t : State), i ≠ .reset → exec i s = .next t →
    ∃ es : List EvtWord, t.evts = s.evts ++ es ∧
      t.cnt.msg = s.cnt.msg + countType 0x01 es ∧
      t.cnt.syncAcq = s.cnt.syncAcq + countType 0x20 es ∧
      t.cnt.batch = s.cnt.batch + countType 0x21 es ∧
      t.cnt.syncLost = s.cnt.syncLost + countType 0x23 es ∧
      t.cnt.illegal = s.cnt.illegal + countType 0x3F es

/-- Bytes of the buffer at `msg.nc` and above make no difference to anything a rule reads: two states
that differ only in them stay so, command after command, with the same events (10 R47, R50). -/
def Obligations.UnreadBytesDoNotMatter : Prop :=
  ∀ (is : List Instr) (s t s' : State), SameButUnread s t → execAll is s = .next s' →
    ∃ t', execAll is t = .next t' ∧ SameButUnread s' t'

/-- What the data path commands leave alone: the configuration and the host's inputs; the demodulator,
except by SAMPLE; the synchronizer, except by SAMPLE and MAG_IN; the frame acquirer, by CW_IN; the
counters of other things; and every byte of the buffer but those of the units completed from index
`msg.nc` up, below `CAP`. The whole buffer stays when no message is open, when a bit or value completes
no word, and when the word is uncorrectable, is at the expected sync position or is no message word
(40 R123, 41 R145, 42 R167, R168, R175, 44 R212, R213, R215, R217, R220, R230). -/
def Obligations.DataPathFrame : Prop :=
  ∀ (i : Instr) (s t : State),
    ((∃ a b, i = .sample a b) ∨ (∃ y, i = .magIn y) ∨ (∃ b, i = .bitIn b) ∨
      ∃ w slot, i = .cwIn w slot) →
    exec i s = .next t →
      t.csr = s.csr ∧ t.inputs = s.inputs ∧
      ((∀ a b, i ≠ .sample a b) → t.demod = s.demod ∧ t.cnt.samples = s.cnt.samples) ∧
      ((∀ a b, i ≠ .sample a b) → (∀ y, i ≠ .magIn y) → t.sync = s.sync) ∧
      ((∃ w slot, i = .cwIn w slot) → t.fsm = s.fsm ∧ t.cnt.bits = s.cnt.bits ∧
        t.cnt.syncAcq = s.cnt.syncAcq ∧ t.cnt.syncLost = s.cnt.syncLost ∧
        t.cnt.batch = s.cnt.batch) ∧
      t.cnt.illegal = s.cnt.illegal ∧ t.cnt.overrun = s.cnt.overrun ∧
      (∀ k, (k < s.msg.nc ∨ s.msg.nc + unitsCompleted s.msg ≤ k ∨ s.csr.cap.toNat ≤ k) →
        t.buf.read k = s.buf.read k) ∧
      (s.msg.isOpen = false → t.buf = s.buf) ∧
      ((∀ w slot, i ≠ .cwIn w slot) → s.fsm.state ≠ .synched ∨ s.fsm.bitcnt + 1 ≠ 32 →
        t.buf = s.buf) ∧
      (∀ b, i = .bitIn b → s.fsm.cwIndex = 16 ∨ (correct (historyAfter s.fsm b).sr).ok = false ∨
        (correct (historyAfter s.fsm b).sr).word.getLsbD 31 = false → t.buf = s.buf) ∧
      ∀ w slot, i = .cwIn w slot → (correct w).ok = false ∨ (correct w).word.getLsbD 31 = false →
        t.buf = s.buf

/-! ### The demodulator (40 R120 to R129) -/

/-- SAMPLE_LOSS adds N to the overrun counter, modulo 2^32, and does nothing else; N = 0 changes
nothing (40 R124). -/
def Obligations.SampleLossCounts : Prop :=
  ∀ (n : Word) (s : State),
    exec (.sampleLoss n) s = .next
      { s with
        cnt := { s.cnt with overrun := BitVec.ofNat 32 (s.cnt.overrun.toNat + n.toNat) } } ∧
    exec (.sampleLoss 0) s = .next s

/-- DEMOD_QUERY answers the demod value of its own operands and changes no state (40 R125, R120 to
R122). -/
def Obligations.DemodQueryResult : Prop :=
  ∀ (i q ip qp : Byte) (mode : DemodMode) (s : State),
    exec (.demodQuery i q ip qp mode) s = .next
      { s with
        evts := s.evts ++ [eventWord 0x30
          ((match mode with
            | .mag => magnitudeOf ((i.toNat : Int) - 127) ((q.toNat : Int) - 127)
            | .fm => ((ip.toNat : Int) - 127) * ((q.toNat : Int) - 127)
                - ((qp.toNat : Int) - 127) * ((i.toNat : Int) - 127)) % 2 ^ 32).toNat] }

/-- Mode MAG gives `(isqrt(262144 * n) + 1) >> 1`, the integer nearest to `256 * sqrt(i² + q²)`, nearer
than one half, never negative, at most 46341 for centred bytes (40 R121). -/
def Obligations.MagnitudeIsNearest : Prop :=
  (∀ ci cq : Int, magnitude ci cq = magnitudeOf ci cq ∧ 0 ≤ magnitude ci cq ∧
    |(magnitude ci cq : ℝ) - 256 * Real.sqrt ((ci : ℝ) ^ 2 + (cq : ℝ) ^ 2)| < 1 / 2) ∧
  ∀ i q : Byte, 0 ≤ magnitude (centre .build i) (centre .build q) ∧
    magnitude (centre .build i) (centre .build q) ≤ 46341

/-- The ranges of the demodulator for any build and for `ADC_MID` 127, all of them 32-bit values, as
the spec infers (40 R127). -/
def Obligations.DemodRanges : Prop :=
  (∀ (cfg : Config) (i q ip qp : Byte), cfg.adcMid ≤ 255 →
    |centre cfg i| ≤ 255 ∧ |centre cfg q| ≤ 255 ∧
    centre cfg i * centre cfg i + centre cfg q * centre cfg q ≤ 130050 ∧
    0 ≤ demodValue .mag (centre cfg ip) (centre cfg qp) (centre cfg i) (centre cfg q) ∧
    demodValue .mag (centre cfg ip) (centre cfg qp) (centre cfg i) (centre cfg q) ≤ 92320 ∧
    |demodValue .fm (centre cfg ip) (centre cfg qp) (centre cfg i) (centre cfg q)| ≤ 130050 ∧
    ∀ mode, (BitVec.ofInt 32
      (demodValue mode (centre cfg ip) (centre cfg qp) (centre cfg i) (centre cfg q))).toInt =
        demodValue mode (centre cfg ip) (centre cfg qp) (centre cfg i) (centre cfg q)) ∧
  ∀ i q ip qp : Byte,
    |centre .build i| ≤ 128 ∧ |centre .build q| ≤ 128 ∧
    centre .build i * centre .build i + centre .build q * centre .build q ≤ 32768 ∧
    demodValue .mag (centre .build ip) (centre .build qp) (centre .build i) (centre .build q)
      ≤ 46341 ∧
    |demodValue .fm (centre .build ip) (centre .build qp) (centre .build i) (centre .build q)|
      ≤ 32640

/-- The 256 x 256 table at index `{Q, I}` is the magnitude of that pair (40 R126). -/
def Obligations.MagTableAgrees : Prop :=
  ∀ i q : Byte, magTable .build (q ++ i) =
    magnitudeOf ((i.toNat : Int) - 127) ((q.toNat : Int) - 127)

/-- SAMPLE is the demodulator, then MAG_IN: the value of the mode, from the previous sample in FM; the
sample kept and counted in both modes; and it completes (40 R123). -/
def Obligations.SampleFeedsSynchronizer : Prop :=
  ∀ (i q : Byte) (s : State), SampleCentred .build s.demod → s.BufferSafe .build →
    exec (.sample i q) s =
      exec (.magIn (BitVec.ofInt 32
        (match s.csr.demodMode with
          | .mag => magnitudeOf ((i.toNat : Int) - 127) ((q.toNat : Int) - 127)
          | .fm => s.demod.pi * ((q.toNat : Int) - 127) - s.demod.pq * ((i.toNat : Int) - 127))))
        { s with
          demod := ⟨(i.toNat : Int) - 127, (q.toNat : Int) - 127⟩
          cnt := { s.cnt with samples := s.cnt.samples + 1 } } ∧
    ∃ t, exec (.sample i q) s = .next t

/-! ### The synchronizer (41 R140 to R148) -/

/-- A demod value that does not end the symbol: corrected phase advanced, saturated sum, sign kept;
nothing else changes (41 R141, R143, R145). -/
def Obligations.MagInInsideSymbol : Prop :=
  ∀ (y : Word) (s : State),
    phaseBefore s.csr s.sync (y.toInt - s.csr.threshold.toInt) + s.csr.symbolRate.toNat
        < s.csr.sampleRate.toNat →
      exec (.magIn y) s = .next
        { s with
          sync :=
            ⟨phaseBefore s.csr s.sync (y.toInt - s.csr.threshold.toInt) + s.csr.symbolRate.toNat,
              BitVec.ofInt 32 (sumAfter s.sync.acc (y.toInt - s.csr.threshold.toInt)),
              decide (s.csr.threshold.toInt ≤ y.toInt), true⟩ }

/-- A demod value that ends the symbol: the bit from the sum's sign and INVERT, the sum cleared, the
BIT event first when traced, then exactly what BIT_IN of that bit does; and it completes (41 R143,
R144, R145). -/
def Obligations.MagInEndsSymbol : Prop :=
  ∀ (y : Word) (s : State), s.BufferSafe .build →
    let v : Int := y.toInt - s.csr.threshold.toInt
    let p := phaseBefore s.csr s.sync v + s.csr.symbolRate.toNat
    let sum := sumAfter s.sync.acc v
    let bit : Bool := decide (0 ≤ sum) != s.csr.invert
    s.csr.sampleRate.toNat ≤ p →
      exec (.magIn y) s =
        exec (.bitIn bit)
          { s with
            sync := ⟨p - s.csr.sampleRate.toNat, 0, decide (0 ≤ v), true⟩
            evts := s.evts ++
              if s.csr.bitTrace then [eventWord 0x10 (sum.natAbs * 2 ^ 8 + bit.toNat)] else [] } ∧
      ∃ t, exec (.magIn y) s = .next t

/-- The timing correction: the phase the input starts from is the rule's, inside the symbol, moved by
at most half a symbol, down when the crossing came after the boundary and up when before, and not at
all without a crossing, without TR_EN or on the first input (41 R142). -/
def Obligations.TimingCorrection : Prop :=
  ∀ (c : CsrFields) (x : SyncState) (v : Int), x.phase < c.sampleRate.toNat →
    startPhase c x v = phaseBefore c x v ∧ startPhase c x v < c.sampleRate.toNat ∧
    2 * |(startPhase c x v : Int) - x.phase| ≤ c.sampleRate.toNat ∧
    (2 * x.phase < c.sampleRate.toNat → startPhase c x v ≤ x.phase) ∧
    (c.sampleRate.toNat ≤ 2 * x.phase → x.phase ≤ startPhase c x v) ∧
    (c.trEn = false ∨ x.havePrevS = false ∨ x.prevS = decide (0 ≤ v) → startPhase c x v = x.phase)

/-- No drift: after N inputs without a timing correction (TR_EN 0, or no sign change) exactly
`floor((p0 + N * SYMBOL_RATE) / SAMPLE_RATE)` bits have entered the frame acquirer and the phase is the
remainder, as the spec infers (41 R146). -/
def Obligations.NoDrift : Prop :=
  ∀ (ys : List Word) (s : State),
    PhaseInSymbol s.csr s.sync → ConfigLegal .build s.csr → s.BufferSafe .build →
    (s.csr.trEn = false ∨
      ∃ b : Bool, (s.sync.havePrevS = true → s.sync.prevS = b) ∧
        ∀ y ∈ ys, decide (s.csr.threshold.toInt ≤ y.toInt) = b) →
    ∃ t, execAll (ys.map .magIn) s = .next t ∧
      t.sync.phase =
        (s.sync.phase + ys.length * s.csr.symbolRate.toNat) % s.csr.sampleRate.toNat ∧
      t.cnt.bits = s.cnt.bits + BitVec.ofNat 32
        ((s.sync.phase + ys.length * s.csr.symbolRate.toNat) / s.csr.sampleRate.toNat)

/-! ### The frame acquirer (42 R160 to R175) -/

/-- A bit in SEARCH_PREAMBLE_START: the history, and SEARCH_PREAMBLE_END once the alternating run is
`PRE_START_RUN` long (42 R161, R162). -/
def Obligations.BitInPreambleStart : Prop :=
  ∀ (b : Bool) (s : State), s.fsm.state = .searchPreambleStart →
    exec (.bitIn b) s = .next (bitTaken
      { historyAfter s.fsm b with
        state :=
          if s.csr.preStartRun.toNat ≤ (historyAfter s.fsm b).altRun.toNat then .searchPreambleEnd
          else .searchPreambleStart } s)

/-- A bit in SEARCH_PREAMBLE_END: at the first repeated bit the run it ended decides between SEARCH_SYNC
and SEARCH_PREAMBLE_START (42 R161, R163). -/
def Obligations.BitInPreambleEnd : Prop :=
  ∀ (b : Bool) (s : State), s.fsm.state = .searchPreambleEnd →
    exec (.bitIn b) s = .next (bitTaken
      { historyAfter s.fsm b with
        state :=
          if s.fsm.havePrev = true ∧ b = s.fsm.prevBit then
            if s.csr.preMinLen.toNat ≤ s.fsm.altRun.toNat then .searchSync else .searchPreambleStart
          else .searchPreambleEnd } s)

/-- A bit in SEARCH_SYNC: within `SOFT_THRESHOLD` of the sync word the machine acquires, the distance in
the event; at one more it searches on (42 R161, R164, R172). -/
def Obligations.BitInSearchSync : Prop :=
  ∀ (b : Bool) (s : State), s.fsm.state = .searchSync →
    let f := historyAfter s.fsm b
    let d := weight (f.sr ^^^ 0x7CD215D8#32)
    exec (.bitIn b) s = .next
      (if d ≤ s.csr.softThreshold.toNat then
        { bitTaken
            { f with state := .synched, bitcnt := 0, cwIndex := 0, miss := 0, errHist := 0 } s with
          cnt := { s.cnt with bits := s.cnt.bits + 1, syncAcq := s.cnt.syncAcq + 1 }
          evts := s.evts ++ [eventWord 0x20 d] }
      else bitTaken f s)

/-- A bit in SYNCHED that does not complete a word is only counted and kept (42 R161, R165). -/
def Obligations.BitInsideWord : Prop :=
  ∀ (b : Bool) (s : State), s.fsm.state = .synched → s.fsm.bitcnt < 31 →
    exec (.bitIn b) s =
      .next (bitTaken { historyAfter s.fsm b with bitcnt := s.fsm.bitcnt + 1 } s)

/-- The word at the expected sync position: accepted when correction gives the sync word, missed while
the misses stay within `SYNC_MISS_LIMIT`, and sync lost with reason 0 beyond it; it is never parsed or
counted as a codeword (42 R167). -/
def Obligations.ExpectedSyncWord : Prop :=
  ∀ (b : Bool) (s : State), s.fsm.state = .synched → s.fsm.bitcnt = 31 → s.fsm.cwIndex = 16 →
    s.msg.nc ≤ 256 →
    let f := { historyAfter s.fsm b with bitcnt := 0 }
    let misses := min (s.fsm.miss.toNat + 1) 255
    exec (.bitIn b) s = .next
      (if (correct f.sr).ok = true ∧ (correct f.sr).word = 0x7CD215D8 then
        { bitTaken { f with miss := 0, cwIndex := 0 } s with
          cnt := { s.cnt with bits := s.cnt.bits + 1, batch := s.cnt.batch + 1 }
          evts := s.evts ++ [eventWord 0x21 (correct f.sr).flips.toNat] }
      else if misses ≤ s.csr.syncMissLimit.toNat then
        { bitTaken { f with miss := BitVec.ofNat 8 misses, cwIndex := 0 } s with
          evts := s.evts ++ [eventWord 0x22 misses] }
      else syncLostWith 0 (bitTaken f s))

/-- The word at a data position: a correctable one does what CW_IN of that word at its slot does, with
a 0 entered in the error window; an uncorrectable one is counted, marks the open message, enters a 1,
and loses sync with reason 1 when more than `ERR_LIMIT` of the last 16 are 1; and it completes (42 R166,
R168, R169). -/
def Obligations.SynchedDataWord : Prop :=
  ∀ (b : Bool) (s : State), s.fsm.state = .synched → s.fsm.bitcnt = 31 → s.fsm.cwIndex < 16 →
    s.BufferSafe .build →
    let f := { historyAfter s.fsm b with bitcnt := 0, cwIndex := s.fsm.cwIndex + 1 }
    let u := bitTaken { f with errHist := BitVec.ofNat 16 (s.fsm.errHist.toNat * 2 + 1) } s
    let marked :=
      { u with
        cnt := { u.cnt with cwUncorr := u.cnt.cwUncorr + 1 }
        msg := if s.msg.isOpen then { s.msg with err := true } else s.msg }
    ((correct f.sr).ok = true →
      exec (.bitIn b) s =
        exec (.cwIn f.sr (BitVec.ofNat 4 s.fsm.cwIndex))
          (bitTaken { f with errHist := BitVec.ofNat 16 (s.fsm.errHist.toNat * 2) } s) ∧
      ∃ t, exec (.bitIn b) s = .next t) ∧
    ((correct f.sr).ok = false →
      exec (.bitIn b) s = .next
        (if s.csr.errLimit.toNat < weight (BitVec.setWidth 32 u.fsm.errHist) then
          syncLostWith 1 marked
        else marked))

/-! ### The codec (43 R190 to R197) -/

/-- `BchRem` is the remainder of v(x) divided by g(x), of degree below 10, and is linear (43 R191). -/
def Obligations.BchRemainder : Prop :=
  (∀ v : BitVec 31, ∃ q : Polynomial (ZMod 2),
    (∑ k ∈ Finset.range 31, if v.getLsbD k then Polynomial.X ^ k else 0) =
      q * (Polynomial.X ^ 10 + Polynomial.X ^ 9 + Polynomial.X ^ 8 + Polynomial.X ^ 6
          + Polynomial.X ^ 5 + Polynomial.X ^ 3 + 1)
        + ∑ k ∈ Finset.range 10, if (bchRem v).getLsbD k then Polynomial.X ^ k else 0) ∧
  ∀ a b : BitVec 31, bchRem (a ^^^ b) = bchRem a ^^^ bchRem b

/-- BCH_SYNDROME answers the parity in bit 10 and the remainder in bits 9 to 0, and changes no state
(43 R192, R195). -/
def Obligations.SyndromeResult : Prop :=
  ∀ (w : Word) (s : State),
    exec (.bchSyndrome w) s = .next
      { s with
        evts := s.evts ++
          [eventWord 0x30 (weight w % 2 * 2 ^ 10 + (bchRem (w.extractLsb' 1 31)).toNat)] }

/-- The words of syndrome zero are exactly the encodings of the 2^21 information words (43 R190, R192;
the encoder is the spec's inference, R197). -/
def Obligations.SyndromeZeroIffEncoded : Prop :=
  ∀ w : Word, syndrome w = 0 ↔ ∃ m : BitVec 21, w = bchEncode m

/-- BCH_CORRECT answers fail, flips and word, and changes no state (43 R196). -/
def Obligations.BchCorrectResult : Prop :=
  ∀ (w : Word) (s : State),
    exec (.bchCorrect w) s = .next
      { s with
        evts := s.evts ++
          [eventWord 0x30 ((1 - (correct w).ok.toNat) * 2 ^ 34 + (correct w).flips.toNat * 2 ^ 32
            + (correct w).word.toNat)] }

/-- The extended code has minimum distance exactly 6: every nonzero codeword has even weight and at
least 6 set bits, and one has 6, as the spec infers (43 R194). -/
def Obligations.MinimumDistance : Prop :=
  (∀ w : Word, syndrome w = 0 → weight w % 2 = 0 ∧ (w ≠ 0 → 6 ≤ weight w)) ∧
    syndrome 0x0000430B = 0 ∧ weight 0x0000430B = 6

/-- Any pattern of at most two flips of a codeword is undone, and its flips are counted, as the spec
infers (43 R194). -/
def Obligations.CorrectsUpToTwo : Prop :=
  ∀ v e : Word, syndrome v = 0 → weight e ≤ 2 →
    correct (v ^^^ e) = ⟨true, v, BitVec.ofNat 2 (weight e)⟩

/-- Any pattern of exactly three flips of a codeword is uncorrectable, as the spec infers (43 R194). -/
def Obligations.ThreeFlipsFail : Prop :=
  ∀ v e : Word, syndrome v = 0 → weight e = 3 → correct (v ^^^ e) = ⟨false, v ^^^ e, 0⟩

/-- A correction is a codeword as near as it says and the nearest one there is; a failure gives the
word back unflipped and means that no codeword lies within two flips (43 R193). -/
def Obligations.CorrectionIsNearest : Prop :=
  ∀ w : Word,
    ((correct w).ok = true →
      syndrome (correct w).word = 0 ∧ weight (w ^^^ (correct w).word) = (correct w).flips.toNat ∧
      (correct w).flips.toNat ≤ 2 ∧
      ∀ v : Word, syndrome v = 0 → (correct w).flips.toNat ≤ weight (w ^^^ v)) ∧
    ((correct w).ok = false →
      (correct w).word = w ∧ (correct w).flips = 0 ∧
      ∀ v : Word, syndrome v = 0 → 2 < weight (w ^^^ v))

/-- A word corrects to the sync word exactly when it is within two flips of it (42 R167, from the
distance the spec infers in 43 R194). -/
def Obligations.SyncWordWithinTwo : Prop :=
  ∀ w : Word, ((correct w).ok = true ∧ (correct w).word = 0x7CD215D8) ↔
    weight (w ^^^ 0x7CD215D8#32) ≤ 2

/-! ### The parser (44 R210 to R232) -/

/-- CW_IN of an uncorrectable word: counted, an open message marked, nothing else; sync is never lost
(42 R168, 44 R230). -/
def Obligations.CwInUncorrectable : Prop :=
  ∀ (w : Word) (slot : BitVec 4) (s : State), (correct w).ok = false →
    exec (.cwIn w slot) s = .next
      { s with
        cnt := { s.cnt with cwUncorr := s.cnt.cwUncorr + 1 }
        msg := if s.msg.isOpen then { s.msg with err := true } else s.msg }

/-- CW_IN of a word corrected to the idle word hands the open message out, if any, and does nothing
else (44 R212). -/
def Obligations.CwInIdle : Prop :=
  ∀ (w : Word) (slot : BitVec 4) (s : State), (correct w).ok = true →
    (correct w).word = 0x7A89C197 → s.msg.nc ≤ 256 →
      exec (.cwIn w slot) s = .next (handedOut (correctedCounted (correct w).flips s))

/-- CW_IN of a word corrected to the sync word, or of a message word with no open message, changes only
the codeword counter (44 R213, R217). -/
def Obligations.CwInIgnored : Prop :=
  ∀ (w : Word) (slot : BitVec 4) (s : State), (correct w).ok = true →
    (correct w).word = 0x7CD215D8 ∨ ((correct w).word.getLsbD 31 = true ∧ s.msg.isOpen = false) →
      exec (.cwIn w slot) s = .next (correctedCounted (correct w).flips s)

/-- CW_IN of an address word: the open message is handed out, and a new one opened with the capcode
`c[30:13] * 8 + (slot div 2)`, the function `c[12:11]` and the kind `KIND_MAP[func]`, without an event
(44 R214, R215). -/
def Obligations.CwInAddress : Prop :=
  ∀ (w : Word) (slot : BitVec 4) (s : State), (correct w).ok = true →
    (correct w).word ≠ 0x7A89C197 → (correct w).word ≠ 0x7CD215D8 →
    (correct w).word.getLsbD 31 = false → s.msg.nc ≤ 256 →
    let c := (correct w).word.toNat
    let func := c / 2 ^ 11 % 2 ^ 2
    exec (.cwIn w slot) s = .next
      { handedOut (correctedCounted (correct w).flips s) with
        msg :=
          { isOpen := true
            capcode := BitVec.ofNat 21 (c / 2 ^ 13 % 2 ^ 18 * 8 + slot.toNat / 2)
            func := BitVec.ofNat 2 func
            kind := if s.csr.kindMap.getLsbD func then .alphanumeric else .numeric
            trunc := false, err := false, bits := 0, nb := 0, nc := 0 } }

/-- CW_IN of a message word whose units fit: its 20 bits, after those waiting, are cut into units, low
bit first, each unit's character stands at the next index, and what is left waits; no event (44 R216,
R219 to R223, 20 R76). -/
def Obligations.MessageWordAppends : Prop :=
  ∀ (w : Word) (slot : BitVec 4) (s : State), (correct w).ok = true →
    (correct w).word.getLsbD 31 = true → s.msg.isOpen = true → MessageInRange .build s.msg →
    s.csr.cap.toNat ≤ 256 → s.msg.nc + unitsCompleted s.msg ≤ s.csr.cap.toNat →
    let width := s.msg.kind.width
    let stream := streamValue s.msg (correct w).word
    let n := unitsCompleted s.msg
    ∃ m : Memory,
      exec (.cwIn w slot) s = .next
        { correctedCounted (correct w).flips s with
          msg :=
            { s.msg with
              bits := BitVec.ofNat 7 (stream / 2 ^ (width * n))
              nb := (s.msg.nb + 20) % width
              nc := s.msg.nc + n }
          buf := m } ∧
      ∀ k, m.read k =
        if s.msg.nc ≤ k ∧ k < s.msg.nc + n then
          characterOf s.msg.kind s.csr.placeholder (unitOf width stream (k - s.msg.nc))
        else s.buf.read k

/-- CW_IN of a message word with one unit too many: the units below `CAP` are stored, then the message
is truncated and handed out with `max(nc, CAP)` characters, the rest of the word dropped and nothing
written at `CAP` or above (44 R219, R223, R224). -/
def Obligations.MessageWordOverflows : Prop :=
  ∀ (w : Word) (slot : BitVec 4) (s : State), (correct w).ok = true →
    (correct w).word.getLsbD 31 = true → s.msg.isOpen = true → MessageInRange .build s.msg →
    s.csr.cap.toNat ≤ 256 → s.csr.cap.toNat < s.msg.nc + unitsCompleted s.msg →
    ∃ m : Memory,
      exec (.cwIn w slot) s = .next (handedOut
        { correctedCounted (correct w).flips s with
          msg :=
            { s.msg with
              bits := 0, nb := 0, trunc := true, nc := max s.msg.nc s.csr.cap.toNat }
          buf := m }) ∧
      ∀ k, m.read k =
        if s.msg.nc ≤ k ∧ k < s.csr.cap.toNat then
          characterOf s.msg.kind s.csr.placeholder
            (unitOf s.msg.kind.width (streamValue s.msg (correct w).word) (k - s.msg.nc))
        else s.buf.read k

/-! ### The control commands (45 R250 to R255) -/

/-- NOP changes nothing; its word is 0, and that word with an operand bit set is refused with cause 2
(45 R250). -/
def Obligations.NopDoesNothing : Prop :=
  ∀ s : State, exec .nop s = .next s ∧ step (s.offer 0) = .next s ∧
    ∀ w : CmdWord, 0 < w.toNat → w.toNat < 2 ^ 56 →
      step (s.offer w) = .next (refusedWith 2 0 0 s)

/-- FLUSH hands the open message out: header, characters in order, end; the message counted, and counted
as truncated when it is; every field of the message register 0; with no open message nothing (44 R224,
45 R253). -/
def Obligations.FlushHandsOut : Prop :=
  ∀ s : State, s.msg.nc ≤ 256 → exec .flush s = .next (handedOut s)

/-- CSR_READ of a mapped address answers the address and the register's value and changes no state (45
R251, 10 R22 to R40). -/
def Obligations.CsrReadValues : Prop :=
  ∀ s : State, s.Inv .build → ∀ p ∈ registerValues s,
    exec (.csrRead (BitVec.ofNat 8 p.1)) s = .next
      { s with evts := s.evts ++ [eventWord 0x30 (p.1 * 2 ^ 32 + p.2)] }

/-- What each mapped register reads right after reset (10 R21). -/
def Obligations.RegistersAtReset : Prop :=
  ∀ p ∈ ([(0x00, 0x47534350), (0x01, 0x00000004), (0x02, 0), (0x03, 0x001E8480), (0x04, 0x000004B0),
      (0x05, 0x00000004), (0x06, 0x00400020), (0x07, 0x00080002), (0x08, 0x01003F08)]
      ++ readOnlyAddresses.tail.map fun a => (a, 0) : List (Nat × Nat)),
    exec (.csrRead (BitVec.ofNat 8 p.1)) State.reset = .next
      { State.reset with evts := [eventWord 0x30 (p.1 * 2 ^ 32 + p.2)] }

/-- CSR_READ and CSR_WRITE of an unmapped address are refused with cause 3 and have no other effect
(10 R41). -/
def Obligations.UnmappedCsrRefused : Prop :=
  ∀ (a : Byte) (v : Word) (s : State), a.toNat ∉ readOnlyAddresses → a.toNat ∉ readWriteAddresses →
    exec (.csrRead a) s = .next (refusedWith 3 0x30 a.toNat s) ∧
    exec (.csrWrite a v) s = .next (refusedWith 3 0x31 a.toNat s)

/-- CSR_WRITE of a read-only register is refused with cause 4, whatever the value (45 R252, 60 R273). -/
def Obligations.ReadOnlyCsrRefused : Prop :=
  ∀ (a : Byte) (v : Word) (s : State), a.toNat ∈ readOnlyAddresses →
    exec (.csrWrite a v) s = .next (refusedWith 4 0x31 a.toNat s)

/-- CSR_WRITE of each read-write register: a legal value gives every field its bits, and a rate register
also restarts the symbol; an illegal one is refused with cause 5 and writes nothing (45 R252, R255, 41
R148). -/
def Obligations.CsrWriteEffects : Prop :=
  ∀ (v : Word) (s : State),
    exec (.csrWrite 0x01 v) s = .next
      (if v.toNat < 2 ^ 4 then
        { s with csr := { s.csr with
            bitTrace := decide (v.toNat / 8 % 2 = 1)
            trEn := decide (v.toNat / 4 % 2 = 1)
            invert := decide (v.toNat / 2 % 2 = 1)
            demodMode := if v.toNat % 2 = 1 then .fm else .mag } }
      else refusedWith 5 0x31 0x01 s) ∧
    exec (.csrWrite 0x02 v) s = .next { s with csr := { s.csr with threshold := v } } ∧
    exec (.csrWrite 0x03 v) s = .next
      (if s.csr.symbolRate.toNat ≤ v.toNat then
        { s with
          csr := { s.csr with sampleRate := v }
          sync := { s.sync with phase := 0, acc := 0 } }
      else refusedWith 5 0x31 0x03 s) ∧
    exec (.csrWrite 0x04 v) s = .next
      (if 1 ≤ v.toNat ∧ v.toNat ≤ s.csr.sampleRate.toNat then
        { s with
          csr := { s.csr with symbolRate := v }
          sync := { s.sync with phase := 0, acc := 0 } }
      else refusedWith 5 0x31 0x04 s) ∧
    exec (.csrWrite 0x05 v) s = .next
      (if v.toNat < 2 ^ 5 then
        { s with csr := { s.csr with gainShift := BitVec.ofNat 5 v.toNat } }
      else refusedWith 5 0x31 0x05 s) ∧
    exec (.csrWrite 0x06 v) s = .next
      (if 1 ≤ v.toNat % 2 ^ 16 then
        { s with csr := { s.csr with
            preMinLen := BitVec.ofNat 16 (v.toNat / 2 ^ 16)
            preStartRun := BitVec.ofNat 16 (v.toNat % 2 ^ 16) } }
      else refusedWith 5 0x31 0x06 s) ∧
    exec (.csrWrite 0x07 v) s = .next
      (if v.toNat < 2 ^ 21 ∧ v.toNat / 2 ^ 6 % 2 ^ 2 = 0 ∧ v.toNat % 2 ^ 6 ≤ 32 then
        { s with csr := { s.csr with
            errLimit := BitVec.ofNat 5 (v.toNat / 2 ^ 16)
            syncMissLimit := BitVec.ofNat 8 (v.toNat / 2 ^ 8 % 2 ^ 8)
            softThreshold := BitVec.ofNat 6 (v.toNat % 2 ^ 6) } }
      else refusedWith 5 0x31 0x07 s) ∧
    exec (.csrWrite 0x08 v) s = .next
      (if v.toNat / 2 ^ 4 % 2 ^ 4 = 0 ∧ 1 ≤ v.toNat / 2 ^ 16 ∧ v.toNat / 2 ^ 16 ≤ 256 then
        { s with csr := { s.csr with
            cap := BitVec.ofNat 16 (v.toNat / 2 ^ 16)
            placeholder := BitVec.ofNat 8 (v.toNat / 2 ^ 8 % 2 ^ 8)
            kindMap := BitVec.ofNat 4 (v.toNat % 2 ^ 4) } }
      else refusedWith 5 0x31 0x08 s)

/-- An accepted write reads back, at the next command, as the value written (10 R21, 45 R252). -/
def Obligations.AcceptedWriteReadsBack : Prop :=
  ∀ (a : Byte) (v : Word) (s t : State), exec (.csrWrite a v) s = .next t →
    t.cnt.illegal = s.cnt.illegal →
      exec (.csrRead a) t = .next
        { t with evts := t.evts ++ [eventWord 0x30 (a.toNat * 2 ^ 32 + v.toNat)] }

/-! ### Sync windows, text and packing -/

/-- In SEARCH_SYNC on a clean preamble of either phase, with `SOFT_THRESHOLD` at most 10: however many
more preamble bits come, and then every bit of the sync word but the last, each leaves a window at
distance 11 or more, the machine searching on and no event; the last bit acquires with distance 0, as the
spec infers (42 R171). -/
def Obligations.SyncWindowsFar : Prop :=
  ∀ (s : State) (n : Nat), s.fsm.state = .searchSync → s.csr.softThreshold.toNat ≤ 10 →
    s.fsm.sr = 0xAAAAAAAA ∨ s.fsm.sr = 0x55555555 →
    let stream : Nat → List Instr := fun j =>
      (List.range n).map (fun k => .bitIn (decide (k % 2 = 0) != s.fsm.sr.getLsbD 0))
        ++ (List.range j).map (fun k => .bitIn ((0x7CD215D8#32).getLsbD (31 - k)))
    (∀ j < 32, ∃ t, execAll (stream j) s = .next t ∧ t.fsm.state = .searchSync ∧
      11 ≤ syncDistance t.fsm.sr ∧ t.evts = s.evts) ∧
    ∃ t, execAll (stream 32) s = .next t ∧ t.fsm.state = .synched ∧ t.fsm.sr = 0x7CD215D8 ∧
      t.evts = s.evts ++ [eventWord 0x20 0]

/-- An assembler takes exactly the values inside each field's range, and a negative `V` as its two's
complement (30 R103). -/
def Obligations.AssemblerRanges : Prop :=
  (∀ i q : Int, assemble (.sample i q) =
    if (0 ≤ i ∧ i ≤ 255) ∧ 0 ≤ q ∧ q ≤ 255 then
      some (.sample (BitVec.ofNat 8 i.toNat) (BitVec.ofNat 8 q.toNat)) else none) ∧
  (∀ n : Int, assemble (.sampleLoss n) =
    if 0 ≤ n ∧ n ≤ 2 ^ 32 - 1 then some (.sampleLoss (BitVec.ofNat 32 n.toNat)) else none) ∧
  (∀ y : Int, assemble (.magIn y) =
    if -2 ^ 31 ≤ y ∧ y ≤ 2 ^ 31 - 1 then some (.magIn (BitVec.ofInt 32 y)) else none) ∧
  (∀ b : Int, assemble (.bitIn b) =
    if b = 0 then some (.bitIn false) else if b = 1 then some (.bitIn true) else none) ∧
  (∀ w slot : Int, assemble (.cwIn w slot) =
    if (0 ≤ w ∧ w ≤ 2 ^ 32 - 1) ∧ 0 ≤ slot ∧ slot ≤ 15 then
      some (.cwIn (BitVec.ofNat 32 w.toNat) (BitVec.ofNat 4 slot.toNat)) else none) ∧
  (∀ i q ip qp mode : Int, assemble (.demodQuery i q ip qp mode) =
    if (0 ≤ i ∧ i ≤ 255) ∧ (0 ≤ q ∧ q ≤ 255) ∧ (0 ≤ ip ∧ ip ≤ 255) ∧ (0 ≤ qp ∧ qp ≤ 255) ∧
        (mode = 0 ∨ mode = 1) then
      some (.demodQuery (BitVec.ofNat 8 i.toNat) (BitVec.ofNat 8 q.toNat) (BitVec.ofNat 8 ip.toNat)
        (BitVec.ofNat 8 qp.toNat) (if mode = 1 then .fm else .mag)) else none) ∧
  (∀ w : Int, assemble (.bchSyndrome w) =
    if 0 ≤ w ∧ w ≤ 2 ^ 32 - 1 then some (.bchSyndrome (BitVec.ofNat 32 w.toNat)) else none) ∧
  (∀ w : Int, assemble (.bchCorrect w) =
    if 0 ≤ w ∧ w ≤ 2 ^ 32 - 1 then some (.bchCorrect (BitVec.ofNat 32 w.toNat)) else none) ∧
  (∀ a : Int, assemble (.csrRead a) =
    if 0 ≤ a ∧ a ≤ 255 then some (.csrRead (BitVec.ofNat 8 a.toNat)) else none) ∧
  (∀ a v : Int, assemble (.csrWrite a v) =
    if (0 ≤ a ∧ a ≤ 255) ∧ -2 ^ 31 ≤ v ∧ v ≤ 2 ^ 32 - 1 then
      some (.csrWrite (BitVec.ofNat 8 a.toNat) (BitVec.ofInt 32 v)) else none)

/-- The pseudo-commands' expansions (30 R104). -/
def Obligations.PseudoCommands : Prop :=
  (∀ bs : List Byte, bs.length % 2 = 1 → expandSamples bs = none) ∧
  (∀ bs : List Byte, bs.length % 2 = 0 →
    expandSamples bs = some ((List.range (bs.length / 2)).map fun k =>
      .sample (bs.getD (2 * k) 0) (bs.getD (2 * k + 1) 0))) ∧
  (∀ w : Word, expandBits32 w = (List.range 32).map fun k => .bitIn (w.getLsbD (31 - k))) ∧
  (∀ n : Nat, expandPreamble n = (List.range n).map fun k => .bitIn (decide (1 - k % 2 = 1))) ∧
  (∀ ws : List Word, ws.length = 16 →
    expandBatch ws = some (expandBits32 0x7CD215D8 ++ (ws.map expandBits32).flatten)) ∧
  (∀ k : Nat, expandIdles k = ((List.range k).map fun _ => expandBits32 0x7A89C197).flatten) ∧
  expandStop = [.flush]

/-- Byte k of a packed word is its bits `8k+7 .. 8k`, and a packed stream gives the word back (20
R73). -/
def Obligations.PackedWords : Prop :=
  ∀ w : BitVec 64,
    packWord w = (List.range 8).map (fun k => BitVec.ofNat 8 (w.toNat / 2 ^ (8 * k))) ∧
    ∀ rest : List Byte, unpackWord (packWord w ++ rest) = some (w, rest)
end

