-- ==== Sys2Proof/Laws/Arith.lean ====
section
/-! SUPPORT. What the arithmetic helpers compute. -/

namespace Sys2Proof.Machine

/-- The digits found so far keep the square between the bounds. -/
theorem isqrtDigits_bounds (n : Nat) : ∀ k r : Nat, r * r ≤ n → n < (r + 2 ^ k) * (r + 2 ^ k) →
    isqrtDigits n k r * isqrtDigits n k r ≤ n ∧ n < (isqrtDigits n k r + 1) * (isqrtDigits n k r + 1)
  | 0, r, hl, hu => by simpa [isqrtDigits] using ⟨hl, hu⟩
  | k + 1, r, hl, hu => by
    unfold isqrtDigits
    split
    · rename_i h
      refine isqrtDigits_bounds n k _ h ?_
      have e : r + 2 ^ k + 2 ^ k = r + 2 ^ (k + 1) := by ring
      rw [e]; exact hu
    · rename_i h
      exact isqrtDigits_bounds n k r hl (by omega)

/-- A number is below the square of a power of two that has half its binary digits, rounded up. -/
theorem lt_half_log_sq (n : Nat) : n < 2 ^ (n.log2 / 2 + 1) * 2 ^ (n.log2 / 2 + 1) := by
  have h : n < 2 ^ (n.log2 + 1) := Nat.lt_log2_self
  have h2 : 2 ^ (n.log2 + 1) ≤ 2 ^ ((n.log2 / 2 + 1) + (n.log2 / 2 + 1)) :=
    Nat.pow_le_pow_right (by norm_num) (by omega)
  rw [← Nat.pow_add]
  omega

/-- `isqrt n` is the largest number whose square is at most `n` (00 R11). -/
theorem isqrt_bounds (n : Nat) : isqrt n * isqrt n ≤ n ∧ n < (isqrt n + 1) * (isqrt n + 1) := by
  refine isqrtDigits_bounds n _ 0 (by simp) ?_
  simpa using lt_half_log_sq n

theorem isqrt_unique {n r : Nat} (h1 : r * r ≤ n) (h2 : n < (r + 1) * (r + 1)) : isqrt n = r := by
  obtain ⟨h3, h4⟩ := isqrt_bounds n
  have ha : isqrt n < r + 1 := by
    by_contra h; have := Nat.mul_le_mul (not_lt.mp h) (not_lt.mp h); omega
  have hb : r < isqrt n + 1 := by
    by_contra h; have := Nat.mul_le_mul (not_lt.mp h) (not_lt.mp h); omega
  omega

theorem isqrt_le_of_lt {n r : Nat} (h : n < (r + 1) * (r + 1)) : isqrt n ≤ r := by
  obtain ⟨h3, _⟩ := isqrt_bounds n
  by_contra hlt
  have := Nat.mul_le_mul (Nat.succ_le_of_lt (not_le.mp hlt)) (Nat.succ_le_of_lt (not_le.mp hlt))
  simp only [Nat.succ_eq_add_one] at this
  omega

theorem sat32_bounds (v : Int) : -(2 ^ 31) ≤ sat32 v ∧ sat32 v ≤ 2 ^ 31 - 1 := by
  unfold sat32; omega

theorem sat32_of_fits {v : Int} (h1 : -(2 ^ 31) ≤ v) (h2 : v ≤ 2 ^ 31 - 1) : sat32 v = v := by
  unfold sat32; omega

theorem clamp_bounds {v a b : Int} (h : a ≤ b) : a ≤ clamp v a b ∧ clamp v a b ≤ b := by
  unfold clamp; omega

/-- A saturated value is kept whole by its 32-bit register. -/
@[simp] theorem toInt_ofInt_sat32 (v : Int) : (BitVec.ofInt 32 (sat32 v)).toInt = sat32 v := by
  obtain ⟨h1, h2⟩ := sat32_bounds v
  rw [BitVec.toInt_ofInt, Int.bmod_def]
  omega

theorem popcountBelow_le (x : Nat) : ∀ k, popcountBelow x k ≤ k
  | 0 => Nat.le_refl 0
  | k + 1 => by
    have := popcountBelow_le x k
    have := Bool.toNat_le (x.testBit k)
    unfold popcountBelow; omega

theorem popcount_le {n : Nat} (x : BitVec n) : popcount x ≤ n :=
  popcountBelow_le _ _

end Sys2Proof.Machine
end

