-- ==== Sys2Proof/Laws/Bch.lean ====
section
/-! SUPPORT. What the correction search finds. -/

namespace Sys2Proof.Machine

theorem firstFlip_some {w e : Word} {flips : List Word} (h : firstFlip w flips = some e) :
    e ∈ flips ∧ isCodeword (w ^^^ e) = true :=
  ⟨List.mem_of_find?_eq_some h, List.find?_some (p := fun e => isCodeword (w ^^^ e)) h⟩

theorem firstFlip_none {w : Word} {flips : List Word} :
    firstFlip w flips = none ↔ ∀ e ∈ flips, isCodeword (w ^^^ e) = false := by
  simp [firstFlip]

/-- What `Correct` answers: the word itself, one flip, two flips, or failure with nothing in reach
(43 R193). -/
theorem correct_cases (w : Word) :
    (isCodeword w = true ∧ correct w = ⟨true, w, 0⟩) ∨
    (isCodeword w = false ∧ ∃ e, firstFlip w singleFlips = some e ∧
      correct w = ⟨true, w ^^^ e, 1⟩) ∨
    (isCodeword w = false ∧ firstFlip w singleFlips = none ∧
      ∃ e, firstFlip w doubleFlips = some e ∧ correct w = ⟨true, w ^^^ e, 2⟩) ∨
    (isCodeword w = false ∧ firstFlip w singleFlips = none ∧ firstFlip w doubleFlips = none ∧
      correct w = ⟨false, w, 0⟩) := by
  unfold correct
  cases isCodeword w
  · cases firstFlip w singleFlips with
    | some e => simp
    | none => cases firstFlip w doubleFlips <;> simp
  · simp

theorem mem_countUp {x : Nat} : ∀ {n lo : Nat}, x ∈ countUp lo n ↔ lo ≤ x ∧ x < lo + n
  | 0, lo => by simp only [countUp, List.not_mem_nil, false_iff]; omega
  | n + 1, lo => by
    simp only [countUp, List.mem_cons, mem_countUp (n := n)]
    omega

/-- The single flips are the 32 words of one bit (43 R193). -/
theorem mem_singleFlips {e : Word} : e ∈ singleFlips ↔ ∃ i < 32, e = oneBit i := by
  simp only [singleFlips, List.mem_map, mem_countUp]
  constructor
  · rintro ⟨i, hi, rfl⟩; exact ⟨i, by omega, rfl⟩
  · rintro ⟨i, hi, rfl⟩; exact ⟨i, by omega, rfl⟩

/-- The double flips are the words of two bits `i < j` (43 R193). -/
theorem mem_doubleFlips {e : Word} :
    e ∈ doubleFlips ↔ ∃ i j, i < j ∧ j < 32 ∧ e = oneBit i ^^^ oneBit j := by
  simp only [doubleFlips, List.mem_flatMap, List.mem_map, mem_countUp]
  constructor
  · rintro ⟨i, hi, j, hj, rfl⟩; exact ⟨i, j, by omega, by omega, rfl⟩
  · rintro ⟨i, j, hij, hj, rfl⟩; exact ⟨i, by omega, j, by omega, rfl⟩

end Sys2Proof.Machine
end

