-- ==== Sys2Proof/Laws/Build.lean ====
section
/-! SUPPORT. `exec`, `performWord` and `step` are those of the build of 00 R5. -/

namespace Sys2Proof.Machine

/-- The table of `Dispatch.lean` is the table of any build at the values 00 R5 gives. -/
theorem execFor_build : execFor .build = exec := by
  funext i s
  cases i <;> rfl

/-- One word performed by the build of 00 R5. -/
theorem performWordFor_build : performWordFor .build = performWord := by
  funext w s
  rw [performWordFor, performWord, execFor_build]

/-- One step of the build of 00 R5. -/
theorem stepFor_build : stepFor .build = step := by
  funext s
  rw [stepFor, step, execFor_build]

end Sys2Proof.Machine
end

