-- ==== Sys2Proof/Laws/Memory.lean ====
section
/-! SUPPORT. The message buffer: reading after writing, and the canonical form. -/

namespace Sys2Proof.Machine

@[simp] theorem Memory.read_nil (a : Nat) : Memory.read [] a = Memory.unlisted := rfl

theorem Memory.read_cons (k : Nat) (c : Byte) (m : Memory) (a : Nat) :
    Memory.read ((k, c) :: m) a = if k = a then c else m.read a := rfl

theorem Memory.read_without (m : Memory) (a x : Nat) :
    (m.without a).read x = if x = a then Memory.unlisted else m.read x := by
  induction m with
  | nil => simp [Memory.without]
  | cons kc m ih =>
    obtain ⟨k, c⟩ := kc
    by_cases hk : k = a
    · subst hk
      have : Memory.without ((k, c) :: m) k = Memory.without m k := by simp [Memory.without]
      rw [this, ih, Memory.read_cons]
      split <;> simp_all [eq_comm]
    · have : Memory.without ((k, c) :: m) a = (k, c) :: Memory.without m a := by simp [Memory.without, hk]
      rw [this, Memory.read_cons, Memory.read_cons, ih]
      by_cases hx : k = x
      · simp [← hx, hk]
      · simp [hx]

/-- Reading a buffer that lists no `a` after `(a, b)` is put into it. -/
theorem Memory.read_place (m : Memory) (a x : Nat) (b : Byte) (h : ∀ c ∈ m, c.1 ≠ a) :
    (m.place a b).read x = if x = a then b else m.read x := by
  induction m with
  | nil => simp [Memory.place, Memory.read_cons, eq_comm]
  | cons kc m ih =>
    obtain ⟨k, c⟩ := kc
    have hk : k ≠ a := h (k, c) (by simp)
    have ih := ih fun d hd => h d (by simp [hd])
    unfold Memory.place
    split
    · simp [Memory.read_cons, eq_comm]
    · rw [Memory.read_cons, Memory.read_cons, ih]
      by_cases hx : k = x
      · simp [← hx, hk]
      · simp [hx]

theorem Memory.without_unlists (m : Memory) (a : Nat) : ∀ c ∈ m.without a, c.1 ≠ a := by
  intro c hc
  simpa using (List.mem_filter.mp hc).2

/-- Reading any index after a write to one: the byte written there, the old byte elsewhere. -/
theorem Memory.read_write (m : Memory) (a x : Nat) (b : Byte) :
    (m.write a b).read x = if x = a then b else m.read x := by
  unfold Memory.write
  split
  · rename_i h; rw [Memory.read_without, h]
  · rw [Memory.read_place _ _ _ _ (m.without_unlists a), Memory.read_without]
    split <;> rfl

@[simp] theorem Memory.read_write_same (m : Memory) (a : Nat) (b : Byte) : (m.write a b).read a = b := by
  simp [Memory.read_write]

theorem Memory.read_write_other (m : Memory) {a x : Nat} (b : Byte) (h : x ≠ a) :
    (m.write a b).read x = m.read x := by
  simp [Memory.read_write, h]

theorem Memory.wfFrom_cons {lo k : Nat} {b : Byte} {m : Memory} :
    Memory.wfFrom lo ((k, b) :: m) = true ↔
      lo ≤ k ∧ b ≠ Memory.unlisted ∧ Memory.wfFrom (k + 1) m = true := by
  simp [Memory.wfFrom, and_assoc]

theorem Memory.wfFrom_mono {m : Memory} : ∀ {lo lo' : Nat}, lo' ≤ lo → Memory.wfFrom lo m = true →
    Memory.wfFrom lo' m = true := by
  cases m with
  | nil => intros; rfl
  | cons kc m =>
    intro lo lo' h hw
    rw [Memory.wfFrom_cons] at hw ⊢
    exact ⟨by omega, hw.2⟩

theorem Memory.wfFrom_without (a : Nat) {m : Memory} : ∀ {lo : Nat}, Memory.wfFrom lo m = true →
    Memory.wfFrom lo (m.without a) = true := by
  induction m with
  | nil => intros; rfl
  | cons kc m ih =>
    obtain ⟨k, c⟩ := kc
    intro lo hw
    rw [Memory.wfFrom_cons] at hw
    by_cases hk : k = a
    · subst hk
      have : Memory.without ((k, c) :: m) k = Memory.without m k := by simp [Memory.without]
      rw [this]
      exact Memory.wfFrom_mono (lo := k + 1) (by omega) (ih hw.2.2)
    · have : Memory.without ((k, c) :: m) a = (k, c) :: Memory.without m a := by simp [Memory.without, hk]
      rw [this, Memory.wfFrom_cons]
      exact ⟨hw.1, hw.2.1, ih hw.2.2⟩

theorem Memory.wfFrom_place (a : Nat) {b : Byte} (hb : b ≠ Memory.unlisted) {m : Memory} :
    ∀ {lo : Nat}, lo ≤ a → (∀ c ∈ m, c.1 ≠ a) → Memory.wfFrom lo m = true →
    Memory.wfFrom lo (m.place a b) = true := by
  induction m with
  | nil => intro lo h _ _; exact Memory.wfFrom_cons.mpr ⟨h, hb, rfl⟩
  | cons kc m ih =>
    obtain ⟨k, c⟩ := kc
    intro lo h hn hw
    rw [Memory.wfFrom_cons] at hw
    have hk : k ≠ a := hn (k, c) (by simp)
    unfold Memory.place
    split
    · exact Memory.wfFrom_cons.mpr ⟨h, hb, Memory.wfFrom_cons.mpr ⟨by omega, hw.2⟩⟩
    · exact Memory.wfFrom_cons.mpr ⟨hw.1, hw.2.1,
        ih (by omega) (fun d hd => hn d (by simp [hd])) hw.2.2⟩

/-- A write keeps the canonical form. -/
theorem Memory.wf_write {m : Memory} (a : Nat) (b : Byte) (h : m.wf = true) :
    (m.write a b).wf = true := by
  unfold Memory.write Memory.wf
  split
  · exact Memory.wfFrom_without a h
  · rename_i hb
    exact Memory.wfFrom_place a hb (by omega) (m.without_unlists a) (Memory.wfFrom_without a h)

/-- The empty buffer has the canonical form. -/
theorem Memory.wf_nil : Memory.wf [] = true := rfl

/-- Every listed index after a write was listed before or is the one written. -/
theorem Memory.mem_write {m : Memory} {a : Nat} {b : Byte} {c : Host.Cell} (h : c ∈ m.write a b) :
    c ∈ m ∨ c = (a, b) := by
  have key : ∀ m : Memory, c ∈ m.place a b → c ∈ m ∨ c = (a, b) := by
    intro m
    induction m with
    | nil => intro h; right; simpa [Memory.place] using h
    | cons kc m ih =>
      intro h
      unfold Memory.place at h
      split at h
      · rcases List.mem_cons.mp h with h | h
        · exact .inr h
        · exact .inl h
      · rcases List.mem_cons.mp h with h | h
        · exact .inl (by simp [h])
        · exact (ih h).imp (by simp_all) id
  unfold Memory.write at h
  split at h
  · exact .inl (List.mem_of_mem_filter h)
  · exact (key _ h).imp List.mem_of_mem_filter id

theorem Memory.read_below {m : Memory} : ∀ {lo a : Nat}, Memory.wfFrom lo m = true → a < lo →
    m.read a = Memory.unlisted := by
  induction m with
  | nil => intros; rfl
  | cons kc m ih =>
    obtain ⟨k, c⟩ := kc
    intro lo a hw ha
    rw [Memory.wfFrom_cons] at hw
    rw [Memory.read_cons, if_neg (by omega)]
    exact ih hw.2.2 (by omega)

/-- Canonical buffers that read alike are equal. -/
theorem Memory.ext_read {m n : Memory} (hm : m.wf = true) (hn : n.wf = true)
    (h : ∀ a, m.read a = n.read a) : m = n := by
  have key : ∀ (m n : Memory) (lo : Nat), Memory.wfFrom lo m = true → Memory.wfFrom lo n = true →
      (∀ a, m.read a = n.read a) → m = n := by
    intro m
    induction m with
    | nil =>
      intro n lo _ hn h
      cases n with
      | nil => rfl
      | cons kc n =>
        obtain ⟨k, c⟩ := kc
        rw [Memory.wfFrom_cons] at hn
        have := h k
        simp only [Memory.read_nil, Memory.read_cons, if_true] at this
        exact absurd this.symm hn.2.1
    | cons kc m ih =>
      obtain ⟨k, c⟩ := kc
      intro n lo hm hn h
      rw [Memory.wfFrom_cons] at hm
      cases n with
      | nil =>
        have := h k
        simp only [Memory.read_nil, Memory.read_cons, if_true] at this
        exact absurd this hm.2.1
      | cons ld n =>
        obtain ⟨l, d⟩ := ld
        rw [Memory.wfFrom_cons] at hn
        have hk := h k
        have hl := h l
        simp only [Memory.read_cons, if_true] at hk hl
        have hkl : k = l := by
          rcases Nat.lt_trichotomy k l with hlt | heq | hgt
          · rw [if_neg (by omega), Memory.read_below hn.2.2 (by omega)] at hk
            exact absurd hk hm.2.1
          · exact heq
          · rw [if_neg (by omega), Memory.read_below hm.2.2 (by omega)] at hl
            exact absurd hl.symm hn.2.1
        subst hkl
        simp only [if_true] at hk
        subst hk
        congr 1
        refine ih n (k + 1) hm.2.2 hn.2.2 fun a => ?_
        have := h a
        simp only [Memory.read_cons] at this
        by_cases ha : k = a
        · rw [Memory.read_below hm.2.2 (by omega), Memory.read_below hn.2.2 (by omega)]
        · simpa [ha] using this
  exact key m n 0 hm hn h

/-- `MemRead` answers a byte exactly inside the buffer. -/
theorem memRead_ok {cfg : Config} {m : Memory} {k : Nat} {b : Byte} :
    memRead cfg m k = .ok b ↔ k < cfg.maxCap ∧ b = m.read k := by
  unfold memRead
  split <;> simp_all [eq_comm]

/-- `MemWrite` answers a buffer exactly inside the buffer. -/
theorem memWrite_ok {cfg : Config} {m n : Memory} {k : Nat} {b : Byte} :
    memWrite cfg m k b = .ok n ↔ k < cfg.maxCap ∧ n = m.write k b := by
  unfold memWrite
  split <;> simp_all [eq_comm]

end Sys2Proof.Machine
end

