-- ==== Sys2Proof/Laws/State.lean ====
section
/-! SUPPORT. What each part of the state is after each update: one lemma per field per update. -/

namespace Sys2Proof.Machine

@[simp] theorem State.setCsr_csr (s : State) (v : CsrFields) : (s.setCsr v).csr = v := rfl
@[simp] theorem State.setCsr_demod (s : State) (v : CsrFields) : (s.setCsr v).demod = s.demod := rfl
@[simp] theorem State.setCsr_sync (s : State) (v : CsrFields) : (s.setCsr v).sync = s.sync := rfl
@[simp] theorem State.setCsr_fsm (s : State) (v : CsrFields) : (s.setCsr v).fsm = s.fsm := rfl
@[simp] theorem State.setCsr_msg (s : State) (v : CsrFields) : (s.setCsr v).msg = s.msg := rfl
@[simp] theorem State.setCsr_buf (s : State) (v : CsrFields) : (s.setCsr v).buf = s.buf := rfl
@[simp] theorem State.setCsr_cnt (s : State) (v : CsrFields) : (s.setCsr v).cnt = s.cnt := rfl
@[simp] theorem State.setCsr_evts (s : State) (v : CsrFields) : (s.setCsr v).evts = s.evts := rfl
@[simp] theorem State.setCsr_inputs (s : State) (v : CsrFields) : (s.setCsr v).inputs = s.inputs := rfl

@[simp] theorem State.setDemod_csr (s : State) (v : DemodState) : (s.setDemod v).csr = s.csr := rfl
@[simp] theorem State.setDemod_demod (s : State) (v : DemodState) : (s.setDemod v).demod = v := rfl
@[simp] theorem State.setDemod_sync (s : State) (v : DemodState) : (s.setDemod v).sync = s.sync := rfl
@[simp] theorem State.setDemod_fsm (s : State) (v : DemodState) : (s.setDemod v).fsm = s.fsm := rfl
@[simp] theorem State.setDemod_msg (s : State) (v : DemodState) : (s.setDemod v).msg = s.msg := rfl
@[simp] theorem State.setDemod_buf (s : State) (v : DemodState) : (s.setDemod v).buf = s.buf := rfl
@[simp] theorem State.setDemod_cnt (s : State) (v : DemodState) : (s.setDemod v).cnt = s.cnt := rfl
@[simp] theorem State.setDemod_evts (s : State) (v : DemodState) : (s.setDemod v).evts = s.evts := rfl
@[simp] theorem State.setDemod_inputs (s : State) (v : DemodState) : (s.setDemod v).inputs = s.inputs := rfl

@[simp] theorem State.setSync_csr (s : State) (v : SyncState) : (s.setSync v).csr = s.csr := rfl
@[simp] theorem State.setSync_demod (s : State) (v : SyncState) : (s.setSync v).demod = s.demod := rfl
@[simp] theorem State.setSync_sync (s : State) (v : SyncState) : (s.setSync v).sync = v := rfl
@[simp] theorem State.setSync_fsm (s : State) (v : SyncState) : (s.setSync v).fsm = s.fsm := rfl
@[simp] theorem State.setSync_msg (s : State) (v : SyncState) : (s.setSync v).msg = s.msg := rfl
@[simp] theorem State.setSync_buf (s : State) (v : SyncState) : (s.setSync v).buf = s.buf := rfl
@[simp] theorem State.setSync_cnt (s : State) (v : SyncState) : (s.setSync v).cnt = s.cnt := rfl
@[simp] theorem State.setSync_evts (s : State) (v : SyncState) : (s.setSync v).evts = s.evts := rfl
@[simp] theorem State.setSync_inputs (s : State) (v : SyncState) : (s.setSync v).inputs = s.inputs := rfl

@[simp] theorem State.setFsm_csr (s : State) (v : Acquirer) : (s.setFsm v).csr = s.csr := rfl
@[simp] theorem State.setFsm_demod (s : State) (v : Acquirer) : (s.setFsm v).demod = s.demod := rfl
@[simp] theorem State.setFsm_sync (s : State) (v : Acquirer) : (s.setFsm v).sync = s.sync := rfl
@[simp] theorem State.setFsm_fsm (s : State) (v : Acquirer) : (s.setFsm v).fsm = v := rfl
@[simp] theorem State.setFsm_msg (s : State) (v : Acquirer) : (s.setFsm v).msg = s.msg := rfl
@[simp] theorem State.setFsm_buf (s : State) (v : Acquirer) : (s.setFsm v).buf = s.buf := rfl
@[simp] theorem State.setFsm_cnt (s : State) (v : Acquirer) : (s.setFsm v).cnt = s.cnt := rfl
@[simp] theorem State.setFsm_evts (s : State) (v : Acquirer) : (s.setFsm v).evts = s.evts := rfl
@[simp] theorem State.setFsm_inputs (s : State) (v : Acquirer) : (s.setFsm v).inputs = s.inputs := rfl

@[simp] theorem State.setMsg_csr (s : State) (v : MsgReg) : (s.setMsg v).csr = s.csr := rfl
@[simp] theorem State.setMsg_demod (s : State) (v : MsgReg) : (s.setMsg v).demod = s.demod := rfl
@[simp] theorem State.setMsg_sync (s : State) (v : MsgReg) : (s.setMsg v).sync = s.sync := rfl
@[simp] theorem State.setMsg_fsm (s : State) (v : MsgReg) : (s.setMsg v).fsm = s.fsm := rfl
@[simp] theorem State.setMsg_msg (s : State) (v : MsgReg) : (s.setMsg v).msg = v := rfl
@[simp] theorem State.setMsg_buf (s : State) (v : MsgReg) : (s.setMsg v).buf = s.buf := rfl
@[simp] theorem State.setMsg_cnt (s : State) (v : MsgReg) : (s.setMsg v).cnt = s.cnt := rfl
@[simp] theorem State.setMsg_evts (s : State) (v : MsgReg) : (s.setMsg v).evts = s.evts := rfl
@[simp] theorem State.setMsg_inputs (s : State) (v : MsgReg) : (s.setMsg v).inputs = s.inputs := rfl

@[simp] theorem State.setBuf_csr (s : State) (v : Memory) : (s.setBuf v).csr = s.csr := rfl
@[simp] theorem State.setBuf_demod (s : State) (v : Memory) : (s.setBuf v).demod = s.demod := rfl
@[simp] theorem State.setBuf_sync (s : State) (v : Memory) : (s.setBuf v).sync = s.sync := rfl
@[simp] theorem State.setBuf_fsm (s : State) (v : Memory) : (s.setBuf v).fsm = s.fsm := rfl
@[simp] theorem State.setBuf_msg (s : State) (v : Memory) : (s.setBuf v).msg = s.msg := rfl
@[simp] theorem State.setBuf_buf (s : State) (v : Memory) : (s.setBuf v).buf = v := rfl
@[simp] theorem State.setBuf_cnt (s : State) (v : Memory) : (s.setBuf v).cnt = s.cnt := rfl
@[simp] theorem State.setBuf_evts (s : State) (v : Memory) : (s.setBuf v).evts = s.evts := rfl
@[simp] theorem State.setBuf_inputs (s : State) (v : Memory) : (s.setBuf v).inputs = s.inputs := rfl

@[simp] theorem State.setCnt_csr (s : State) (v : Counters) : (s.setCnt v).csr = s.csr := rfl
@[simp] theorem State.setCnt_demod (s : State) (v : Counters) : (s.setCnt v).demod = s.demod := rfl
@[simp] theorem State.setCnt_sync (s : State) (v : Counters) : (s.setCnt v).sync = s.sync := rfl
@[simp] theorem State.setCnt_fsm (s : State) (v : Counters) : (s.setCnt v).fsm = s.fsm := rfl
@[simp] theorem State.setCnt_msg (s : State) (v : Counters) : (s.setCnt v).msg = s.msg := rfl
@[simp] theorem State.setCnt_buf (s : State) (v : Counters) : (s.setCnt v).buf = s.buf := rfl
@[simp] theorem State.setCnt_cnt (s : State) (v : Counters) : (s.setCnt v).cnt = v := rfl
@[simp] theorem State.setCnt_evts (s : State) (v : Counters) : (s.setCnt v).evts = s.evts := rfl
@[simp] theorem State.setCnt_inputs (s : State) (v : Counters) : (s.setCnt v).inputs = s.inputs := rfl

@[simp] theorem State.setEvts_csr (s : State) (v : List EvtWord) : (s.setEvts v).csr = s.csr := rfl
@[simp] theorem State.setEvts_demod (s : State) (v : List EvtWord) : (s.setEvts v).demod = s.demod := rfl
@[simp] theorem State.setEvts_sync (s : State) (v : List EvtWord) : (s.setEvts v).sync = s.sync := rfl
@[simp] theorem State.setEvts_fsm (s : State) (v : List EvtWord) : (s.setEvts v).fsm = s.fsm := rfl
@[simp] theorem State.setEvts_msg (s : State) (v : List EvtWord) : (s.setEvts v).msg = s.msg := rfl
@[simp] theorem State.setEvts_buf (s : State) (v : List EvtWord) : (s.setEvts v).buf = s.buf := rfl
@[simp] theorem State.setEvts_cnt (s : State) (v : List EvtWord) : (s.setEvts v).cnt = s.cnt := rfl
@[simp] theorem State.setEvts_evts (s : State) (v : List EvtWord) : (s.setEvts v).evts = v := rfl
@[simp] theorem State.setEvts_inputs (s : State) (v : List EvtWord) : (s.setEvts v).inputs = s.inputs := rfl

@[simp] theorem State.setInputs_csr (s : State) (v : List Input) : (s.setInputs v).csr = s.csr := rfl
@[simp] theorem State.setInputs_demod (s : State) (v : List Input) : (s.setInputs v).demod = s.demod := rfl
@[simp] theorem State.setInputs_sync (s : State) (v : List Input) : (s.setInputs v).sync = s.sync := rfl
@[simp] theorem State.setInputs_fsm (s : State) (v : List Input) : (s.setInputs v).fsm = s.fsm := rfl
@[simp] theorem State.setInputs_msg (s : State) (v : List Input) : (s.setInputs v).msg = s.msg := rfl
@[simp] theorem State.setInputs_buf (s : State) (v : List Input) : (s.setInputs v).buf = s.buf := rfl
@[simp] theorem State.setInputs_cnt (s : State) (v : List Input) : (s.setInputs v).cnt = s.cnt := rfl
@[simp] theorem State.setInputs_evts (s : State) (v : List Input) : (s.setInputs v).evts = s.evts := rfl
@[simp] theorem State.setInputs_inputs (s : State) (v : List Input) : (s.setInputs v).inputs = v := rfl

@[simp] theorem State.emit_csr (s : State) (e : Event) : (s.emit e).csr = s.csr := rfl
@[simp] theorem State.emit_demod (s : State) (e : Event) : (s.emit e).demod = s.demod := rfl
@[simp] theorem State.emit_sync (s : State) (e : Event) : (s.emit e).sync = s.sync := rfl
@[simp] theorem State.emit_fsm (s : State) (e : Event) : (s.emit e).fsm = s.fsm := rfl
@[simp] theorem State.emit_msg (s : State) (e : Event) : (s.emit e).msg = s.msg := rfl
@[simp] theorem State.emit_buf (s : State) (e : Event) : (s.emit e).buf = s.buf := rfl
@[simp] theorem State.emit_cnt (s : State) (e : Event) : (s.emit e).cnt = s.cnt := rfl
@[simp] theorem State.emit_evts (s : State) (e : Event) : (s.emit e).evts = s.evts ++ [e.word] := rfl
@[simp] theorem State.emit_inputs (s : State) (e : Event) : (s.emit e).inputs = s.inputs := rfl

@[simp] theorem State.emitAll_csr (s : State) (es : List Event) : (s.emitAll es).csr = s.csr := rfl
@[simp] theorem State.emitAll_demod (s : State) (es : List Event) : (s.emitAll es).demod = s.demod := rfl
@[simp] theorem State.emitAll_sync (s : State) (es : List Event) : (s.emitAll es).sync = s.sync := rfl
@[simp] theorem State.emitAll_fsm (s : State) (es : List Event) : (s.emitAll es).fsm = s.fsm := rfl
@[simp] theorem State.emitAll_msg (s : State) (es : List Event) : (s.emitAll es).msg = s.msg := rfl
@[simp] theorem State.emitAll_buf (s : State) (es : List Event) : (s.emitAll es).buf = s.buf := rfl
@[simp] theorem State.emitAll_cnt (s : State) (es : List Event) : (s.emitAll es).cnt = s.cnt := rfl
@[simp] theorem State.emitAll_evts (s : State) (es : List Event) : (s.emitAll es).evts = s.evts ++ es.map Event.word := rfl
@[simp] theorem State.emitAll_inputs (s : State) (es : List Event) : (s.emitAll es).inputs = s.inputs := rfl

@[simp] theorem State.inc_csr (s : State) (c : Counter) (n : Word) : (s.inc c n).csr = s.csr := rfl
@[simp] theorem State.inc_demod (s : State) (c : Counter) (n : Word) : (s.inc c n).demod = s.demod := rfl
@[simp] theorem State.inc_sync (s : State) (c : Counter) (n : Word) : (s.inc c n).sync = s.sync := rfl
@[simp] theorem State.inc_fsm (s : State) (c : Counter) (n : Word) : (s.inc c n).fsm = s.fsm := rfl
@[simp] theorem State.inc_msg (s : State) (c : Counter) (n : Word) : (s.inc c n).msg = s.msg := rfl
@[simp] theorem State.inc_buf (s : State) (c : Counter) (n : Word) : (s.inc c n).buf = s.buf := rfl
@[simp] theorem State.inc_cnt (s : State) (c : Counter) (n : Word) : (s.inc c n).cnt = s.cnt.add n c := rfl
@[simp] theorem State.inc_evts (s : State) (c : Counter) (n : Word) : (s.inc c n).evts = s.evts := rfl
@[simp] theorem State.inc_inputs (s : State) (c : Counter) (n : Word) : (s.inc c n).inputs = s.inputs := rfl

@[simp] theorem raiseIllegal_csr (cause : Cause) (op addr : Byte) (s : State) :
    (raiseIllegal cause op addr s).csr = s.csr := rfl
@[simp] theorem raiseIllegal_demod (cause : Cause) (op addr : Byte) (s : State) :
    (raiseIllegal cause op addr s).demod = s.demod := rfl
@[simp] theorem raiseIllegal_sync (cause : Cause) (op addr : Byte) (s : State) :
    (raiseIllegal cause op addr s).sync = s.sync := rfl
@[simp] theorem raiseIllegal_fsm (cause : Cause) (op addr : Byte) (s : State) :
    (raiseIllegal cause op addr s).fsm = s.fsm := rfl
@[simp] theorem raiseIllegal_msg (cause : Cause) (op addr : Byte) (s : State) :
    (raiseIllegal cause op addr s).msg = s.msg := rfl
@[simp] theorem raiseIllegal_buf (cause : Cause) (op addr : Byte) (s : State) :
    (raiseIllegal cause op addr s).buf = s.buf := rfl
@[simp] theorem raiseIllegal_cnt (cause : Cause) (op addr : Byte) (s : State) :
    (raiseIllegal cause op addr s).cnt = s.cnt.add 1 .illegal := rfl
@[simp] theorem raiseIllegal_evts (cause : Cause) (op addr : Byte) (s : State) :
    (raiseIllegal cause op addr s).evts = s.evts ++ [(Event.illegal addr op cause).word] := rfl
@[simp] theorem raiseIllegal_inputs (cause : Cause) (op addr : Byte) (s : State) :
    (raiseIllegal cause op addr s).inputs = s.inputs := rfl

@[simp] theorem softReset_csr (s : State) : (softReset s).csr = s.csr := rfl
@[simp] theorem softReset_demod (s : State) : (softReset s).demod = .reset := rfl
@[simp] theorem softReset_sync (s : State) : (softReset s).sync = .reset := rfl
@[simp] theorem softReset_fsm (s : State) : (softReset s).fsm = .reset := rfl
@[simp] theorem softReset_msg (s : State) : (softReset s).msg = .closed := rfl
@[simp] theorem softReset_buf (s : State) : (softReset s).buf = s.buf := rfl
@[simp] theorem softReset_cnt (s : State) : (softReset s).cnt = .zero := rfl
@[simp] theorem softReset_evts (s : State) : (softReset s).evts = s.evts := rfl
@[simp] theorem softReset_inputs (s : State) : (softReset s).inputs = s.inputs := rfl

@[simp] theorem hardwareReset_csr (s : State) : (hardwareReset s).csr = .reset := rfl
@[simp] theorem hardwareReset_demod (s : State) : (hardwareReset s).demod = .reset := rfl
@[simp] theorem hardwareReset_sync (s : State) : (hardwareReset s).sync = .reset := rfl
@[simp] theorem hardwareReset_fsm (s : State) : (hardwareReset s).fsm = .reset := rfl
@[simp] theorem hardwareReset_msg (s : State) : (hardwareReset s).msg = .closed := rfl
@[simp] theorem hardwareReset_buf (s : State) : (hardwareReset s).buf = [] := rfl
@[simp] theorem hardwareReset_cnt (s : State) : (hardwareReset s).cnt = .zero := rfl
@[simp] theorem hardwareReset_evts (s : State) : (hardwareReset s).evts = [] := rfl
@[simp] theorem hardwareReset_inputs (s : State) : (hardwareReset s).inputs = s.inputs := rfl

@[simp] theorem takeEvent_csr (s : State) : (takeEvent s).csr = s.csr := rfl
@[simp] theorem takeEvent_demod (s : State) : (takeEvent s).demod = s.demod := rfl
@[simp] theorem takeEvent_sync (s : State) : (takeEvent s).sync = s.sync := rfl
@[simp] theorem takeEvent_fsm (s : State) : (takeEvent s).fsm = s.fsm := rfl
@[simp] theorem takeEvent_msg (s : State) : (takeEvent s).msg = s.msg := rfl
@[simp] theorem takeEvent_buf (s : State) : (takeEvent s).buf = s.buf := rfl
@[simp] theorem takeEvent_cnt (s : State) : (takeEvent s).cnt = s.cnt := rfl
@[simp] theorem takeEvent_evts (s : State) : (takeEvent s).evts = s.evts.drop 1 := rfl
@[simp] theorem takeEvent_inputs (s : State) : (takeEvent s).inputs = s.inputs := rfl

/-- Two states are equal when all their parts are. -/
@[ext] theorem State.ext_parts {s t : State} (hcsr : s.csr = t.csr) (hdemod : s.demod = t.demod)
    (hsync : s.sync = t.sync) (hfsm : s.fsm = t.fsm) (hmsg : s.msg = t.msg) (hbuf : s.buf = t.buf)
    (hcnt : s.cnt = t.cnt) (hevts : s.evts = t.evts) (hinputs : s.inputs = t.inputs) : s = t := by
  cases s
  cases t
  simp_all

/-! ### Counters -/

@[simp] theorem Counters.get_add_same (k : Counters) (n : Word) (c : Counter) :
    (k.add n c).get c = k.get c + n := by
  cases c <;> rfl

theorem Counters.get_add_other (k : Counters) (n : Word) {c d : Counter} (h : d ≠ c) :
    (k.add n c).get d = k.get d := by
  cases c <;> cases d <;> first | rfl | exact absurd rfl h

@[simp] theorem Counters.get_zero (c : Counter) : Counters.zero.get c = 0 := by
  cases c <;> rfl

/-- Counters that read alike are equal. -/
theorem Counters.ext_get {k l : Counters} (h : ∀ c, k.get c = l.get c) : k = l := by
  have h1 := h .samples; have h2 := h .bits; have h3 := h .cwClean; have h4 := h .cwFixed
  have h5 := h .cwUncorr; have h6 := h .syncAcq; have h7 := h .syncLost; have h8 := h .batch
  have h9 := h .msg; have h10 := h .trunc; have h11 := h .illegal; have h12 := h .overrun
  cases k
  cases l
  simp_all [Counters.get]

/-! ### The ports -/

theorem State.nextInput_nil {s : State} (h : s.inputs = []) : s.nextInput = none := by
  simp [State.nextInput, h]

theorem State.nextInput_cons {s : State} {x : Input} {rest : List Input} (h : s.inputs = x :: rest) :
    s.nextInput = some (x, s.setInputs rest) := by
  simp [State.nextInput, h]

/-- What serving the host once does, whatever the commands mean: it waits, performs a command, refuses
a word, hands out an event or resets. -/
theorem serveInput_cases (meaning : Meaning) (s : State) :
    (s.inputs = [] ∧ serveInput meaning s = .next s) ∨
    (∃ w i rest, s.inputs = .command w :: rest ∧ decode w = .command i ∧
      serveInput meaning s = meaning i (s.setInputs rest)) ∨
    (∃ w r rest, s.inputs = .command w :: rest ∧ decode w = .rejected r ∧
      serveInput meaning s = .next (refuseWord r w (s.setInputs rest))) ∨
    (∃ rest, s.inputs = .takeEvent :: rest ∧
      serveInput meaning s = .next (takeEvent (s.setInputs rest))) ∨
    (∃ rest, s.inputs = .hardReset :: rest ∧
      serveInput meaning s = .next (hardwareReset (s.setInputs rest))) := by
  cases h : s.inputs with
  | nil => exact .inl ⟨rfl, by simp [serveInput, State.nextInput_nil h]⟩
  | cons x rest =>
    right
    cases x with
    | command w =>
      cases hd : decode w with
      | command i =>
        exact .inl ⟨w, i, rest, rfl, hd, by
          simp [serveInput, State.nextInput_cons h, performWith, hd]⟩
      | rejected r =>
        exact .inr (.inl ⟨w, r, rest, rfl, hd, by
          simp [serveInput, State.nextInput_cons h, performWith, hd]⟩)
    | takeEvent => exact .inr (.inr (.inl ⟨rest, rfl, by simp [serveInput, State.nextInput_cons h]⟩))
    | hardReset => exact .inr (.inr (.inr ⟨rest, rfl, by simp [serveInput, State.nextInput_cons h]⟩))

/-- What one step does: it waits, performs a command, refuses a word, hands out an event or resets. -/
theorem step_cases (s : State) :
    (s.inputs = [] ∧ step s = .next s) ∨
    (∃ w i rest, s.inputs = .command w :: rest ∧ decode w = .command i ∧
      step s = exec i (s.setInputs rest)) ∨
    (∃ w r rest, s.inputs = .command w :: rest ∧ decode w = .rejected r ∧
      step s = .next (refuseWord r w (s.setInputs rest))) ∨
    (∃ rest, s.inputs = .takeEvent :: rest ∧ step s = .next (takeEvent (s.setInputs rest))) ∨
    (∃ rest, s.inputs = .hardReset :: rest ∧ step s = .next (hardwareReset (s.setInputs rest))) :=
  serveInput_cases exec s

/-- An operation's answer is a next state exactly when it succeeds. -/
@[simp] theorem answer_eq_next {r : Except Fault State} {t : State} :
    answer r = .next t ↔ r = .ok t := by
  cases r <;> simp [answer]

@[simp] theorem answer_ok (t : State) : answer (.ok t) = .next t := rfl

end Sys2Proof.Machine
end

