-- ==== Sys2Proof/Laws/Parser.lean ====
section
/-! SUPPORT. What each operation of the parser does when it answers a state. -/

namespace Sys2Proof.Machine

/-- The events of a message of `n` characters from index `k` (44 R224). -/
def charsFrom (m : Memory) (k n : Nat) : List Event :=
  (List.range' k n).map fun j => .msgChar (BitVec.ofNat 16 j) (m.read j)

/-- The events of a whole message (44 R224). -/
def messageEvents (m : MsgReg) (buf : Memory) : List Event :=
  headerEvent m :: (charsFrom buf 0 m.nc ++ [.msgEnd (BitVec.ofNat 16 m.nc)])

/-- The state a message leaves when it is handed out (44 R224). -/
def finalized (s : State) : State :=
  (countMessage s.msg.trunc (s.emitAll (messageEvents s.msg s.buf))).setMsg .closed

theorem charEvents_ok {cfg : Config} {m : Memory} : ∀ {n k : Nat} {es : List Event},
    charEvents cfg m k n = .ok es ↔ (n = 0 ∨ k + n ≤ cfg.maxCap) ∧ es = charsFrom m k n
  | 0, k, es => by simp [charEvents, charsFrom, eq_comm]
  | n + 1, k, es => by
    unfold charEvents memRead
    by_cases hk : k < cfg.maxCap
    · simp only [hk, if_true]
      cases h : charEvents cfg m (k + 1) n with
      | error f =>
        have hn : ¬ ((n = 0 ∨ k + 1 + n ≤ cfg.maxCap) ∧ charsFrom m (k + 1) n = charsFrom m (k + 1) n) :=
          fun hc => by rw [charEvents_ok.mpr hc] at h; cases h
        simp only [and_true] at hn
        simp only [reduceCtorEq, false_or, false_iff]
        rintro ⟨h1, -⟩
        omega
      | ok fs =>
        obtain ⟨h1, rfl⟩ := charEvents_ok.mp h
        simp only [Except.ok.injEq, charsFrom, List.range'_succ, List.map_cons]
        constructor
        · rintro rfl
          exact ⟨by omega, rfl⟩
        · rintro ⟨-, rfl⟩; rfl
    · simp only [hk, if_false, reduceCtorEq, false_or, false_iff]
      rintro ⟨h1, -⟩
      omega

/-- `Finalize` answers exactly when every character is a byte of the buffer. -/
theorem finalize_ok {cfg : Config} {s t : State} :
    finalize cfg s = .ok t ↔ s.msg.nc ≤ cfg.maxCap ∧ t = finalized s := by
  unfold finalize
  cases h : charEvents cfg s.buf 0 s.msg.nc with
  | error f =>
    simp only [reduceCtorEq, false_iff]
    rintro ⟨h1, -⟩
    rw [charEvents_ok.mpr ⟨.inr (by omega), rfl⟩] at h
    cases h
  | ok es =>
    obtain ⟨h1, rfl⟩ := charEvents_ok.mp h
    simp only [Except.ok.injEq, finalized, messageEvents]
    constructor
    · rintro rfl; exact ⟨by omega, rfl⟩
    · rintro ⟨-, rfl⟩; rfl

@[simp] theorem countMessage_csr (b : Bool) (s : State) : (countMessage b s).csr = s.csr := by
  cases b <;> rfl
@[simp] theorem countMessage_demod (b : Bool) (s : State) : (countMessage b s).demod = s.demod := by
  cases b <;> rfl
@[simp] theorem countMessage_sync (b : Bool) (s : State) : (countMessage b s).sync = s.sync := by
  cases b <;> rfl
@[simp] theorem countMessage_fsm (b : Bool) (s : State) : (countMessage b s).fsm = s.fsm := by
  cases b <;> rfl
@[simp] theorem countMessage_msg (b : Bool) (s : State) : (countMessage b s).msg = s.msg := by
  cases b <;> rfl
@[simp] theorem countMessage_buf (b : Bool) (s : State) : (countMessage b s).buf = s.buf := by
  cases b <;> rfl
@[simp] theorem countMessage_evts (b : Bool) (s : State) : (countMessage b s).evts = s.evts := by
  cases b <;> rfl
@[simp] theorem countMessage_inputs (b : Bool) (s : State) : (countMessage b s).inputs = s.inputs := by
  cases b <;> rfl

/-- The counters of a message (44 R224). -/
theorem countMessage_cnt (b : Bool) (s : State) :
    (countMessage b s).cnt =
      if b then (s.cnt.add 1 .msg).add 1 .trunc else s.cnt.add 1 .msg := by
  cases b <;> rfl

@[simp] theorem finalized_csr (s : State) : (finalized s).csr = s.csr := by simp [finalized]
@[simp] theorem finalized_demod (s : State) : (finalized s).demod = s.demod := by simp [finalized]
@[simp] theorem finalized_sync (s : State) : (finalized s).sync = s.sync := by simp [finalized]
@[simp] theorem finalized_fsm (s : State) : (finalized s).fsm = s.fsm := by simp [finalized]
@[simp] theorem finalized_msg (s : State) : (finalized s).msg = .closed := by simp [finalized]
@[simp] theorem finalized_buf (s : State) : (finalized s).buf = s.buf := by simp [finalized]
@[simp] theorem finalized_inputs (s : State) : (finalized s).inputs = s.inputs := by simp [finalized]
@[simp] theorem finalized_evts (s : State) :
    (finalized s).evts = s.evts ++ (messageEvents s.msg s.buf).map Event.word := by simp [finalized]
theorem finalized_cnt (s : State) :
    (finalized s).cnt =
      if s.msg.trunc then (s.cnt.add 1 .msg).add 1 .trunc else s.cnt.add 1 .msg := by
  simp [finalized, countMessage_cnt]

theorem messageEvents_length (m : MsgReg) (buf : Memory) :
    (messageEvents m buf).length = m.nc + 2 := by
  simp [messageEvents, charsFrom]

/-- Closing the open message, if any. -/
theorem finalizeIfOpen_ok {cfg : Config} {s t : State} :
    finalizeIfOpen cfg s = .ok t ↔
      (s.msg.isOpen = true ∧ s.msg.nc ≤ cfg.maxCap ∧ t = finalized s) ∨
      (s.msg.isOpen = false ∧ t = s) := by
  unfold finalizeIfOpen
  cases s.msg.isOpen
  · simp [eq_comm]
  · simp [finalize_ok]

/-- The state with a unit's character appended (44 R219, R220). -/
def appended (u : BitVec 7) (s : State) : State :=
  (s.setBuf (s.buf.write s.msg.nc (unitChar s.msg.kind s.csr.placeholder u))).setMsg
    { s.msg with bits := 0, nb := 0, nc := s.msg.nc + 1 }

/-- The message register of a truncated message as it is handed out (44 R219, R223). -/
def truncatedMsg (m : MsgReg) : MsgReg :=
  { m with bits := 0, nb := 0, trunc := true }

/-- A complete unit is appended below the capacity and truncates the message at it (44 R219, R223). -/
theorem appendUnit_ok {cfg : Config} {u : BitVec 7} {s t : State} :
    appendUnit cfg u s = .ok t ↔
      (s.csr.cap.toNat ≤ s.msg.nc ∧ s.msg.nc ≤ cfg.maxCap ∧
        t = finalized (s.setMsg (truncatedMsg s.msg))) ∨
      (s.msg.nc < s.csr.cap.toNat ∧ s.msg.nc < cfg.maxCap ∧ t = appended u s) := by
  unfold appendUnit
  split
  · rename_i h
    rw [finalize_ok]
    simp only [State.setMsg_msg, truncatedMsg]
    constructor
    · rintro ⟨h1, rfl⟩; exact .inl ⟨h, h1, rfl⟩
    · rintro (⟨-, h1, rfl⟩ | ⟨h1, -, -⟩)
      · exact ⟨h1, rfl⟩
      · omega
  · rename_i h
    cases hw : memWrite cfg s.buf s.msg.nc (unitChar s.msg.kind s.csr.placeholder u) with
    | error f =>
      simp only [reduceCtorEq, false_iff]
      rintro (⟨h1, -⟩ | ⟨-, h1, -⟩)
      · exact h h1
      · rw [memWrite_ok.mpr ⟨h1, rfl⟩] at hw; cases hw
    | ok m =>
      obtain ⟨h1, rfl⟩ := memWrite_ok.mp hw
      simp only [Except.ok.injEq, appended]
      constructor
      · rintro rfl; exact .inr ⟨by omega, h1, rfl⟩
      · rintro (⟨h2, -⟩ | ⟨-, -, rfl⟩)
        · exact absurd h2 h
        · rfl

/-- One payload bit: it completes a unit or waits in it (44 R219). -/
theorem accum_ok {cfg : Config} {b : Bool} {s t : State} :
    accum cfg b s = .ok t ↔
      (s.msg.nb + 1 = s.msg.kind.width ∧ appendUnit cfg (addBit s.msg b) s = .ok t) ∨
      (s.msg.nb + 1 ≠ s.msg.kind.width ∧
        t = s.setMsg { s.msg with bits := addBit s.msg b, nb := s.msg.nb + 1 }) := by
  unfold accum
  split
  · rename_i h; simp [h]
  · rename_i h
    simp only [Except.ok.injEq, h, false_and, ne_eq, not_false_eq_true, true_and, false_or]
    exact eq_comm

/-- What no operation of the parser touches: everything but the message register, the buffer, the
counters and the events. -/
def ParserKeeps (s t : State) : Prop :=
  t.csr = s.csr ∧ t.demod = s.demod ∧ t.sync = s.sync ∧ t.fsm = s.fsm ∧ t.inputs = s.inputs

theorem ParserKeeps.refl (s : State) : ParserKeeps s s := ⟨rfl, rfl, rfl, rfl, rfl⟩

theorem ParserKeeps.trans {s t u : State} (h : ParserKeeps s t) (k : ParserKeeps t u) :
    ParserKeeps s u :=
  ⟨k.1.trans h.1, k.2.1.trans h.2.1, k.2.2.1.trans h.2.2.1, k.2.2.2.1.trans h.2.2.2.1,
    k.2.2.2.2.trans h.2.2.2.2⟩

theorem finalizeIfOpen_keeps {cfg : Config} {s t : State} (h : finalizeIfOpen cfg s = .ok t) :
    ParserKeeps s t := by
  rcases finalizeIfOpen_ok.mp h with ⟨-, -, rfl⟩ | ⟨-, rfl⟩
  · simp [ParserKeeps]
  · exact .refl _

theorem accum_keeps {cfg : Config} {b : Bool} {s t : State} (h : accum cfg b s = .ok t) :
    ParserKeeps s t := by
  rcases accum_ok.mp h with ⟨-, h⟩ | ⟨-, rfl⟩
  · rcases appendUnit_ok.mp h with ⟨-, -, rfl⟩ | ⟨-, -, rfl⟩ <;> simp [ParserKeeps, appended]
  · simp [ParserKeeps]

/-- One more bit, then the rest while the message is open (44 R211). -/
theorem accumBits_cons {cfg : Config} {b : Bool} {bs : List Bool} {s t : State} :
    accumBits cfg (b :: bs) s = .ok t ↔
      ∃ u, accum cfg b s = .ok u ∧
        ((u.msg.isOpen = true ∧ accumBits cfg bs u = .ok t) ∨ (u.msg.isOpen = false ∧ t = u)) := by
  conv_lhs => unfold accumBits
  cases accum cfg b s with
  | error f => simp
  | ok u =>
    cases hu : u.msg.isOpen
    · simp only [Bool.false_eq_true, if_false, Except.ok.injEq, exists_eq_left', hu, false_and,
        true_and, false_or]
      exact eq_comm
    · simp [hu]

theorem accumBits_keeps {cfg : Config} : ∀ {bs : List Bool} {s t : State},
    accumBits cfg bs s = .ok t → ParserKeeps s t
  | [], s, t, h => by
    simp only [accumBits, Except.ok.injEq] at h
    exact h ▸ .refl _
  | b :: bs, s, t, h => by
    obtain ⟨u, hu, ⟨-, h⟩ | ⟨-, rfl⟩⟩ := accumBits_cons.mp h
    · exact (accum_keeps hu).trans (accumBits_keeps h)
    · exact accum_keeps hu

/-- An address closes the open message and opens its own (44 R215). -/
theorem parseAddress_ok {cfg : Config} {c : Word} {slot : BitVec 4} {s t : State} :
    parseAddress cfg c slot s = .ok t ↔
      ∃ u, finalizeIfOpen cfg s = .ok u ∧ t = u.setMsg (openedMessage s.csr.kindMap c slot) := by
  unfold parseAddress
  cases h : finalizeIfOpen cfg s with
  | error f => simp
  | ok u =>
    have := (finalizeIfOpen_keeps h).1
    simp [this, eq_comm]

/-- The four classes of a corrected codeword, in their order (44 R211). -/
theorem parse_ok {cfg : Config} {c : Word} {slot : BitVec 4} {s t : State}
    (h : parse cfg c slot s = .ok t) :
    (c = idleWord ∧ finalizeIfOpen cfg s = .ok t) ∨
    (c = syncWord ∧ t = s) ∨
    (isMessageWord c = true ∧ s.msg.isOpen = false ∧ t = s) ∨
    (isMessageWord c = true ∧ s.msg.isOpen = true ∧ accumBits cfg (payloadBits c) s = .ok t) ∨
    (c ≠ idleWord ∧ c ≠ syncWord ∧ isMessageWord c = false ∧ parseAddress cfg c slot s = .ok t) := by
  unfold parse at h
  split at h
  · rename_i hc; exact .inl ⟨hc, h⟩
  · split at h
    · rename_i hc; cases h; exact .inr (.inl ⟨hc, rfl⟩)
    · split at h
      · rename_i hm
        cases ho : s.msg.isOpen
        · rw [ho] at h
          cases h
          exact .inr (.inr (.inl ⟨hm, rfl, rfl⟩))
        · rw [ho] at h
          exact .inr (.inr (.inr (.inl ⟨hm, rfl, h⟩)))
      · rename_i h1 h2 h3
        exact .inr (.inr (.inr (.inr ⟨h1, h2, by simpa using h3, h⟩)))

theorem parse_keeps {cfg : Config} {c : Word} {slot : BitVec 4} {s t : State}
    (h : parse cfg c slot s = .ok t) : ParserKeeps s t := by
  rcases parse_ok h with ⟨-, h⟩ | ⟨-, rfl⟩ | ⟨-, -, rfl⟩ | ⟨-, -, h⟩ | ⟨-, -, -, h⟩
  · exact finalizeIfOpen_keeps h
  · exact .refl _
  · exact .refl _
  · exact accumBits_keeps h
  · obtain ⟨u, hu, rfl⟩ := parseAddress_ok.mp h
    exact (finalizeIfOpen_keeps hu).trans ⟨rfl, rfl, rfl, rfl, rfl⟩

end Sys2Proof.Machine
end

