-- ==== Sys2Proof/Laws/Framing.lean ====
section
/-! SUPPORT. What each operation of the frame acquirer does when it answers a state. -/

namespace Sys2Proof.Machine

@[simp] theorem markUncorrectable_csr (s : State) : (markUncorrectable s).csr = s.csr := by
  unfold markUncorrectable; split <;> rfl
@[simp] theorem markUncorrectable_demod (s : State) : (markUncorrectable s).demod = s.demod := by
  unfold markUncorrectable; split <;> rfl
@[simp] theorem markUncorrectable_sync (s : State) : (markUncorrectable s).sync = s.sync := by
  unfold markUncorrectable; split <;> rfl
@[simp] theorem markUncorrectable_fsm (s : State) : (markUncorrectable s).fsm = s.fsm := by
  unfold markUncorrectable; split <;> rfl
@[simp] theorem markUncorrectable_buf (s : State) : (markUncorrectable s).buf = s.buf := by
  unfold markUncorrectable; split <;> rfl
@[simp] theorem markUncorrectable_cnt (s : State) :
    (markUncorrectable s).cnt = s.cnt.add 1 .cwUncorr := by
  unfold markUncorrectable; split <;> rfl
@[simp] theorem markUncorrectable_evts (s : State) : (markUncorrectable s).evts = s.evts := by
  unfold markUncorrectable; split <;> rfl
@[simp] theorem markUncorrectable_inputs (s : State) : (markUncorrectable s).inputs = s.inputs := by
  unfold markUncorrectable; split <;> rfl

/-- The mark an uncorrectable word leaves on the open message (42 R168). -/
theorem markUncorrectable_msg (s : State) :
    (markUncorrectable s).msg = if s.msg.isOpen then { s.msg with err := true } else s.msg := by
  unfold markUncorrectable; split <;> rfl

@[simp] theorem countCorrected_csr (n : BitVec 2) (f : Bool) (s : State) :
    (countCorrected n f s).csr = s.csr := by cases f <;> rfl
@[simp] theorem countCorrected_demod (n : BitVec 2) (f : Bool) (s : State) :
    (countCorrected n f s).demod = s.demod := by cases f <;> rfl
@[simp] theorem countCorrected_sync (n : BitVec 2) (f : Bool) (s : State) :
    (countCorrected n f s).sync = s.sync := by cases f <;> rfl
@[simp] theorem countCorrected_msg (n : BitVec 2) (f : Bool) (s : State) :
    (countCorrected n f s).msg = s.msg := by cases f <;> rfl
@[simp] theorem countCorrected_buf (n : BitVec 2) (f : Bool) (s : State) :
    (countCorrected n f s).buf = s.buf := by cases f <;> rfl
@[simp] theorem countCorrected_cnt (n : BitVec 2) (f : Bool) (s : State) :
    (countCorrected n f s).cnt = s.cnt.add 1 (correctedCounter n) := by cases f <;> rfl
@[simp] theorem countCorrected_evts (n : BitVec 2) (f : Bool) (s : State) :
    (countCorrected n f s).evts = s.evts := by cases f <;> rfl
@[simp] theorem countCorrected_inputs (n : BitVec 2) (f : Bool) (s : State) :
    (countCorrected n f s).inputs = s.inputs := by cases f <;> rfl

/-- The error window a corrected word leaves (42 R168). -/
theorem countCorrected_fsm (n : BitVec 2) (f : Bool) (s : State) :
    (countCorrected n f s).fsm = if f then pushErr s.fsm false else s.fsm := by cases f <;> rfl

/-- Loss of sync: the open message handed out, then the framing cleared (42 R170). -/
theorem loseSync_ok {cfg : Config} {reason : LossReason} {s t : State} :
    loseSync cfg reason s = .ok t ↔
      ∃ u, finalizeIfOpen cfg s = .ok u ∧
        t = ((u.setFsm (reframe s.fsm .searchPreambleStart)).inc .syncLost 1).emit
          (.syncLost reason) := by
  unfold loseSync
  cases h : finalizeIfOpen cfg s with
  | error f => simp
  | ok u =>
    have := (finalizeIfOpen_keeps h).2.2.2.1
    simp [this, eq_comm]

/-- The error window after an uncorrectable word (42 R169). -/
theorem windowFailure_ok {cfg : Config} {s t : State} :
    windowFailure cfg s = .ok t ↔
      (s.csr.errLimit.toNat < popcount (pushErr s.fsm true).errHist ∧
        loseSync cfg .errorRate (s.setFsm (pushErr s.fsm true)) = .ok t) ∨
      (popcount (pushErr s.fsm true).errHist ≤ s.csr.errLimit.toNat ∧
        t = s.setFsm (pushErr s.fsm true)) := by
  unfold windowFailure
  split
  · rename_i h; simp [h]
  · rename_i h
    simp only [Except.ok.injEq, h, false_and, not_lt.mp h, true_and, false_or]
    exact eq_comm

/-- A data word: corrected and parsed, or uncorrectable (42 R168). -/
theorem dataWord_ok {cfg : Config} {w : Word} {slot : BitVec 4} {f : Bool} {s t : State} :
    dataWord cfg w slot f s = .ok t ↔
      ((correct w).ok = true ∧
        parse cfg (correct w).word slot (countCorrected (correct w).flips f s) = .ok t) ∨
      ((correct w).ok = false ∧ f = true ∧ windowFailure cfg (markUncorrectable s) = .ok t) ∨
      ((correct w).ok = false ∧ f = false ∧ t = markUncorrectable s) := by
  unfold dataWord
  cases (correct w).ok
  · cases f
    · simp [eq_comm]
    · simp
  · simp

/-- An expected sync word missed (42 R167). -/
theorem missSync_ok {cfg : Config} {s t : State} :
    missSync cfg s = .ok t ↔
      (s.csr.syncMissLimit.toNat < (countMiss s.fsm.miss).toNat ∧
        loseSync cfg .syncMissed (s.setFsm { s.fsm with miss := countMiss s.fsm.miss }) = .ok t) ∨
      ((countMiss s.fsm.miss).toNat ≤ s.csr.syncMissLimit.toNat ∧
        t = (s.setFsm { s.fsm with miss := countMiss s.fsm.miss, cwIndex := 0 }).emit
          (.syncMiss (countMiss s.fsm.miss))) := by
  unfold missSync
  split
  · rename_i h; simp [h]
  · rename_i h
    simp only [Except.ok.injEq, h, false_and, not_lt.mp h, true_and, false_or]
    exact eq_comm

/-- A whole word in SYNCHED: the expected sync word found or missed, or a data word (42 R166). -/
theorem synchedWord_ok {cfg : Config} {w : Word} {s t : State}
    (h : synchedWord cfg w s = .ok t) :
    (s.fsm.cwIndex = 16 ∧ (correct w).ok = true ∧ (correct w).word = syncWord ∧
      t = acceptSync (correct w).flips s) ∨
    (s.fsm.cwIndex = 16 ∧ ¬ ((correct w).ok = true ∧ (correct w).word = syncWord) ∧
      missSync cfg s = .ok t) ∨
    (s.fsm.cwIndex ≠ 16 ∧
      dataWord cfg w (BitVec.ofNat 4 s.fsm.cwIndex) true
        (s.setFsm { s.fsm with cwIndex := s.fsm.cwIndex + 1 }) = .ok t) := by
  unfold synchedWord at h
  split at h
  · rename_i hi
    split at h
    · rename_i hc
      cases h
      exact .inl ⟨hi, hc.1, hc.2, rfl⟩
    · rename_i hc
      exact .inr (.inl ⟨hi, hc, h⟩)
  · rename_i hi
    exact .inr (.inr ⟨hi, h⟩)

/-- One bit, by the state it finds (42 R161). -/
theorem fsmBit_ok {cfg : Config} {b : Bool} {s t : State} (h : fsmBit cfg b s = .ok t) :
    (s.fsm.state = .searchPreambleStart ∧ t = stepPreambleStart (recordBit b s)) ∨
    (s.fsm.state = .searchPreambleEnd ∧
      t = stepPreambleEnd (runBreaks s.fsm b) s.fsm.altRun (recordBit b s)) ∨
    (s.fsm.state = .searchSync ∧ t = stepSearchSync (recordBit b s)) ∨
    (s.fsm.state = .synched ∧ s.fsm.bitcnt = 31 ∧
      synchedWord cfg (pushBit s.fsm b).sr
        ((recordBit b s).setFsm { pushBit s.fsm b with bitcnt := 0 }) = .ok t) ∨
    (s.fsm.state = .synched ∧ s.fsm.bitcnt ≠ 31 ∧
      t = (recordBit b s).setFsm { pushBit s.fsm b with bitcnt := s.fsm.bitcnt + 1 }) := by
  unfold fsmBit at h
  cases hs : s.fsm.state <;> rw [hs] at h
  · cases h; simp
  · cases h; simp
  · cases h; simp
  · simp only [stepSynched] at h
    have hb : (recordBit b s).fsm.bitcnt = s.fsm.bitcnt := rfl
    rw [hb] at h
    by_cases hc : s.fsm.bitcnt = 31
    · rw [if_pos (by rw [hc]; rfl)] at h
      exact .inr (.inr (.inr (.inl ⟨rfl, hc, h⟩)))
    · rw [if_neg (by simp only [cwBits]; omega)] at h
      cases h
      exact .inr (.inr (.inr (.inr ⟨rfl, hc, rfl⟩)))

/-- What no operation of the frame acquirer touches: the configuration, the demodulator, the
synchronizer and the host's inputs. -/
def FramerKeeps (s t : State) : Prop :=
  t.csr = s.csr ∧ t.demod = s.demod ∧ t.sync = s.sync ∧ t.inputs = s.inputs

theorem ParserKeeps.framer {s t : State} (h : ParserKeeps s t) : FramerKeeps s t :=
  ⟨h.1, h.2.1, h.2.2.1, h.2.2.2.2⟩

theorem FramerKeeps.trans {s t u : State} (h : FramerKeeps s t) (k : FramerKeeps t u) :
    FramerKeeps s u :=
  ⟨k.1.trans h.1, k.2.1.trans h.2.1, k.2.2.1.trans h.2.2.1, k.2.2.2.trans h.2.2.2⟩

theorem FramerKeeps.of_setFsm {s t : State} {v : Acquirer} (h : FramerKeeps (s.setFsm v) t) :
    FramerKeeps s t := h

theorem loseSync_keeps {cfg : Config} {reason : LossReason} {s t : State}
    (h : loseSync cfg reason s = .ok t) : FramerKeeps s t := by
  obtain ⟨u, hu, rfl⟩ := loseSync_ok.mp h
  exact (finalizeIfOpen_keeps hu).framer.trans ⟨rfl, rfl, rfl, rfl⟩

theorem windowFailure_keeps {cfg : Config} {s t : State} (h : windowFailure cfg s = .ok t) :
    FramerKeeps s t := by
  rcases windowFailure_ok.mp h with ⟨-, h⟩ | ⟨-, rfl⟩
  · exact (loseSync_keeps h).of_setFsm
  · exact ⟨rfl, rfl, rfl, rfl⟩

theorem dataWord_keeps {cfg : Config} {w : Word} {slot : BitVec 4} {f : Bool} {s t : State}
    (h : dataWord cfg w slot f s = .ok t) : FramerKeeps s t := by
  rcases dataWord_ok.mp h with ⟨-, h⟩ | ⟨-, -, h⟩ | ⟨-, -, rfl⟩
  · exact FramerKeeps.trans (by simp [FramerKeeps]) (parse_keeps h).framer
  · exact FramerKeeps.trans (by simp [FramerKeeps]) (windowFailure_keeps h)
  · simp [FramerKeeps]

/-- CW_IN's data word leaves the frame acquirer alone (44 R230). -/
theorem dataWord_fsm {cfg : Config} {w : Word} {slot : BitVec 4} {s t : State}
    (h : dataWord cfg w slot false s = .ok t) : t.fsm = s.fsm := by
  rcases dataWord_ok.mp h with ⟨-, h⟩ | ⟨-, hf, -⟩ | ⟨-, -, rfl⟩
  · exact (parse_keeps h).2.2.2.1
  · cases hf
  · simp

theorem missSync_keeps {cfg : Config} {s t : State} (h : missSync cfg s = .ok t) :
    FramerKeeps s t := by
  rcases missSync_ok.mp h with ⟨-, h⟩ | ⟨-, rfl⟩
  · exact (loseSync_keeps h).of_setFsm
  · exact ⟨rfl, rfl, rfl, rfl⟩

theorem synchedWord_keeps {cfg : Config} {w : Word} {s t : State}
    (h : synchedWord cfg w s = .ok t) : FramerKeeps s t := by
  rcases synchedWord_ok h with ⟨-, -, -, rfl⟩ | ⟨-, -, h⟩ | ⟨-, h⟩
  · exact ⟨rfl, rfl, rfl, rfl⟩
  · exact missSync_keeps h
  · exact (dataWord_keeps h).of_setFsm

theorem stepPreambleStart_keeps (s : State) : FramerKeeps s (stepPreambleStart s) := by
  unfold stepPreambleStart; split <;> exact ⟨rfl, rfl, rfl, rfl⟩

theorem stepPreambleEnd_keeps (brk : Bool) (n : BitVec 16) (s : State) :
    FramerKeeps s (stepPreambleEnd brk n s) := by
  unfold stepPreambleEnd; split <;> exact ⟨rfl, rfl, rfl, rfl⟩

theorem stepSearchSync_keeps (s : State) : FramerKeeps s (stepSearchSync s) := by
  unfold stepSearchSync; split <;> exact ⟨rfl, rfl, rfl, rfl⟩

/-- A bit leaves the configuration, the demodulator, the synchronizer and the inputs alone (42 R175). -/
theorem fsmBit_keeps {cfg : Config} {b : Bool} {s t : State} (h : fsmBit cfg b s = .ok t) :
    FramerKeeps s t := by
  have hr : FramerKeeps s (recordBit b s) := ⟨rfl, rfl, rfl, rfl⟩
  rcases fsmBit_ok h with ⟨-, rfl⟩ | ⟨-, rfl⟩ | ⟨-, rfl⟩ | ⟨-, -, h⟩ | ⟨-, -, rfl⟩
  · exact hr.trans (stepPreambleStart_keeps _)
  · exact hr.trans (stepPreambleEnd_keeps _ _ _)
  · exact hr.trans (stepSearchSync_keeps _)
  · exact hr.trans (synchedWord_keeps h).of_setFsm
  · exact ⟨rfl, rfl, rfl, rfl⟩

/-! ### When the operations answer -/

/-- A message that fits the buffer is handed out. -/
theorem finalizeIfOpen_total {cfg : Config} {s : State} (h : s.msg.nc ≤ cfg.maxCap) :
    ∃ t, finalizeIfOpen cfg s = .ok t ∧ t.msg.nc ≤ cfg.maxCap := by
  cases ho : s.msg.isOpen
  · exact ⟨s, finalizeIfOpen_ok.mpr (.inr ⟨ho, rfl⟩), h⟩
  · exact ⟨finalized s, finalizeIfOpen_ok.mpr (.inl ⟨ho, h, rfl⟩), by simp [MsgReg.closed]⟩

/-- Below the capacity a bit is always taken (20 R70). -/
theorem accum_total {cfg : Config} {b : Bool} {s : State} (h : s.msg.nc ≤ cfg.maxCap)
    (hc : s.csr.cap.toNat ≤ cfg.maxCap) : ∃ t, accum cfg b s = .ok t ∧ t.msg.nc ≤ cfg.maxCap := by
  by_cases hu : s.msg.nb + 1 = s.msg.kind.width
  · by_cases hn : s.csr.cap.toNat ≤ s.msg.nc
    · exact ⟨_, accum_ok.mpr (.inl ⟨hu, appendUnit_ok.mpr (.inl ⟨hn, h, rfl⟩)⟩),
        by simp [MsgReg.closed]⟩
    · exact ⟨_, accum_ok.mpr (.inl ⟨hu, appendUnit_ok.mpr (.inr ⟨by omega, by omega, rfl⟩)⟩),
        by simp only [appended, State.setMsg_msg]; omega⟩
  · exact ⟨_, accum_ok.mpr (.inr ⟨hu, rfl⟩), h⟩

theorem accumBits_total {cfg : Config} : ∀ (bs : List Bool) {s : State}, s.msg.nc ≤ cfg.maxCap →
    s.csr.cap.toNat ≤ cfg.maxCap → ∃ t, accumBits cfg bs s = .ok t ∧ t.msg.nc ≤ cfg.maxCap
  | [], s, h, _ => ⟨s, rfl, h⟩
  | b :: bs, s, h, hc => by
    obtain ⟨u, hu, hn⟩ := accum_total (b := b) h hc
    cases ho : u.msg.isOpen
    · exact ⟨u, accumBits_cons.mpr ⟨u, hu, .inr ⟨ho, rfl⟩⟩, hn⟩
    · obtain ⟨t, ht, hm⟩ := accumBits_total bs hn (by rw [(accum_keeps hu).1]; exact hc)
      exact ⟨t, accumBits_cons.mpr ⟨u, hu, .inl ⟨ho, ht⟩⟩, hm⟩

/-- A corrected codeword is always taken (20 R70). -/
theorem parse_total {cfg : Config} (c : Word) (slot : BitVec 4) {s : State}
    (h : s.msg.nc ≤ cfg.maxCap) (hc : s.csr.cap.toNat ≤ cfg.maxCap) :
    ∃ t, parse cfg c slot s = .ok t ∧ t.msg.nc ≤ cfg.maxCap := by
  unfold parse
  split
  · exact finalizeIfOpen_total h
  · split
    · exact ⟨s, rfl, h⟩
    · split
      · split
        · exact accumBits_total _ h hc
        · exact ⟨s, rfl, h⟩
      · obtain ⟨u, hu, -⟩ := finalizeIfOpen_total h
        exact ⟨_, parseAddress_ok.mpr ⟨u, hu, rfl⟩, by simp [openedMessage]⟩

theorem loseSync_total {cfg : Config} (reason : LossReason) {s : State}
    (h : s.msg.nc ≤ cfg.maxCap) : ∃ t, loseSync cfg reason s = .ok t ∧ t.msg.nc ≤ cfg.maxCap := by
  obtain ⟨u, hu, hn⟩ := finalizeIfOpen_total h
  exact ⟨_, loseSync_ok.mpr ⟨u, hu, rfl⟩, hn⟩

theorem dataWord_total {cfg : Config} (w : Word) (slot : BitVec 4) (f : Bool) {s : State}
    (h : s.msg.nc ≤ cfg.maxCap) (hc : s.csr.cap.toNat ≤ cfg.maxCap) :
    ∃ t, dataWord cfg w slot f s = .ok t ∧ t.msg.nc ≤ cfg.maxCap := by
  have hm : (markUncorrectable s).msg.nc ≤ cfg.maxCap := by
    rw [markUncorrectable_msg]; split <;> exact h
  unfold dataWord windowFailure
  split
  · exact parse_total _ _ (by simpa using h) (by simpa using hc)
  · split
    · split
      · exact loseSync_total _ hm
      · exact ⟨_, rfl, hm⟩
    · exact ⟨_, rfl, hm⟩

theorem synchedWord_total {cfg : Config} (w : Word) {s : State} (h : s.msg.nc ≤ cfg.maxCap)
    (hc : s.csr.cap.toNat ≤ cfg.maxCap) :
    ∃ t, synchedWord cfg w s = .ok t ∧ t.msg.nc ≤ cfg.maxCap := by
  unfold synchedWord missSync
  split
  · split
    · exact ⟨_, rfl, h⟩
    · split
      · exact loseSync_total _ h
      · exact ⟨_, rfl, h⟩
  · exact dataWord_total _ _ _ h hc

/-- A bit is always taken (20 R70). -/
theorem fsmBit_total {cfg : Config} (b : Bool) {s : State} (h : s.msg.nc ≤ cfg.maxCap)
    (hc : s.csr.cap.toNat ≤ cfg.maxCap) :
    ∃ t, fsmBit cfg b s = .ok t ∧ t.msg.nc ≤ cfg.maxCap := by
  unfold fsmBit
  cases s.fsm.state
  · refine ⟨_, rfl, ?_⟩; unfold stepPreambleStart; split <;> exact h
  · refine ⟨_, rfl, ?_⟩; unfold stepPreambleEnd; split <;> exact h
  · refine ⟨_, rfl, ?_⟩; unfold stepSearchSync; split <;> exact h
  · dsimp only
    unfold stepSynched
    split
    · exact synchedWord_total _ h hc
    · exact ⟨_, rfl, h⟩

end Sys2Proof.Machine
end

