-- ==== Sys2Proof/Laws/Words.lean ====
section
/-! SUPPORT. The fields of command and event words. -/

namespace Sys2Proof

/-- The bits above a field are 0, so no bit stands outside its mask. -/
theorem zero_append_masked {n m : Nat} (x : BitVec m) :
    (0#n ++ x) &&& ~~~(0#n ++ BitVec.allOnes m) = 0#(n + m) := by
  rw [BitVec.not_append, BitVec.and_append]
  simp

@[simp] theorem opcodeOf_encode (i : Instr) : opcodeOf (encode i) = i.opcode.byte :=
  BitVec.extractLsb'_append_eq_left

@[simp] theorem operandsOf_encode (i : Instr) : operandsOf (encode i) = i.operands :=
  BitVec.extractLsb'_append_eq_right

@[simp] theorem Opcode.ofByte_byte (op : Opcode) : Opcode.ofByte op.byte = some op := by
  cases op <;> decide

/-- A byte names an opcode exactly when it is that opcode's byte. -/
theorem Opcode.ofByte_eq_some {b : Byte} {op : Opcode} : Opcode.ofByte b = some op ↔ b = op.byte := by
  constructor
  · revert b op; decide
  · rintro rfl; exact Opcode.ofByte_byte op

/-- What the decoder answers for a word. -/
theorem decode_cases (w : CmdWord) :
    (Opcode.ofByte (opcodeOf w) = none ∧ decode w = .rejected .unknownOpcode) ∨
    (∃ op : Opcode, opcodeOf w = op.byte ∧ operandsOf w &&& ~~~op.operandMask ≠ 0 ∧
      decode w = .rejected .reservedBits) ∨
    (∃ op : Opcode, opcodeOf w = op.byte ∧ operandsOf w &&& ~~~op.operandMask = 0 ∧
      decode w = .command (op.assemble w)) := by
  unfold decode
  cases h : Opcode.ofByte (opcodeOf w) with
  | none => exact .inl ⟨rfl, rfl⟩
  | some op =>
    have hb := Opcode.ofByte_eq_some.mp h
    by_cases hm : operandsOf w &&& ~~~op.operandMask = 0
    · exact .inr (.inr ⟨op, hb, hm, if_pos hm⟩)
    · exact .inr (.inl ⟨op, hb, hm, if_neg hm⟩)

namespace Machine

@[simp] theorem Event.word_type (e : Event) : e.word.extractLsb' 56 8 = e.type :=
  BitVec.extractLsb'_append_eq_left

@[simp] theorem Event.word_payload (e : Event) : e.word.extractLsb' 0 56 = e.payload :=
  BitVec.extractLsb'_append_eq_right

end Machine

end Sys2Proof
end

