-- ==== Sys2Proof/Laws/PerInstr.lean ====
section
/-! SUPPORT. Facts about every command, one lemma per constructor. -/

namespace Sys2Proof.Laws.OperandsInMask

/-- The encoder sets no bit outside the operand mask of its opcode (30 R93, R96). -/
def Statement (i : Instr) : Prop :=
  i.operands &&& ~~~i.opcode.operandMask = 0

theorem nop : Statement .nop := by
  unfold Statement
  decide
theorem sample (i q : Byte) : Statement (.sample i q) :=
  zero_append_masked (n := 40) (q ++ i)
theorem sampleLoss (n : Word) : Statement (.sampleLoss n) :=
  zero_append_masked (n := 24) n
theorem magIn (y : Word) : Statement (.magIn y) :=
  zero_append_masked (n := 24) y
theorem bitIn (b : Bool) : Statement (.bitIn b) :=
  zero_append_masked (n := 55) (BitVec.ofBool b)
theorem cwIn (w : Word) (slot : BitVec 4) : Statement (.cwIn w slot) :=
  zero_append_masked (n := 20) (slot ++ w)
theorem demodQuery (i q ip qp : Byte) (mode : DemodMode) :
    Statement (.demodQuery i q ip qp mode) :=
  zero_append_masked (n := 23) (BitVec.ofBool mode.bit ++ (qp ++ (ip ++ (q ++ i))))
theorem bchSyndrome (w : Word) : Statement (.bchSyndrome w) :=
  zero_append_masked (n := 24) w
theorem bchCorrect (w : Word) : Statement (.bchCorrect w) :=
  zero_append_masked (n := 24) w
theorem csrRead (a : Byte) : Statement (.csrRead a) := by
  have h : (a ++ 0#32) &&& ~~~(BitVec.allOnes 8 ++ 0#32) = 0#40 := by
    rw [BitVec.not_append, BitVec.and_append]
    simp
  have e : (0#16 ++ (a ++ 0#32)) &&& ~~~(0#16 ++ (BitVec.allOnes 8 ++ 0#32)) = 0#56 := by
    rw [BitVec.not_append, BitVec.and_append, h]
    simp
  exact e
theorem csrWrite (a : Byte) (v : Word) : Statement (.csrWrite a v) :=
  zero_append_masked (n := 16) (a ++ v)
theorem flush : Statement .flush := by
  unfold Statement
  decide
theorem reset : Statement .reset := by
  unfold Statement
  decide

end Sys2Proof.Laws.OperandsInMask
end

