-- ==== Sys2Proof/Laws/Synchronizer.lean ====
section
/-! SUPPORT. What the demodulator and the synchronizer compute, and what one input can do. -/

namespace Sys2Proof.Machine

@[simp] theorem traceBit_csr (a : Int) (b : Bool) (s : State) : (traceBit a b s).csr = s.csr := by
  unfold traceBit; split <;> rfl
@[simp] theorem traceBit_demod (a : Int) (b : Bool) (s : State) : (traceBit a b s).demod = s.demod := by
  unfold traceBit; split <;> rfl
@[simp] theorem traceBit_sync (a : Int) (b : Bool) (s : State) : (traceBit a b s).sync = s.sync := by
  unfold traceBit; split <;> rfl
@[simp] theorem traceBit_fsm (a : Int) (b : Bool) (s : State) : (traceBit a b s).fsm = s.fsm := by
  unfold traceBit; split <;> rfl
@[simp] theorem traceBit_msg (a : Int) (b : Bool) (s : State) : (traceBit a b s).msg = s.msg := by
  unfold traceBit; split <;> rfl
@[simp] theorem traceBit_buf (a : Int) (b : Bool) (s : State) : (traceBit a b s).buf = s.buf := by
  unfold traceBit; split <;> rfl
@[simp] theorem traceBit_cnt (a : Int) (b : Bool) (s : State) : (traceBit a b s).cnt = s.cnt := by
  unfold traceBit; split <;> rfl
@[simp] theorem traceBit_inputs (a : Int) (b : Bool) (s : State) :
    (traceBit a b s).inputs = s.inputs := by
  unfold traceBit; split <;> rfl

/-- The BIT event (41 R144). -/
theorem traceBit_evts (a : Int) (b : Bool) (s : State) :
    (traceBit a b s).evts =
      if s.csr.bitTrace then s.evts ++ [(Event.bit (BitVec.ofNat 32 a.natAbs) b).word] else s.evts := by
  unfold traceBit; split <;> rfl

/-- One demod value: it ends a symbol and its bit enters the frame acquirer, or it only adds to the
symbol (41 R140). -/
theorem syncStep_ok {cfg : Config} {y : Int} {s t : State} :
    syncStep cfg y s = .ok t ↔
      (s.csr.sampleRate.toNat ≤ advancedPhase s.csr s.sync (sliceValue s.csr y) ∧
        fsmBit cfg (hardBit (accumulate s.sync.acc (sliceValue s.csr y)) s.csr.invert)
          (traceBit (accumulate s.sync.acc (sliceValue s.csr y))
            (hardBit (accumulate s.sync.acc (sliceValue s.csr y)) s.csr.invert)
            (s.setSync (endSymbol s.csr s.sync (sliceValue s.csr y)))) = .ok t) ∨
      (advancedPhase s.csr s.sync (sliceValue s.csr y) < s.csr.sampleRate.toNat ∧
        t = s.setSync (integrateOnly s.csr s.sync (sliceValue s.csr y))) := by
  unfold syncStep
  split
  · rename_i h; simp [h, not_lt.mpr h]
  · rename_i h
    simp only [Except.ok.injEq, h, false_and, not_le.mp h, true_and, false_or]
    exact eq_comm

/-- One demod value leaves the configuration, the kept sample and the inputs alone (41 R145). -/
theorem syncStep_keeps {cfg : Config} {y : Int} {s t : State} (h : syncStep cfg y s = .ok t) :
    t.csr = s.csr ∧ t.demod = s.demod ∧ t.inputs = s.inputs := by
  rcases syncStep_ok.mp h with ⟨-, h⟩ | ⟨-, rfl⟩
  · obtain ⟨h1, h2, -, h4⟩ := fsmBit_keeps h
    exact ⟨by simpa using h1, by simpa using h2, by simpa using h4⟩
  · exact ⟨rfl, rfl, rfl⟩

theorem syncStep_total {cfg : Config} (y : Int) {s : State} (h : s.msg.nc ≤ cfg.maxCap)
    (hc : s.csr.cap.toNat ≤ cfg.maxCap) :
    ∃ t, syncStep cfg y s = .ok t ∧ t.msg.nc ≤ cfg.maxCap := by
  unfold syncStep
  split
  · exact fsmBit_total _ (by simpa using h) (by simpa using hc)
  · exact ⟨_, rfl, h⟩

/-- A timing correction leaves the phase inside the symbol (41 R142). -/
theorem correctedPhase_lt {sampleRate : Nat} (g phase : Nat) (h : 1 ≤ sampleRate) :
    correctedPhase sampleRate g phase < sampleRate := by
  have := clamp_bounds (v := (phase : Int) - floorShr (phaseError sampleRate phase) g) (a := 0)
    (b := (sampleRate : Int) - 1) (by omega)
  unfold correctedPhase
  omega

theorem startPhase_lt {c : CsrFields} {x : SyncState} (v : Int) (h : x.phase < c.sampleRate.toNat) :
    startPhase c x v < c.sampleRate.toNat := by
  unfold startPhase
  split
  · exact correctedPhase_lt _ _ (by omega)
  · exact h

end Sys2Proof.Machine
end

