-- ==== Sys2Proof/Tests/Slice0.lean ====
section
/-! SUPPORT. The model's own tests: the refusals of WellFormed, words written out from 30 R92 and R93,
single steps with the results the spec's rules give as examples, and a witness for the hypotheses of
every statement that has some. -/

namespace Sys2Proof.Tests

open Sys2Proof.Machine

/-! ### Helpers -/

/-- The state after an outcome that goes on. -/
def after : Host.Outcome State Fault Refusal → Option State
  | .next s => some s
  | .fault _ => none
  | .refused _ => none

/-- The events waiting after an outcome that goes on. -/
def events (o : Host.Outcome State Fault Refusal) : Option (List EvtWord) :=
  (after o).map (·.evts)

/-- The reset state in a frame acquirer state. -/
def inState (st : FsmState) : State :=
  State.reset.setFsm { Acquirer.reset with state := st }

/-- SEARCH_SYNC after a clean preamble, `SOFT_THRESHOLD` 10. -/
def cleanPreamble (sr : Word) : State :=
  (State.reset.setCsr { CsrFields.reset with softThreshold := 10 }).setFsm
    { Acquirer.reset with
      state := .searchSync, sr := sr, altRun := 576, prevBit := sr.getLsbD 0, havePrev := true }

/-- SYNCHED at the last bit of the word at a position, the 31 bits before it in place. -/
def atWordEnd (position : Nat) (sr : Word) : State :=
  State.reset.setFsm
    { Acquirer.reset with
      state := .synched, sr := sr, altRun := 1, havePrev := true, bitcnt := 31, cwIndex := position }

/-- An open message with some units waiting or stored. -/
def withMessage (kind : Kind) (nb nc : Nat) : State :=
  State.reset.setMsg { MsgReg.closed with isOpen := true, kind := kind, nb := nb, nc := nc }

/-- The message "HI" for capcode 1234567, function 3, open (44 R230). -/
def holdingHi : State :=
  (State.reset.setMsg ⟨true, 1234567, 3, .alphanumeric, false, false, 0, 6, 2⟩).setBuf
    [(0, 0x48), (1, 0x49)]

/-- Rates 1 and 2 with one input of the symbol taken (41 R145). -/
def midSymbol : State :=
  (State.reset.setCsr { CsrFields.reset with sampleRate := 2, symbolRate := 1, bitTrace := true }).setSync
    ⟨1, 5, true, true⟩

/-- The reset state with timing recovery off. -/
def freeRunning : State :=
  State.reset.setCsr { CsrFields.reset with trEn := false }

/-! ### WellFormed: an ill-formed text for each check (30 R103) -/

theorem test_wf_sample_i : (Asm.sample 256 0).wellFormed = false := by decide
theorem test_wf_sample_q : (Asm.sample 0 (-1)).wellFormed = false := by decide
theorem test_wf_sampleLoss : (Asm.sampleLoss 4294967296).wellFormed = false := by decide
theorem test_wf_magIn_high : (Asm.magIn 2147483648).wellFormed = false := by decide
theorem test_wf_magIn_low : (Asm.magIn (-2147483649)).wellFormed = false := by decide
theorem test_wf_bitIn : (Asm.bitIn 2).wellFormed = false := by decide
theorem test_wf_cwIn_w : (Asm.cwIn (-1) 0).wellFormed = false := by decide
theorem test_wf_cwIn_slot : (Asm.cwIn 0 16).wellFormed = false := by decide
theorem test_wf_demodQuery_i : (Asm.demodQuery 256 0 0 0 0).wellFormed = false := by decide
theorem test_wf_demodQuery_q : (Asm.demodQuery 0 256 0 0 0).wellFormed = false := by decide
theorem test_wf_demodQuery_ip : (Asm.demodQuery 0 0 256 0 0).wellFormed = false := by decide
theorem test_wf_demodQuery_qp : (Asm.demodQuery 0 0 0 256 0).wellFormed = false := by decide
theorem test_wf_demodQuery_mode : (Asm.demodQuery 0 0 0 0 2).wellFormed = false := by decide
theorem test_wf_bchSyndrome : (Asm.bchSyndrome 4294967296).wellFormed = false := by decide
theorem test_wf_bchCorrect : (Asm.bchCorrect (-1)).wellFormed = false := by decide
theorem test_wf_csrRead : (Asm.csrRead 256).wellFormed = false := by decide
theorem test_wf_csrWrite_a : (Asm.csrWrite 256 0).wellFormed = false := by decide
theorem test_wf_csrWrite_v : (Asm.csrWrite 0 4294967296).wellFormed = false := by decide
theorem test_wf_edges : (Asm.magIn (-2147483648)).wellFormed = true ∧
    (Asm.csrWrite 255 (-2147483648)).wellFormed = true ∧ (Asm.cwIn 4294967295 15).wellFormed = true := by
  decide

/-! ### Decoding: words written out from 30 R92 and R93 -/

theorem test_decode_nop : decode 0x0000000000000000 = .command .nop := by decide
theorem test_decode_sample : decode 0x0100000000008382 = .command (.sample 130 131) := by decide
theorem test_decode_sampleLoss : decode 0x02000000000003E8 = .command (.sampleLoss 1000) := by decide
theorem test_decode_magIn : decode 0x10000000FFFFFFF9 = .command (.magIn (-7)) := by decide
theorem test_decode_bitIn : decode 0x1100000000000001 = .command (.bitIn true) := by decide
theorem test_decode_cwIn : decode 0x1200000E4B5A1A25 = .command (.cwIn 0x4B5A1A25 14) := by decide
theorem test_decode_demodQuery :
    decode 0x2000000104030201 = .command (.demodQuery 1 2 3 4 .fm) := by decide
theorem test_decode_bchSyndrome :
    decode 0x210000007CD215D9 = .command (.bchSyndrome 0x7CD215D9) := by decide
theorem test_decode_bchCorrect :
    decode 0x220000007CD215DF = .command (.bchCorrect 0x7CD215DF) := by decide
theorem test_decode_csrRead : decode 0x3000001000000000 = .command (.csrRead 0x10) := by decide
theorem test_decode_csrWrite :
    decode 0x3100000200000A00 = .command (.csrWrite 0x02 2560) := by decide
theorem test_decode_flush : decode 0x4000000000000000 = .command .flush := by decide
theorem test_decode_reset : decode 0x7F00000000000000 = .command .reset := by decide
theorem test_decode_reserved_opcode : decode 0x4100000000000000 = .rejected .unknownOpcode := by decide
theorem test_decode_reserved_bit : decode 0x4000000000000001 = .rejected .reservedBits := by decide
theorem test_decode_table_word :
    decodeTableWord 64 0x1200000E4B5A1A25 = some (.cwIn 0x4B5A1A25 14) := by decide
theorem test_fetch_word :
    events (step (State.reset.withFetchWord 64 0x3000000300000000)) = some [0x30000003001E8480] := by
  decide

/-! ### Text (30 R103 to R105) -/

theorem test_text_csrRead : assembleLine "CSR_READ STATUS" = some [.csrRead 0x10] := by decide +kernel
theorem test_text_named :
    assembleLine "CW_IN slot=14, w=0x4B5A1A25" = some [.cwIn 0x4B5A1A25 14] := by decide +kernel
theorem test_text_mode :
    assembleLine "DEMOD_QUERY 127, 227, 227, 127, FM" = some [.demodQuery 127 227 227 127 .fm] := by
  decide +kernel
theorem test_text_refused : assembleLine "BIT_IN 2" = none := by decide +kernel

/-! ### Single steps: the examples of the rules -/

theorem test_nop : after (exec .nop State.reset) = some State.reset := by decide

/-- 40 R123's example: y = 1280, the sample kept. -/
theorem test_sample : (after (exec (.sample 130 131) State.reset)).map
    (fun s => (s.demod.pi, s.demod.pq, s.sync.acc, s.cnt.samples)) = some (3, 4, 1280, 1) := by decide

/-- 40 R124's example, and the wrap of 10 R48. -/
theorem test_sampleLoss : (after (exec (.sampleLoss 1000) State.reset)).map (·.cnt.overrun)
    = some 1000 := by decide
theorem test_sampleLoss_wraps :
    (after (exec (.sampleLoss 0xFFFFFFFF)
      (State.reset.setCnt { Counters.zero with overrun := 2 }))).map (·.cnt.overrun) = some 1 := by
  decide

/-- 41 R145's example: the second input ends the symbol with bit 0 and soft value 2. -/
theorem test_magIn : (after (exec (.magIn (-7)) midSymbol)).map (fun s => (s.sync.phase, s.sync.acc, s.evts))
    = some (0, 0, [0x1000000000000200]) := by decide

/-- 42 R175's example: the 32nd alternating bit leaves SEARCH_PREAMBLE_START. -/
theorem test_bitIn : (after (exec (.bitIn false) (State.reset.setFsm
    { Acquirer.reset with altRun := 31, prevBit := true, havePrev := true }))).map
      (fun s => (s.fsm.state, s.fsm.altRun)) = some (.searchPreambleEnd, 32) := by decide

/-- 42 R164: the last bit of a clean sync word acquires with distance 0. -/
theorem test_bitIn_acquires : events (exec (.bitIn false) ((inState .searchSync).setFsm
    { Acquirer.reset with state := .searchSync, sr := 0x3E690AEC })) = some [0x2000000000000000] := by
  decide

/-- 44 R230's example: the address opens capcode 1234567, function 3. -/
theorem test_cwIn_address : (after (exec (.cwIn 0x4B5A1A25 14) State.reset)).map
    (fun s => (s.msg.capcode, s.msg.func, s.msg.kind, s.cnt.cwClean)) =
      some (1234567, 3, .alphanumeric, 1) := by decide +kernel

/-- 44 R230's example: the idle word hands "HI" out. -/
theorem test_cwIn_idle : events (exec (.cwIn 0x7A89C197 0) holdingHi) =
    some [0x0100000008F2D687, 0x0200000000000048, 0x0200000000000149, 0x0300000000000002] := by
  decide +kernel

/-- 40 R125's example. -/
theorem test_demodQuery : events (exec (.demodQuery 127 227 227 127 .fm) State.reset) =
    some [0x3000000000002710] := by decide

/-- 40 R125's sample pair around another midpoint, and 45 R255's bound at another `MAX_CAP` (00 R5). -/
theorem test_demodQuery_other_build :
    events (execFor ⟨128, 256⟩ (.demodQuery 128 228 228 128 .fm) State.reset) =
      some [0x3000000000002710] := by decide
theorem test_csrWrite_other_build :
    events (execFor ⟨127, 512⟩ (.csrWrite 0x08 0x01013F08) State.reset) = some [] ∧
    events (execFor ⟨127, 256⟩ (.csrWrite 0x08 0x01013F08) State.reset) =
      some [0x3F00000000083105] := by decide

/-- 43 R195's example. -/
theorem test_bchSyndrome : events (exec (.bchSyndrome 0x7CD215D9) State.reset) =
    some [0x3000000000000400] := by decide +kernel

/-- 43 R196's examples. -/
theorem test_bchCorrect_one : events (exec (.bchCorrect 0x7CD215D9) State.reset) =
    some [0x300000017CD215D8] := by decide +kernel
theorem test_bchCorrect_three : events (exec (.bchCorrect 0x7CD215DF) State.reset) =
    some [0x300000047CD215DF] := by decide +kernel

/-- 45 R251's examples. -/
theorem test_csrRead : events (exec (.csrRead 0x03) State.reset) = some [0x30000003001E8480] := by decide
theorem test_csrRead_unmapped : events (exec (.csrRead 0x09) State.reset) =
    some [0x3F00000000093003] := by decide

/-- 45 R252's examples. -/
theorem test_csrWrite_readOnly : events (exec (.csrWrite 0x10 0) State.reset) =
    some [0x3F00000000103104] := by decide
theorem test_csrWrite_illegal : events (exec (.csrWrite 0x07 33) State.reset) =
    some [0x3F00000000073105] := by decide

/-- 45 R253's example: the events the idle word would emit. -/
theorem test_flush : events (exec .flush holdingHi) =
    some [0x0100000008F2D687, 0x0200000000000048, 0x0200000000000149, 0x0300000000000002] := by decide

/-- 45 R254: the message dropped without an event, the configuration kept. -/
theorem test_reset : (after (exec .reset (holdingHi.setCsr { CsrFields.reset with threshold := 9 }))).map
    (fun s => (s.msg.isOpen, s.evts, s.csr.threshold)) = some (false, [], 9) := by decide

/-! ### Witnesses: states and operands that meet a statement's hypotheses -/

theorem witness_DecodeOfEncode : (Instr.csrWrite 0x08 0x01003F08).wellFormed = true := by decide

theorem witness_EncodeOfDecode :
    decode 0x3100000801003F08 = .command (.csrWrite 0x08 0x01003F08) := by decide

/-- One word for each clause, at the edge of its range. -/
theorem witness_RefusedWords :
    (∀ p ∈ opcodeMasks, p.1 ≠ (0x0300000000000000 : CmdWord).toNat / 2 ^ 56) ∧
    ((0x01, 0xFFFF) ∈ opcodeMasks ∧ 0x01 = (0x0100000000010000 : CmdWord).toNat / 2 ^ 56 ∧
      (0x0100000000010000 : CmdWord).toNat % 2 ^ 56 &&& 0xFFFF
        ≠ (0x0100000000010000 : CmdWord).toNat % 2 ^ 56) ∧
    0x01 = (0x010000000000FFFF : CmdWord).toNat / 2 ^ 56 ∧
      (0x010000000000FFFF : CmdWord).toNat % 2 ^ 56 &&& 0xFFFF
        = (0x010000000000FFFF : CmdWord).toNat % 2 ^ 56 := by decide

theorem witness_StepPerformsCommand :
    (State.reset.offer 0x3000000300000000).inputs = .command 0x3000000300000000 :: [] ∧
    decode 0x3000000300000000 = .command (.csrRead 0x03) ∧ (Instr.csrRead 0x03).wellFormed = true := by
  decide

/-- One state for each thing the host does. -/
theorem witness_PortInputs :
    State.reset.inputs = [] ∧
    (((State.reset.setEvts [7, 8]).setInputs [.takeEvent]).evts = 7 :: [8] ∧
      ((State.reset.setEvts [7, 8]).setInputs [.takeEvent]).inputs = .takeEvent :: []) ∧
    (State.reset.setInputs [.hardReset, .takeEvent]).inputs = .hardReset :: [.takeEvent] := by decide

theorem witness_ResetValues :
    (holdingHi.setInputs [.hardReset]).inputs = .hardReset :: [] := by decide

theorem witness_InvKeptByStep :
    (holdingHi.offer 0x0100000000008382).Inv .build ∧
    ∃ t, step (holdingHi.offer 0x0100000000008382) = .next t := ⟨by decide, _, rfl⟩

theorem witness_NeverStops : (holdingHi.offer 0x4000000000000000).Inv .build := by decide

theorem witness_ConfigurationKept :
    (∃ t, exec .flush holdingHi = .next t) ∧ ∀ a v, Instr.flush ≠ .csrWrite a v :=
  ⟨⟨_, rfl⟩, nofun⟩

/-- RESET, a command that moves nothing, and a bit that moves the machine. -/
theorem witness_FrameAcquirerMoves :
    (∃ t, exec .reset (inState .synched) = .next t) ∧
    (∃ t, exec .flush (inState .synched) = .next t) ∧
    ∃ t, exec (.bitIn true) (inState .searchPreambleStart) = .next t :=
  ⟨⟨_, rfl⟩, ⟨_, rfl⟩, ⟨_, rfl⟩⟩

theorem witness_EventOrder : ∃ t, exec .flush holdingHi = .next t := ⟨_, rfl⟩

theorem witness_CountersMatchEvents :
    Instr.flush ≠ .reset ∧ ∃ t, exec .flush holdingHi = .next t := ⟨by decide, _, rfl⟩

theorem witness_UnreadBytesDoNotMatter :
    SameButUnread holdingHi (holdingHi.setBuf [(0, 0x48), (1, 0x49), (2, 0x4A)]) ∧
    ∃ t, execAll [.nop, .flush] holdingHi = .next t := ⟨by decide, _, rfl⟩

/-- Each of the four commands of the frame; the buffer clauses: no open message, the last bit inside a
word, the expected sync position, an idle word, an uncorrectable word. -/
theorem witness_DataPathFrame :
    (∃ t, exec (.sample 130 131) holdingHi = .next t) ∧ (∃ t, exec (.magIn 5) holdingHi = .next t) ∧
    (∃ t, exec (.bitIn true) holdingHi = .next t) ∧
    (after (exec (.cwIn 0x899200DB 15) holdingHi)).isSome = true ∧
    (State.reset.msg.isOpen = false ∧ ∃ t, exec (.bitIn true) State.reset = .next t) ∧
    ((inState .synched).setFsm { (inState .synched).fsm with bitcnt := 30 }).fsm.bitcnt + 1 ≠ 32 ∧
    ((atWordEnd 16 0x3E690AEC).fsm.cwIndex = 16 ∧
      (after (exec (.bitIn false) (atWordEnd 16 0x3E690AEC))).isSome = true) ∧
    ((correct 0x7A89C197).word.getLsbD 31 = false ∧
      (after (exec (.cwIn 0x7A89C197 15) holdingHi)).isSome = true) ∧
    (correct 0x7CD215DF).ok = false ∧ (after (exec (.cwIn 0x7CD215DF 0) holdingHi)).isSome = true :=
  ⟨⟨_, rfl⟩, ⟨_, rfl⟩, ⟨_, rfl⟩, by decide +kernel, ⟨by decide, _, rfl⟩, by decide,
    by decide +kernel, by decide +kernel, by decide +kernel⟩

/-- The least and the greatest refused word of opcode 0. -/
theorem witness_NopDoesNothing :
    (0 < (1 : CmdWord).toNat ∧ (1 : CmdWord).toNat < 2 ^ 56) ∧
    0 < (0x00FFFFFFFFFFFFFF : CmdWord).toNat ∧ (0x00FFFFFFFFFFFFFF : CmdWord).toNat < 2 ^ 56 := by
  decide

theorem witness_DemodRanges : (⟨255, 256⟩ : Config).adcMid ≤ 255 := by decide

theorem witness_SampleFeedsSynchronizer :
    SampleCentred .build (holdingHi.setDemod ⟨-127, 128⟩).demod ∧
    (holdingHi.setDemod ⟨-127, 128⟩).BufferSafe .build := by decide

/-- The last input inside a symbol: one short of the rate. -/
theorem witness_MagInInsideSymbol :
    phaseBefore (midSymbol.setSync ⟨0, 5, true, true⟩).csr (midSymbol.setSync ⟨0, 5, true, true⟩).sync
        ((7 : Word).toInt - (midSymbol.setSync ⟨0, 5, true, true⟩).csr.threshold.toInt)
      + (midSymbol.setSync ⟨0, 5, true, true⟩).csr.symbolRate.toNat
        < (midSymbol.setSync ⟨0, 5, true, true⟩).csr.sampleRate.toNat := by decide

/-- The input that reaches the rate exactly. -/
theorem witness_MagInEndsSymbol :
    midSymbol.BufferSafe .build ∧
    midSymbol.csr.sampleRate.toNat ≤
      phaseBefore midSymbol.csr midSymbol.sync ((7 : Word).toInt - midSymbol.csr.threshold.toInt)
        + midSymbol.csr.symbolRate.toNat := by decide

/-- The last early phase, the first late one, and one not corrected for each of the three reasons. -/
theorem witness_TimingCorrection :
    ((⟨999999, 0, true, true⟩ : SyncState).phase < CsrFields.reset.sampleRate.toNat ∧
      2 * (⟨999999, 0, true, true⟩ : SyncState).phase < CsrFields.reset.sampleRate.toNat) ∧
    ((⟨1000000, 0, true, true⟩ : SyncState).phase < CsrFields.reset.sampleRate.toNat ∧
      CsrFields.reset.sampleRate.toNat ≤ 2 * (⟨1000000, 0, true, true⟩ : SyncState).phase) ∧
    (freeRunning.sync.phase < freeRunning.csr.sampleRate.toNat ∧ freeRunning.csr.trEn = false) ∧
    (State.reset.sync.phase < State.reset.csr.sampleRate.toNat ∧ State.reset.sync.havePrevS = false) ∧
    midSymbol.sync.phase < midSymbol.csr.sampleRate.toNat ∧
      midSymbol.sync.prevS = decide (0 ≤ (0 : Int)) := by decide +kernel

/-- With timing recovery off. -/
theorem witness_NoDrift_free :
    PhaseInSymbol freeRunning.csr freeRunning.sync ∧ ConfigLegal .build freeRunning.csr ∧
    freeRunning.BufferSafe .build ∧ freeRunning.csr.trEn = false := by decide

/-- With timing recovery on and no sign change. -/
theorem witness_NoDrift_same_sign :
    PhaseInSymbol midSymbol.csr midSymbol.sync ∧ ConfigLegal .build midSymbol.csr ∧
    midSymbol.BufferSafe .build ∧ (midSymbol.sync.havePrevS = true → midSymbol.sync.prevS = true) ∧
    ∀ y ∈ ([0, 5] : List Word), decide (midSymbol.csr.threshold.toInt ≤ y.toInt) = true := by
  refine ⟨by decide, by decide, by decide, by decide, ?_⟩
  intro y hy
  fin_cases hy <;> decide

theorem witness_BitInPreambleStart :
    (inState .searchPreambleStart).fsm.state = .searchPreambleStart := by decide
theorem witness_BitInPreambleEnd :
    (inState .searchPreambleEnd).fsm.state = .searchPreambleEnd := by decide
theorem witness_BitInSearchSync : (inState .searchSync).fsm.state = .searchSync := by decide

/-- The first and the last such bit of a word. -/
theorem witness_BitInsideWord :
    ((inState .synched).fsm.state = .synched ∧ (inState .synched).fsm.bitcnt < 31) ∧
    ((atWordEnd 3 0).setFsm { (atWordEnd 3 0).fsm with bitcnt := 30 }).fsm.state = .synched ∧
    ((atWordEnd 3 0).setFsm { (atWordEnd 3 0).fsm with bitcnt := 30 }).fsm.bitcnt < 31 := by decide

/-- The same state serves the accepted and the missed word; 0x3E690AEC is the sync word without its
last bit. -/
theorem witness_ExpectedSyncWord :
    (atWordEnd 16 0x3E690AEC).fsm.state = .synched ∧ (atWordEnd 16 0x3E690AEC).fsm.bitcnt = 31 ∧
    (atWordEnd 16 0x3E690AEC).fsm.cwIndex = 16 ∧ (atWordEnd 16 0x3E690AEC).msg.nc ≤ 256 := by decide

/-- The first slot with a correctable word, the last with an uncorrectable one. -/
theorem witness_SynchedDataWord :
    ((atWordEnd 0 0x3E690AEC).fsm.state = .synched ∧ (atWordEnd 0 0x3E690AEC).fsm.bitcnt = 31 ∧
      (atWordEnd 0 0x3E690AEC).fsm.cwIndex < 16 ∧ (atWordEnd 0 0x3E690AEC).BufferSafe .build ∧
      (correct (historyAfter (atWordEnd 0 0x3E690AEC).fsm false).sr).ok = true) ∧
    (atWordEnd 15 0x3E690AEF).fsm.state = .synched ∧ (atWordEnd 15 0x3E690AEF).fsm.bitcnt = 31 ∧
      (atWordEnd 15 0x3E690AEF).fsm.cwIndex < 16 ∧ (atWordEnd 15 0x3E690AEF).BufferSafe .build ∧
      (correct (historyAfter (atWordEnd 15 0x3E690AEF).fsm true).sr).ok = false := by decide +kernel

theorem witness_MinimumDistance : syndrome 0x7CD215D8 = 0 ∧ (0x7CD215D8 : Word) ≠ 0 := by
  decide +kernel

/-- No flip and two flips. -/
theorem witness_CorrectsUpToTwo :
    syndrome 0x7CD215D8 = 0 ∧ weight 0 ≤ 2 ∧ weight 0x80000001 ≤ 2 := by decide +kernel

theorem witness_ThreeFlipsFail : syndrome 0x7A89C197 = 0 ∧ weight 0x80000101 = 3 := by decide +kernel

/-- A word for each clause: two flips, and three. -/
theorem witness_CorrectionIsNearest :
    (correct 0xFCD215D9).ok = true ∧ syndrome 0x7CD215D8 = 0 ∧ (correct 0x7CD215DF).ok = false := by
  decide +kernel

theorem witness_CwInUncorrectable : (correct 0x7CD215DF).ok = false := by decide +kernel

theorem witness_CwInIdle :
    (correct 0x7A89C197).ok = true ∧ (correct 0x7A89C197).word = 0x7A89C197 ∧ holdingHi.msg.nc ≤ 256 := by
  decide +kernel

/-- A sync word two bits off while a message is open; a message word while none is. -/
theorem witness_CwInIgnored :
    ((correct 0x7CD215DB).ok = true ∧ (correct 0x7CD215DB).word = 0x7CD215D8) ∧
    (correct 0x899200DB).ok = true ∧ (correct 0x899200DB).word.getLsbD 31 = true ∧
      State.reset.msg.isOpen = false := by decide +kernel

theorem witness_CwInAddress :
    (correct 0x4B5A1A25).ok = true ∧ (correct 0x4B5A1A25).word ≠ 0x7A89C197 ∧
    (correct 0x4B5A1A25).word ≠ 0x7CD215D8 ∧ (correct 0x4B5A1A25).word.getLsbD 31 = false ∧
    holdingHi.msg.nc ≤ 256 := by decide +kernel

/-- The last units that fit: five numeric ones up to `CAP`. -/
theorem witness_MessageWordAppends :
    (correct 0x899200DB).ok = true ∧ (correct 0x899200DB).word.getLsbD 31 = true ∧
    (withMessage .numeric 0 251).msg.isOpen = true ∧
    MessageInRange .build (withMessage .numeric 0 251).msg ∧
    (withMessage .numeric 0 251).csr.cap.toNat ≤ 256 ∧
    (withMessage .numeric 0 251).msg.nc + unitsCompleted (withMessage .numeric 0 251).msg
      ≤ (withMessage .numeric 0 251).csr.cap.toNat := by decide +kernel

/-- The first unit too many. -/
theorem witness_MessageWordOverflows :
    (correct 0x899200DB).ok = true ∧ (correct 0x899200DB).word.getLsbD 31 = true ∧
    (withMessage .numeric 0 252).msg.isOpen = true ∧
    MessageInRange .build (withMessage .numeric 0 252).msg ∧
    (withMessage .numeric 0 252).csr.cap.toNat ≤ 256 ∧
    (withMessage .numeric 0 252).csr.cap.toNat <
      (withMessage .numeric 0 252).msg.nc + unitsCompleted (withMessage .numeric 0 252).msg := by
  decide +kernel

/-- An open message and a full one. -/
theorem witness_FlushHandsOut :
    holdingHi.msg.nc ≤ 256 ∧ (withMessage .alphanumeric 0 256).msg.nc ≤ 256 := by decide

theorem witness_CsrReadValues :
    holdingHi.Inv .build ∧ (0x16, 0x72D687) ∈ registerValues holdingHi := by decide

/-- The first and the last unmapped address. -/
theorem witness_UnmappedCsrRefused :
    ((0x09 : Byte).toNat ∉ readOnlyAddresses ∧ (0x09 : Byte).toNat ∉ readWriteAddresses) ∧
    (0xFF : Byte).toNat ∉ readOnlyAddresses ∧ (0xFF : Byte).toNat ∉ readWriteAddresses := by decide

/-- The first and the last read-only address. -/
theorem witness_ReadOnlyCsrRefused :
    (0x00 : Byte).toNat ∈ readOnlyAddresses ∧ (0x2B : Byte).toNat ∈ readOnlyAddresses := by decide

theorem witness_AcceptedWriteReadsBack :
    ∃ t, exec (.csrWrite 0x08 0x00013F0F) State.reset = .next t ∧
      t.cnt.illegal = State.reset.cnt.illegal := ⟨_, rfl, by decide⟩

/-- Both phases of the preamble, at the greatest threshold the statement takes. -/
theorem witness_SyncWindowsFar :
    ((cleanPreamble 0xAAAAAAAA).fsm.state = .searchSync ∧
      (cleanPreamble 0xAAAAAAAA).csr.softThreshold.toNat ≤ 10 ∧
      (cleanPreamble 0xAAAAAAAA).fsm.sr = 0xAAAAAAAA) ∧
    (cleanPreamble 0x55555555).fsm.state = .searchSync ∧
      (cleanPreamble 0x55555555).csr.softThreshold.toNat ≤ 10 ∧
      (cleanPreamble 0x55555555).fsm.sr = 0x55555555 := by decide

/-- An odd and an even count of bytes, and a batch of 16 words. -/
theorem witness_PseudoCommands :
    ([1, 2, 3] : List Byte).length % 2 = 1 ∧ ([1, 2, 3, 4] : List Byte).length % 2 = 0 ∧
    (List.replicate 16 (0x7A89C197 : Word)).length = 16 := by decide

end Sys2Proof.Tests
end

section
/-! PROOFS. Serving a command word at the port (00 R7, 30 R95; log entry 1). -/

namespace Sys2Proof.Machine

/-- A word that decodes to a command has that command's meaning (30 R95). -/
theorem performWith_of_decode_command {meaning : Meaning} {w : CmdWord} {i : Instr}
    (hdec : decode w = .command i) (s : State) : performWith meaning w s = meaning i s := by
  simp only [performWith, hdec]

/-- A command word at the head of the inputs is taken from the port, then performed. -/
theorem serveInput_of_command {meaning : Meaning} {s : State} {w : CmdWord} {rest : List Input}
    (hin : s.inputs = .command w :: rest) :
    serveInput meaning s = performWith meaning w (s.setInputs rest) := by
  simp only [serveInput, State.nextInput_cons hin]

/-- Settles O6: the step serves the word, and serving it is `exec` of what it decodes to. The
command's well-formedness is not needed. -/
theorem stepPerformsCommand : Obligations.StepPerformsCommand := by
  intro s w rest i hin hdec _
  calc step s = performWith exec w (s.setInputs rest) := serveInput_of_command hin
    _ = exec i (s.setInputs rest) := performWith_of_decode_command hdec _

end Sys2Proof.Machine
end

section
/-! PROOFS. Command and event words as numbers (30 R100 to R102), and the state's resets (10 R50). -/

namespace Sys2Proof.Machine

/-! ### Words as numbers -/

/-- The number of two joined fields: the high field above the low field's bits. -/
theorem toNat_append_eq {n m : Nat} (x : BitVec n) (y : BitVec m) :
    (x ++ y).toNat = x.toNat * 2 ^ m + y.toNat := by
  rw [BitVec.toNat_append, ← Nat.shiftLeft_add_eq_or_of_lt y.isLt, Nat.shiftLeft_eq]

theorem toNat_zero_append {n m : Nat} (y : BitVec m) : (0#n ++ y).toNat = y.toNat := by
  rw [toNat_append_eq, BitVec.toNat_ofNat, Nat.zero_mod, Nat.zero_mul, Nat.zero_add]

/-- The number of a field of a word (30 R93). -/
theorem toNat_extractLsb'_eq {n : Nat} (w : BitVec n) (lo len : Nat) :
    (w.extractLsb' lo len).toNat = w.toNat / 2 ^ lo % 2 ^ len := by
  rw [BitVec.extractLsb'_toNat, Nat.shiftRight_eq_div_pow]

/-- The number of a bit of a word. -/
theorem toNat_getLsbD {n : Nat} (w : BitVec n) (k : Nat) :
    (w.getLsbD k).toNat = w.toNat / 2 ^ k % 2 := by
  rw [← BitVec.testBit_toNat, Nat.toNat_testBit]

/-- An event word is the number of its type and payload (30 R100). -/
theorem Event.word_eq_eventWord (e : Event) : e.word = eventWord e.type.toNat e.payload.toNat := by
  apply BitVec.eq_of_toNat_eq
  have htype := e.type.isLt
  have hpayload := e.payload.isLt
  rw [Event.word, toNat_append_eq, eventWord, BitVec.toNat_ofNat, Nat.mod_eq_of_lt (by omega)]

/-- The type byte of an event's word (30 R100). -/
@[simp] theorem typeOf_word (e : Event) : typeOf e.word = e.type.toNat := by
  have hpayload := e.payload.isLt
  rw [typeOf, Event.word, toNat_append_eq]
  omega

/-- The RESULT of CSR_READ by numbers (30 R102). -/
theorem resultCsr_word (a : Byte) (v : Word) :
    (resultCsr a v).word = eventWord 0x30 (a.toNat * 2 ^ 32 + v.toNat) := by
  have hpayload : (resultCsr a v).payload.toNat = a.toNat * 2 ^ 32 + v.toNat :=
    (toNat_zero_append (a ++ v)).trans (toNat_append_eq a v)
  rw [Event.word_eq_eventWord, hpayload]
  rfl

/-- The ILLEGAL event by numbers (30 R101, 60 R272). -/
theorem illegal_word (addr op : Byte) (cause : Cause) :
    (Event.illegal addr op cause).word =
      eventWord 0x3F (addr.toNat * 2 ^ 16 + op.toNat * 2 ^ 8 + cause.code.toNat) := by
  have hpayload : (Event.illegal addr op cause).payload.toNat =
      addr.toNat * 2 ^ 16 + op.toNat * 2 ^ 8 + cause.code.toNat := by
    simp only [Event.payload, toNat_append_eq, BitVec.toNat_ofNat]
    omega
  rw [Event.word_eq_eventWord, hpayload]
  rfl

/-- A refusal by numbers (60 R271). -/
theorem raiseIllegal_eq_refusedWith (cause : Cause) (op addr : Byte) (s : State) :
    raiseIllegal cause op addr s = refusedWith cause.code.toNat op.toNat addr.toNat s := by
  rw [raiseIllegal, State.emit, illegal_word]
  rfl

/-! ### The resets -/

/-- A hardware reset at the head of the inputs is taken from the port and performed (70 R290). -/
theorem serveInput_of_hardReset {meaning : Meaning} {s : State} {rest : List Input}
    (hin : s.inputs = .hardReset :: rest) :
    serveInput meaning s = .next (hardwareReset (s.setInputs rest)) := by
  simp only [serveInput, State.nextInput_cons hin]

/-- Settles O8: the first column is what `hardwareReset` leaves, the second is `softReset`. -/
theorem resetValues : Obligations.ResetValues := by
  intro s rest
  refine ⟨fun hin => ⟨_, serveInput_of_hardReset hin, ?_⟩, rfl⟩
  exact ⟨rfl, rfl, rfl, rfl, rfl, rfl⟩

/-- Settles O9, by evaluating the closed state: the rates of 10 R50 are legal, the sample and the phase
are 0, no message is open and the buffer lists no byte. -/
theorem invAtReset : Obligations.InvAtReset := by
  unfold Obligations.InvAtReset
  decide

end Sys2Proof.Machine
end

section
/-! PROOFS. The registers of the CSR space, read and written (10 R21 to R41, 45 R251, R252). -/

namespace Sys2Proof.Machine

/-! ### The register of an address -/

/-- The mapped addresses with their registers (10 R21). -/
def mappedRegisters : List (Nat × Csr) :=
  [(0x00, .id), (0x01, .ctrl), (0x02, .threshold), (0x03, .sampleRate), (0x04, .symbolRate),
    (0x05, .timing), (0x06, .preamble), (0x07, .syncCfg), (0x08, .msgCfg), (0x10, .status),
    (0x11, .phase), (0x12, .acc), (0x13, .shiftReg), (0x14, .bitHist), (0x15, .errHist),
    (0x16, .msgAddr), (0x17, .msgAccum), (0x18, .prevIq), (0x20, .count .samples),
    (0x21, .count .bits), (0x22, .count .cwClean), (0x23, .count .cwFixed),
    (0x24, .count .cwUncorr), (0x25, .count .syncAcq), (0x26, .count .syncLost),
    (0x27, .count .batch), (0x28, .count .msg), (0x29, .count .trunc), (0x2A, .count .illegal),
    (0x2B, .count .overrun)]

/-- Each listed address is one byte and has the listed register. -/
theorem csrAt_mappedRegisters : ∀ p ∈ mappedRegisters,
    (BitVec.ofNat 8 p.1).toNat = p.1 ∧ csrAt (BitVec.ofNat 8 p.1) = some p.2 := by
  decide

/-- An address in neither list of 10 R21 has no register (10 R41). -/
theorem csrAt_eq_none {a : Byte} (hro : a.toNat ∉ readOnlyAddresses)
    (hrw : a.toNat ∉ readWriteAddresses) : csrAt a = none := by
  revert a
  decide

/-! ### CSR_READ and CSR_WRITE -/

theorem execCsrRead_of_unmapped {a : Byte} (ha : csrAt a = none) (s : State) :
    execCsrRead a s = .next (raiseIllegal .csrUnmapped 0x30 a s) := by
  simp only [execCsrRead, ha, Opcode.byte]

theorem execCsrRead_of_mapped {a : Byte} {r : Csr} (ha : csrAt a = some r) (s : State) :
    execCsrRead a s = .next (s.emit (resultCsr a (csrRead s r))) := by
  simp only [execCsrRead, ha]

/-- What CSR_READ does: it refuses the command, or reports a register (45 R251). -/
theorem execCsrRead_cases (a : Byte) (s : State) :
    execCsrRead a s = .next (raiseIllegal .csrUnmapped 0x30 a s) ∨
    ∃ v, execCsrRead a s = .next (s.emit (resultCsr a v)) := by
  cases ha : csrAt a with
  | none => exact .inl (execCsrRead_of_unmapped ha s)
  | some r => exact .inr ⟨_, execCsrRead_of_mapped ha s⟩

theorem execCsrWrite_of_unmapped {a : Byte} (ha : csrAt a = none) (v : Word) (s : State) :
    execCsrWrite a v s = .next (raiseIllegal .csrUnmapped 0x31 a s) := by
  simp only [execCsrWrite, csrWriteFor, ha, Opcode.byte]

/-- What CSR_WRITE does: it refuses the command, or writes a legal value into a read-write register
(45 R252). -/
theorem execCsrWrite_cases (a : Byte) (v : Word) (s : State) :
    (∃ cause, execCsrWrite a v s = .next (raiseIllegal cause 0x31 a s)) ∨
    (∃ r, csrAt a = some r ∧ r.writable = true ∧ csrLegal .build s.csr v r = true ∧
      execCsrWrite a v s = .next (csrWrite s v r)) := by
  cases ha : csrAt a with
  | none => exact .inl ⟨_, execCsrWrite_of_unmapped ha v s⟩
  | some r =>
    simp only [execCsrWrite, csrWriteFor, ha]
    split_ifs with hw hl
    · exact .inr ⟨r, rfl, hw, hl, rfl⟩
    · exact .inl ⟨_, rfl⟩
    · exact .inl ⟨_, rfl⟩

/-- Settles O53: an address in neither list has no register, and both commands refuse it. -/
theorem unmappedCsrRefused : Obligations.UnmappedCsrRefused := by
  intro a v s hro hrw
  have ha := csrAt_eq_none hro hrw
  constructor
  · calc exec (.csrRead a) s = .next (raiseIllegal .csrUnmapped 0x30 a s) :=
          execCsrRead_of_unmapped ha s
      _ = .next (refusedWith 3 0x30 a.toNat s) := by rw [raiseIllegal_eq_refusedWith]; rfl
  · calc exec (.csrWrite a v) s = .next (raiseIllegal .csrUnmapped 0x31 a s) :=
          execCsrWrite_of_unmapped ha v s
      _ = .next (refusedWith 3 0x31 a.toNat s) := by rw [raiseIllegal_eq_refusedWith]; rfl

/-- CSR_READ of a mapped address by numbers (30 R102, 45 R251). -/
theorem exec_csrRead_of_mapped {a : Byte} {r : Csr} (ha : csrAt a = some r) (s : State) :
    exec (.csrRead a) s = .next
      { s with evts := s.evts ++ [eventWord 0x30 (a.toNat * 2 ^ 32 + (csrRead s r).toNat)] } := by
  rw [← resultCsr_word]
  exact execCsrRead_of_mapped ha s

/-! ### The registers by numbers -/

theorem ctrlWord_toNat (c : CsrFields) : (ctrlWord c).toNat =
    c.bitTrace.toNat * 8 + c.trEn.toNat * 4 + c.invert.toNat * 2 + c.demodMode.bit.toNat := by
  simp only [ctrlWord, toNat_append_eq, BitVec.toNat_ofBool, BitVec.toNat_ofNat]
  omega

theorem timingWord_toNat (c : CsrFields) : (timingWord c).toNat = c.gainShift.toNat :=
  toNat_zero_append _

theorem preambleWord_toNat (c : CsrFields) :
    (preambleWord c).toNat = c.preMinLen.toNat * 2 ^ 16 + c.preStartRun.toNat :=
  toNat_append_eq _ _

theorem syncCfgWord_toNat (c : CsrFields) : (syncCfgWord c).toNat =
    c.errLimit.toNat * 2 ^ 16 + c.syncMissLimit.toNat * 2 ^ 8 + c.softThreshold.toNat := by
  simp only [syncCfgWord, toNat_append_eq, BitVec.toNat_ofNat]
  omega

theorem msgCfgWord_toNat (c : CsrFields) : (msgCfgWord c).toNat =
    c.cap.toNat * 2 ^ 16 + c.placeholder.toNat * 2 ^ 8 + c.kindMap.toNat := by
  simp only [msgCfgWord, toNat_append_eq, BitVec.toNat_ofNat]
  omega

theorem statusWord_toNat {f : Acquirer} (hf : FramingInRange f) (m : MsgReg) :
    (statusWord f m).toNat = f.miss.toNat * 2 ^ 14 + f.bitcnt * 2 ^ 9 + f.cwIndex * 2 ^ 4
      + m.kind.bit.toNat * 8 + m.isOpen.toNat * 4 + f.state.code.toNat := by
  obtain ⟨hbit, hcw, -⟩ := hf
  simp only [statusWord, toNat_append_eq, BitVec.toNat_ofBool, BitVec.toNat_ofNat]
  omega

theorem bitHistWord_toNat (x : SyncState) (f : Acquirer) : (bitHistWord x f).toNat =
    x.havePrevS.toNat * 2 ^ 19 + x.prevS.toNat * 2 ^ 18 + f.havePrev.toNat * 2 ^ 17
      + f.prevBit.toNat * 2 ^ 16 + f.altRun.toNat := by
  simp only [bitHistWord, toNat_append_eq, BitVec.toNat_ofBool, BitVec.toNat_ofNat]
  omega

theorem msgAddrWord_toNat (m : MsgReg) : (msgAddrWord m).toNat =
    m.err.toNat * 2 ^ 24 + m.trunc.toNat * 2 ^ 23 + m.func.toNat * 2 ^ 21 + m.capcode.toNat := by
  simp only [msgAddrWord, toNat_append_eq, BitVec.toNat_ofBool, BitVec.toNat_ofNat]
  omega

theorem Kind.width_le (k : Kind) : k.width ≤ 7 := by
  cases k <;> decide

theorem msgAccumWord_toNat {m : MsgReg} (hm : MessageInRange .build m) :
    (msgAccumWord m).toNat = m.nc * 2 ^ 16 + m.nb * 2 ^ 8 + m.bits.toNat := by
  obtain ⟨hnb, -, hnc, -⟩ := hm
  have hw := m.kind.width_le
  simp only [Config.build] at hnc
  simp only [msgAccumWord, toNat_append_eq, BitVec.toNat_ofNat]
  omega

theorem prevIqWord_toNat (d : DemodState) : (prevIqWord d).toNat =
    (d.pq % 2 ^ 16).toNat * 2 ^ 16 + (d.pi % 2 ^ 16).toNat := by
  rw [prevIqWord, toNat_append_eq, BitVec.toNat_ofInt, BitVec.toNat_ofInt]
  rfl

theorem phaseWord_toNat {c : CsrFields} {x : SyncState} (h : PhaseInSymbol c x) :
    (BitVec.ofNat 32 x.phase).toNat = x.phase := by
  have := c.sampleRate.isLt
  rw [BitVec.toNat_ofNat]
  omega

/-- In a state of the invariant every register reads the number its rule gives (10 R22 to R40). -/
theorem registerValues_eq {s : State} (h : s.Inv .build) :
    registerValues s = mappedRegisters.map fun p => (p.1, (csrRead s p.2).toNat) := by
  obtain ⟨-, -, hphase, hframing, -, hmessage, -⟩ := h
  have herr : (0#16 ++ s.fsm.errHist : Word).toNat = s.fsm.errHist.toNat :=
    toNat_zero_append _
  simp only [mappedRegisters, List.map_cons, List.map_nil, csrRead, ctrlWord_toNat,
    timingWord_toNat, preambleWord_toNat, syncCfgWord_toNat, msgCfgWord_toNat,
    statusWord_toNat hframing, bitHistWord_toNat, msgAddrWord_toNat, msgAccumWord_toNat hmessage,
    prevIqWord_toNat, phaseWord_toNat hphase, herr]
  rfl

/-- Settles O51: the address has its register in `mappedRegisters`, which reads the listed number. -/
theorem csrReadValues : Obligations.CsrReadValues := by
  intro s hinv p hp
  rw [registerValues_eq hinv] at hp
  obtain ⟨⟨a, r⟩, hmem, rfl⟩ := List.mem_map.mp hp
  obtain ⟨hbyte, hat⟩ := csrAt_mappedRegisters _ hmem
  rw [exec_csrRead_of_mapped hat, hbyte]

/-- Settles O52: O51 at the reset state, whose register values are the table's reset column. -/
theorem registersAtReset : Obligations.RegistersAtReset := by
  intro p hp
  exact csrReadValues State.reset invAtReset p hp

/-! ### What a write leaves to be read -/

theorem bit_ofBit (b : Bool) : (DemodMode.ofBit b).bit = b := by
  cases b <;> rfl

/-- A field is 0 exactly when its number is (45 R255). -/
theorem extractLsb'_beq_zero {n : Nat} (w : BitVec n) (lo len : Nat) :
    (w.extractLsb' lo len == 0) = true ↔ w.toNat / 2 ^ lo % 2 ^ len = 0 := by
  rw [beq_iff_eq, ← toNat_extractLsb'_eq, ← BitVec.toNat_inj]
  rfl

theorem csrWrite_csr (s : State) (v : Word) (r : Csr) :
    (csrWrite s v r).csr = csrSet s.csr v r := by
  unfold csrWrite
  split <;> rfl

theorem ctrlWord_csrSet {c : CsrFields} {v : Word} (hl : csrLegal .build c v .ctrl = true) :
    ctrlWord (csrSet c v .ctrl) = v := by
  have hzero := (extractLsb'_beq_zero v 4 28).mp hl
  apply BitVec.eq_of_toNat_eq
  simp only [ctrlWord_toNat, csrSet, bit_ofBit, toNat_getLsbD]
  omega

theorem timingWord_csrSet {c : CsrFields} {v : Word} (hl : csrLegal .build c v .timing = true) :
    timingWord (csrSet c v .timing) = v := by
  have hzero := (extractLsb'_beq_zero v 5 27).mp hl
  apply BitVec.eq_of_toNat_eq
  simp only [timingWord_toNat, csrSet, toNat_extractLsb'_eq]
  omega

theorem preambleWord_csrSet (c : CsrFields) (v : Word) :
    preambleWord (csrSet c v .preamble) = v := by
  apply BitVec.eq_of_toNat_eq
  simp only [preambleWord_toNat, csrSet, toNat_extractLsb'_eq]
  omega

theorem syncCfgWord_csrSet {c : CsrFields} {v : Word} (hl : csrLegal .build c v .syncCfg = true) :
    syncCfgWord (csrSet c v .syncCfg) = v := by
  simp only [csrLegal, Bool.and_eq_true, extractLsb'_beq_zero] at hl
  obtain ⟨⟨hhigh, hmid⟩, -⟩ := hl
  apply BitVec.eq_of_toNat_eq
  simp only [syncCfgWord_toNat, csrSet, toNat_extractLsb'_eq]
  omega

theorem msgCfgWord_csrSet {c : CsrFields} {v : Word} (hl : csrLegal .build c v .msgCfg = true) :
    msgCfgWord (csrSet c v .msgCfg) = v := by
  simp only [csrLegal, Bool.and_eq_true, extractLsb'_beq_zero] at hl
  obtain ⟨⟨hzero, -⟩, -⟩ := hl
  apply BitVec.eq_of_toNat_eq
  simp only [msgCfgWord_toNat, csrSet, toNat_extractLsb'_eq]
  omega

/-- The bits a register has no field for are 0 in a legal value, so the fields hold all of it (10 R21,
45 R252, R255). -/
theorem csrRead_csrWrite {s : State} {v : Word} {r : Csr} (hw : r.writable = true)
    (hl : csrLegal .build s.csr v r = true) : csrRead (csrWrite s v r) r = v := by
  cases r with
  | ctrl => rw [csrRead, csrWrite_csr, ctrlWord_csrSet hl]
  | threshold => rfl
  | sampleRate => rfl
  | symbolRate => rfl
  | timing => rw [csrRead, csrWrite_csr, timingWord_csrSet hl]
  | preamble => rw [csrRead, csrWrite_csr, preambleWord_csrSet]
  | syncCfg => rw [csrRead, csrWrite_csr, syncCfgWord_csrSet hl]
  | msgCfg => rw [csrRead, csrWrite_csr, msgCfgWord_csrSet hl]
  | _ => cases hw

/-- Settles O56: a refusal would have counted, so the value was written, and it reads back. -/
theorem acceptedWriteReadsBack : Obligations.AcceptedWriteReadsBack := by
  intro a v s t ht hcount
  rcases execCsrWrite_cases a v s with ⟨cause, hrefused⟩ | ⟨r, hat, hw, hl, haccepted⟩
  · obtain rfl : raiseIllegal cause 0x31 a s = t := by
      simpa using hrefused.symm.trans ht
    have hadd : s.cnt.illegal + 1 = s.cnt.illegal := hcount
    bv_omega
  · obtain rfl : csrWrite s v r = t := by
      simpa using haccepted.symm.trans ht
    rw [exec_csrRead_of_mapped hat, csrRead_csrWrite hw hl]

end Sys2Proof.Machine
end

section
/-! PROOFS. Bytes of the buffer at `msg.nc` and above make no difference (10 R47; log entry 5). -/

namespace Sys2Proof.Machine

/-- Two buffers agree on the bytes below `n`. -/
def AgreeBelow (n : Nat) (m m' : Memory) : Prop :=
  ∀ k, k < n → m.read k = m'.read k

theorem AgreeBelow.zero (m m' : Memory) : AgreeBelow 0 m m' :=
  fun _ hk => absurd hk (Nat.not_lt_zero _)

/-- The same byte written at the bound makes the buffers agree on one byte more. -/
theorem AgreeBelow.write {n : Nat} {m m' : Memory} (h : AgreeBelow n m m') (b : Byte) :
    AgreeBelow (n + 1) (m.write n b) (m'.write n b) := by
  intro k hk
  rw [Memory.read_write, Memory.read_write]
  split
  · rfl
  · exact h k (by omega)

/-- A message's events read its characters and no byte above them (44 R224). -/
theorem messageEvents_congr {r : MsgReg} {m m' : Memory} (h : AgreeBelow r.nc m m') :
    messageEvents r m = messageEvents r m' := by
  have hchars : charsFrom m 0 r.nc = charsFrom m' 0 r.nc :=
    List.map_congr_left fun k hk => by
      have hlt : k < r.nc := by simpa using hk
      rw [h k hlt]
  rw [messageEvents, messageEvents, hchars]

/-- A state and the same state with another buffer that agrees below `msg.nc`. -/
theorem AgreeBelow.same {s : State} {m : Memory} (h : AgreeBelow s.msg.nc s.buf m) :
    SameButUnread s (s.setBuf m) :=
  ⟨rfl, rfl, rfl, rfl, rfl, rfl, rfl, rfl, h⟩

/-- States that differ only in unread bytes differ only in the buffer. -/
theorem SameButUnread.exists_setBuf {s t : State} (h : SameButUnread s t) :
    ∃ m, AgreeBelow s.msg.nc s.buf m ∧ t = s.setBuf m := by
  obtain ⟨hcsr, hdemod, hsync, hfsm, hmsg, hcnt, hevts, hinputs, hbuf⟩ := h
  exact ⟨t.buf, hbuf, State.ext_parts hcsr.symm hdemod.symm hsync.symm hfsm.symm hmsg.symm rfl
    hcnt.symm hevts.symm hinputs.symm⟩

/-- If the first operation answers a state, the second answers one that differs only in unread
bytes. -/
def Follows (r r' : Except Fault State) : Prop :=
  ∀ s', r = .ok s' → ∃ t', r' = .ok t' ∧ SameButUnread s' t'

theorem Follows.ok {s t : State} (h : SameButUnread s t) : Follows (.ok s) (.ok t) := by
  rintro _ ⟨⟩
  exact ⟨t, rfl, h⟩

/-- Both operations take the same branch. -/
theorem Follows.ite {c : Prop} [Decidable c] {a a' b b' : Except Fault State}
    (ha : Follows a a') (hb : Follows b b') :
    Follows (if c then a else b) (if c then a' else b') := by
  split
  · exact ha
  · exact hb

/-- The same branch for states. -/
theorem SameButUnread.ite {c : Prop} [Decidable c] {a a' b b' : State} (ha : SameButUnread a a')
    (hb : SameButUnread b b') : SameButUnread (if c then a else b) (if c then a' else b') := by
  split
  · exact ha
  · exact hb

theorem setFsm_sameButUnread {s t : State} (h : SameButUnread s t) (v : Acquirer) :
    SameButUnread (s.setFsm v) (t.setFsm v) := by
  obtain ⟨m, hm, rfl⟩ := h.exists_setBuf
  exact hm.same (s := s.setFsm v)

theorem setSync_sameButUnread {s t : State} (h : SameButUnread s t) (v : SyncState) :
    SameButUnread (s.setSync v) (t.setSync v) := by
  obtain ⟨m, hm, rfl⟩ := h.exists_setBuf
  exact hm.same (s := s.setSync v)

theorem emit_sameButUnread {s t : State} (h : SameButUnread s t) (e : Event) :
    SameButUnread (s.emit e) (t.emit e) := by
  obtain ⟨m, hm, rfl⟩ := h.exists_setBuf
  exact hm.same (s := s.emit e)

theorem inc_sameButUnread {s t : State} (h : SameButUnread s t) (c : Counter) (n : Word) :
    SameButUnread (s.inc c n) (t.inc c n) := by
  obtain ⟨m, hm, rfl⟩ := h.exists_setBuf
  exact hm.same (s := s.inc c n)

/-! ### The parser -/

theorem finalized_sameButUnread {s t : State} (h : SameButUnread s t) :
    SameButUnread (finalized s) (finalized t) := by
  obtain ⟨m, hm, rfl⟩ := h.exists_setBuf
  have hev : messageEvents s.msg s.buf = messageEvents s.msg m := messageEvents_congr hm
  have hcnt : (finalized (s.setBuf m)).cnt = (finalized s).cnt := by
    rw [finalized_cnt, finalized_cnt]
    rfl
  simp [SameButUnread, hcnt, hev, MsgReg.closed]

theorem finalize_follows {cfg : Config} {s t : State} (h : SameButUnread s t) :
    Follows (finalize cfg s) (finalize cfg t) := by
  intro s' hs'
  obtain ⟨hnc, rfl⟩ := finalize_ok.mp hs'
  refine ⟨finalized t, finalize_ok.mpr ⟨?_, rfl⟩, finalized_sameButUnread h⟩
  obtain ⟨m, -, rfl⟩ := h.exists_setBuf
  exact hnc

theorem finalizeIfOpen_follows {cfg : Config} {s t : State} (h : SameButUnread s t) :
    Follows (finalizeIfOpen cfg s) (finalizeIfOpen cfg t) := by
  have hfin := finalize_follows (cfg := cfg) h
  obtain ⟨m, hm, rfl⟩ := h.exists_setBuf
  exact .ite hfin (.ok h)

/-- The appended byte stands below the new `msg.nc` in both buffers (44 R219). -/
theorem appended_sameButUnread {s t : State} (h : SameButUnread s t) (u : BitVec 7) :
    SameButUnread (appended u s) (appended u t) := by
  obtain ⟨m, hm, rfl⟩ := h.exists_setBuf
  exact (hm.write _).same (s := appended u s)

theorem appendUnit_follows {cfg : Config} {s t : State} (h : SameButUnread s t) (u : BitVec 7) :
    Follows (appendUnit cfg u s) (appendUnit cfg u t) := by
  intro s' hs'
  have happ := appended_sameButUnread h u
  obtain ⟨m, hm, rfl⟩ := h.exists_setBuf
  rcases appendUnit_ok.mp hs' with ⟨hcap, hnc, rfl⟩ | ⟨hcap, hnc, rfl⟩
  · exact ⟨_, appendUnit_ok.mpr (.inl ⟨hcap, hnc, rfl⟩),
      finalized_sameButUnread (hm.same (s := s.setMsg (truncatedMsg s.msg)))⟩
  · exact ⟨_, appendUnit_ok.mpr (.inr ⟨hcap, hnc, rfl⟩), happ⟩

theorem accum_follows {cfg : Config} {s t : State} (h : SameButUnread s t) (b : Bool) :
    Follows (accum cfg b s) (accum cfg b t) := by
  have hunit := appendUnit_follows (cfg := cfg) h (addBit s.msg b)
  obtain ⟨m, hm, rfl⟩ := h.exists_setBuf
  exact .ite hunit (.ok (hm.same (s := s.setMsg
    { s.msg with bits := addBit s.msg b, nb := s.msg.nb + 1 })))

theorem accumBits_follows {cfg : Config} : ∀ (bs : List Bool) {s t : State}, SameButUnread s t →
    Follows (accumBits cfg bs s) (accumBits cfg bs t)
  | [], _, _, h => .ok h
  | b :: bs, s, t, h => by
    intro s' hs'
    obtain ⟨u, hu, hrest⟩ := accumBits_cons.mp hs'
    obtain ⟨u', hu', hsame⟩ := accum_follows h b u hu
    have hmsg : u.msg = u'.msg := by obtain ⟨m, -, rfl⟩ := hsame.exists_setBuf; rfl
    rcases hrest with ⟨ho, hs'⟩ | ⟨ho, rfl⟩
    · obtain ⟨t', ht', hst'⟩ := accumBits_follows bs hsame s' hs'
      exact ⟨t', accumBits_cons.mpr ⟨u', hu', .inl ⟨hmsg ▸ ho, ht'⟩⟩, hst'⟩
    · exact ⟨u', accumBits_cons.mpr ⟨u', hu', .inr ⟨hmsg ▸ ho, rfl⟩⟩, hsame⟩

/-- The opened message has no characters, so no byte below its `msg.nc` is left to compare. -/
theorem parseAddress_follows {cfg : Config} {s t : State} (h : SameButUnread s t) (c : Word)
    (slot : BitVec 4) : Follows (parseAddress cfg c slot s) (parseAddress cfg c slot t) := by
  intro s' hs'
  obtain ⟨u, hu, rfl⟩ := parseAddress_ok.mp hs'
  obtain ⟨u', hu', hsame⟩ := finalizeIfOpen_follows h u hu
  obtain ⟨m, -, rfl⟩ := h.exists_setBuf
  obtain ⟨n, -, rfl⟩ := hsame.exists_setBuf
  exact ⟨_, parseAddress_ok.mpr ⟨_, hu', rfl⟩,
    (AgreeBelow.zero _ _).same (s := u.setMsg (openedMessage s.csr.kindMap c slot))⟩

theorem parse_follows {cfg : Config} {s t : State} (h : SameButUnread s t) (c : Word)
    (slot : BitVec 4) : Follows (parse cfg c slot s) (parse cfg c slot t) := by
  have hidle := finalizeIfOpen_follows (cfg := cfg) h
  have hbits := accumBits_follows (cfg := cfg) (payloadBits c) h
  have haddr := parseAddress_follows (cfg := cfg) h c slot
  obtain ⟨m, hm, rfl⟩ := h.exists_setBuf
  exact .ite hidle (.ite (.ok h) (.ite (.ite hbits (.ok h)) haddr))

/-! ### The frame acquirer -/

theorem loseSync_follows {cfg : Config} {s t : State} (h : SameButUnread s t)
    (reason : LossReason) : Follows (loseSync cfg reason s) (loseSync cfg reason t) := by
  intro s' hs'
  obtain ⟨u, hu, rfl⟩ := loseSync_ok.mp hs'
  obtain ⟨u', hu', hsame⟩ := finalizeIfOpen_follows h u hu
  obtain ⟨m, -, rfl⟩ := h.exists_setBuf
  obtain ⟨n, hn, rfl⟩ := hsame.exists_setBuf
  exact ⟨_, loseSync_ok.mpr ⟨_, hu', rfl⟩, hn.same
    (s := ((u.setFsm (reframe s.fsm .searchPreambleStart)).inc .syncLost 1).emit (.syncLost reason))⟩

theorem windowFailure_follows {cfg : Config} {s t : State} (h : SameButUnread s t) :
    Follows (windowFailure cfg s) (windowFailure cfg t) := by
  have hpush := setFsm_sameButUnread h (pushErr s.fsm true)
  have hlose := loseSync_follows (cfg := cfg) hpush .errorRate
  obtain ⟨m, hm, rfl⟩ := h.exists_setBuf
  exact .ite hlose (.ok hpush)

theorem markUncorrectable_sameButUnread {s t : State} (h : SameButUnread s t) :
    SameButUnread (markUncorrectable s) (markUncorrectable t) := by
  obtain ⟨m, hm, rfl⟩ := h.exists_setBuf
  exact .ite (hm.same (s := (s.inc .cwUncorr 1).setMsg { s.msg with err := true }))
    (hm.same (s := s.inc .cwUncorr 1))

theorem countCorrected_sameButUnread {s t : State} (h : SameButUnread s t) (flips : BitVec 2)
    (f : Bool) : SameButUnread (countCorrected flips f s) (countCorrected flips f t) := by
  obtain ⟨m, hm, rfl⟩ := h.exists_setBuf
  cases f
  · exact hm.same (s := countCorrected flips false s)
  · exact hm.same (s := countCorrected flips true s)

theorem dataWord_follows {cfg : Config} {s t : State} (h : SameButUnread s t) (w : Word)
    (slot : BitVec 4) (f : Bool) : Follows (dataWord cfg w slot f s) (dataWord cfg w slot f t) :=
  .ite (parse_follows (countCorrected_sameButUnread h _ _) _ _)
    (.ite (windowFailure_follows (markUncorrectable_sameButUnread h))
      (.ok (markUncorrectable_sameButUnread h)))

theorem missSync_follows {cfg : Config} {s t : State} (h : SameButUnread s t) :
    Follows (missSync cfg s) (missSync cfg t) := by
  have hlose := loseSync_follows (cfg := cfg)
    (setFsm_sameButUnread h { s.fsm with miss := countMiss s.fsm.miss }) .syncMissed
  obtain ⟨m, hm, rfl⟩ := h.exists_setBuf
  exact .ite hlose (.ok (hm.same (s := (s.setFsm { s.fsm with
    miss := countMiss s.fsm.miss, cwIndex := 0 }).emit (.syncMiss (countMiss s.fsm.miss)))))

theorem synchedWord_follows {cfg : Config} {s t : State} (h : SameButUnread s t) (w : Word) :
    Follows (synchedWord cfg w s) (synchedWord cfg w t) := by
  have hmiss := missSync_follows (cfg := cfg) h
  have hdata := dataWord_follows (cfg := cfg)
    (setFsm_sameButUnread h { s.fsm with cwIndex := s.fsm.cwIndex + 1 }) w
    (BitVec.ofNat 4 s.fsm.cwIndex) true
  obtain ⟨m, hm, rfl⟩ := h.exists_setBuf
  exact .ite (.ite (.ok (hm.same (s := acceptSync (correct w).flips s))) hmiss) hdata

theorem stepSynched_follows {cfg : Config} {s t : State} (h : SameButUnread s t) :
    Follows (stepSynched cfg s) (stepSynched cfg t) := by
  have hword := synchedWord_follows (cfg := cfg)
    (setFsm_sameButUnread h { s.fsm with bitcnt := 0 }) s.fsm.sr
  have hbit := setFsm_sameButUnread h { s.fsm with bitcnt := s.fsm.bitcnt + 1 }
  obtain ⟨m, hm, rfl⟩ := h.exists_setBuf
  exact .ite hword (.ok hbit)

theorem recordBit_sameButUnread {s t : State} (h : SameButUnread s t) (b : Bool) :
    SameButUnread (recordBit b s) (recordBit b t) := by
  obtain ⟨m, hm, rfl⟩ := h.exists_setBuf
  exact hm.same (s := recordBit b s)

theorem stepPreambleStart_sameButUnread {s t : State} (h : SameButUnread s t) :
    SameButUnread (stepPreambleStart s) (stepPreambleStart t) := by
  have hmove := setFsm_sameButUnread h { s.fsm with state := .searchPreambleEnd }
  obtain ⟨m, hm, rfl⟩ := h.exists_setBuf
  exact .ite hmove h

theorem stepPreambleEnd_sameButUnread {s t : State} (h : SameButUnread s t) (brk : Bool)
    (altPrev : BitVec 16) :
    SameButUnread (stepPreambleEnd brk altPrev s) (stepPreambleEnd brk altPrev t) := by
  have hmove := setFsm_sameButUnread h { s.fsm with
    state := if s.csr.preMinLen.toNat ≤ altPrev.toNat then .searchSync else .searchPreambleStart }
  obtain ⟨m, hm, rfl⟩ := h.exists_setBuf
  exact .ite hmove h

theorem stepSearchSync_sameButUnread {s t : State} (h : SameButUnread s t) :
    SameButUnread (stepSearchSync s) (stepSearchSync t) := by
  obtain ⟨m, hm, rfl⟩ := h.exists_setBuf
  exact .ite (hm.same (s := acquire (syncDistance s.fsm.sr) s)) h

theorem fsmBit_follows {cfg : Config} {s t : State} (h : SameButUnread s t) (b : Bool) :
    Follows (fsmBit cfg b s) (fsmBit cfg b t) := by
  have hrec := recordBit_sameButUnread h b
  obtain ⟨m, hm, rfl⟩ := h.exists_setBuf
  unfold fsmBit
  rw [State.setBuf_fsm]
  cases s.fsm.state with
  | searchPreambleStart => exact .ok (stepPreambleStart_sameButUnread hrec)
  | searchPreambleEnd => exact .ok (stepPreambleEnd_sameButUnread hrec _ _)
  | searchSync => exact .ok (stepSearchSync_sameButUnread hrec)
  | synched => exact stepSynched_follows hrec

/-! ### The synchronizer and the commands -/

theorem traceBit_sameButUnread {s t : State} (h : SameButUnread s t) (acc : Int) (b : Bool) :
    SameButUnread (traceBit acc b s) (traceBit acc b t) := by
  have hemit := emit_sameButUnread h (.bit (BitVec.ofNat 32 acc.natAbs) b)
  obtain ⟨m, hm, rfl⟩ := h.exists_setBuf
  exact .ite hemit h

theorem syncStep_follows {cfg : Config} {s t : State} (h : SameButUnread s t) (y : Int) :
    Follows (syncStep cfg y s) (syncStep cfg y t) := by
  have hsync := setSync_sameButUnread h
  have hbit := fun v => fsmBit_follows (cfg := cfg)
    (traceBit_sameButUnread (hsync (endSymbol s.csr s.sync v)) (accumulate s.sync.acc v)
      (hardBit (accumulate s.sync.acc v) s.csr.invert))
    (hardBit (accumulate s.sync.acc v) s.csr.invert)
  have hinside := fun v => hsync (integrateOnly s.csr s.sync v)
  obtain ⟨m, hm, rfl⟩ := h.exists_setBuf
  exact .ite (hbit _) (.ok (hinside _))

theorem keepSample_sameButUnread {s t : State} (h : SameButUnread s t) (cfg : Config) (i q : Byte) :
    SameButUnread (keepSample cfg i q s) (keepSample cfg i q t) := by
  obtain ⟨m, hm, rfl⟩ := h.exists_setBuf
  exact hm.same (s := keepSample cfg i q s)

theorem raiseIllegal_sameButUnread {s t : State} (h : SameButUnread s t) (cause : Cause)
    (op addr : Byte) :
    SameButUnread (raiseIllegal cause op addr s) (raiseIllegal cause op addr t) :=
  emit_sameButUnread (inc_sameButUnread h _ _) _

theorem softReset_sameButUnread {s t : State} (h : SameButUnread s t) :
    SameButUnread (softReset s) (softReset t) := by
  obtain ⟨m, -, rfl⟩ := h.exists_setBuf
  exact (AgreeBelow.zero _ _).same (s := softReset s)

theorem csrWrite_sameButUnread {s t : State} (h : SameButUnread s t) (v : Word) (r : Csr) :
    SameButUnread (csrWrite s v r) (csrWrite t v r) := by
  obtain ⟨m, hm, rfl⟩ := h.exists_setBuf
  exact .ite (hm.same
      (s := (s.setCsr (csrSet s.csr v r)).setSync { s.sync with phase := 0, acc := 0 }))
    (hm.same (s := s.setCsr (csrSet s.csr v r)))

/-- No register shows a byte of the buffer (10 R21). -/
theorem csrRead_congr {s t : State} (h : SameButUnread s t) (r : Csr) :
    csrRead s r = csrRead t r := by
  obtain ⟨m, -, rfl⟩ := h.exists_setBuf
  rfl

/-- `Follows` for what a command answers. -/
def OutcomeFollows (o o' : Host.Outcome State Fault Refusal) : Prop :=
  ∀ s', o = .next s' → ∃ t', o' = .next t' ∧ SameButUnread s' t'

theorem OutcomeFollows.next {s t : State} (h : SameButUnread s t) :
    OutcomeFollows (.next s) (.next t) := by
  rintro _ ⟨⟩
  exact ⟨t, rfl, h⟩

theorem Follows.answer {r r' : Except Fault State} (h : Follows r r') :
    OutcomeFollows (answer r) (answer r') := by
  intro s' hs'
  obtain ⟨t', rfl, hsame⟩ := h s' (answer_eq_next.mp hs')
  exact ⟨t', rfl, hsame⟩

theorem execCsrRead_follows {s t : State} (h : SameButUnread s t) (a : Byte) :
    OutcomeFollows (execCsrRead a s) (execCsrRead a t) := by
  cases ha : csrAt a with
  | none =>
    rw [execCsrRead_of_unmapped ha, execCsrRead_of_unmapped ha]
    exact .next (raiseIllegal_sameButUnread h _ _ _)
  | some r =>
    rw [execCsrRead_of_mapped ha, execCsrRead_of_mapped ha, csrRead_congr h r]
    exact .next (emit_sameButUnread h _)

theorem execCsrWrite_follows {s t : State} (h : SameButUnread s t) (a : Byte) (v : Word) :
    OutcomeFollows (execCsrWrite a v s) (execCsrWrite a v t) := by
  have hcsr : s.csr = t.csr := h.1
  unfold execCsrWrite csrWriteFor
  cases csrAt a with
  | none => exact .next (raiseIllegal_sameButUnread h _ _ _)
  | some r =>
    dsimp only
    rw [hcsr]
    split_ifs
    · exact .next (csrWrite_sameButUnread h v r)
    · exact .next (raiseIllegal_sameButUnread h _ _ _)
    · exact .next (raiseIllegal_sameButUnread h _ _ _)

/-- The demod value of a sample is computed from the configuration and the kept sample. -/
theorem execSample_follows {s t : State} (h : SameButUnread s t) (i q : Byte) :
    OutcomeFollows (execSample i q s) (execSample i q t) := by
  have hstep := syncStep_follows (cfg := .build) (keepSample_sameButUnread h .build i q)
    (sampleValue .build i q s)
  obtain ⟨m, -, rfl⟩ := h.exists_setBuf
  exact hstep.answer

/-- One command: the same events, and again only unread bytes apart. -/
theorem exec_follows {s t : State} (i : Instr) (h : SameButUnread s t) :
    OutcomeFollows (exec i s) (exec i t) := by
  cases i with
  | nop => exact .next h
  | sample ib qb => exact execSample_follows h ib qb
  | sampleLoss n => exact .next (inc_sameButUnread h .overrun n)
  | magIn y => exact (syncStep_follows h (signed32 y)).answer
  | bitIn b => exact (fsmBit_follows h b).answer
  | cwIn w slot => exact (dataWord_follows h w slot false).answer
  | demodQuery ib qb ip qp mode => exact .next (emit_sameButUnread h _)
  | bchSyndrome w => exact .next (emit_sameButUnread h _)
  | bchCorrect w => exact .next (emit_sameButUnread h _)
  | csrRead a => exact execCsrRead_follows h a
  | csrWrite a v => exact execCsrWrite_follows h a v
  | flush => exact (finalizeIfOpen_follows h).answer
  | reset => exact .next (softReset_sameButUnread h)

/-- A list of commands answers when its first command does and the rest does after it (20 R79). -/
theorem execAll_cons_eq_next {i : Instr} {is : List Instr} {s t : State} :
    execAll (i :: is) s = .next t ↔ ∃ u, exec i s = .next u ∧ execAll is u = .next t := by
  rw [execAll]
  cases exec i s <;> simp

theorem execAll_follows (is : List Instr) {s t : State} (h : SameButUnread s t) :
    OutcomeFollows (execAll is s) (execAll is t) := by
  induction is generalizing s t with
  | nil => exact .next h
  | cons i is ih =>
    intro s' hs'
    obtain ⟨u, hu, hrest⟩ := execAll_cons_eq_next.mp hs'
    obtain ⟨u', hu', hsame⟩ := exec_follows i h u hu
    obtain ⟨t', ht', hsame'⟩ := ih hsame s' hrest
    exact ⟨t', execAll_cons_eq_next.mpr ⟨u', hu', ht'⟩, hsame'⟩

/-- Settles O16: each command keeps the relation (`exec_follows`), and so does a list of them. -/
theorem unreadBytesDoNotMatter : Obligations.UnreadBytesDoNotMatter := by
  intro is s t s' h hs'
  exact execAll_follows is h s' hs'

end Sys2Proof.Machine
end

section
/-! PROOFS. Only CSR_WRITE changes the configuration (10 R21, R49; log entries 1 and 11). -/

namespace Sys2Proof.Machine

theorem csrWrite_inputs (s : State) (v : Word) (r : Csr) : (csrWrite s v r).inputs = s.inputs := by
  unfold csrWrite
  split <;> rfl

/-- CSR_WRITE leaves what the host does next alone. -/
theorem execCsrWrite_inputs {a : Byte} {v : Word} {s t : State}
    (h : execCsrWrite a v s = .next t) : t.inputs = s.inputs := by
  rcases execCsrWrite_cases a v s with ⟨cause, hs⟩ | ⟨r, -, -, -, hs⟩
  · obtain rfl := Host.Outcome.next.inj (hs.symm.trans h)
    rfl
  · obtain rfl := Host.Outcome.next.inj (hs.symm.trans h)
    exact csrWrite_inputs s v r

/-- Every command but CSR_WRITE leaves the configuration and the inputs alone. -/
theorem exec_keeps {i : Instr} {s t : State} (hi : ∀ a v, i ≠ .csrWrite a v)
    (h : exec i s = .next t) : t.csr = s.csr ∧ t.inputs = s.inputs := by
  cases i with
  | nop | sampleLoss _ | demodQuery _ _ _ _ _ | bchSyndrome _ | bchCorrect _ | reset =>
    obtain rfl := Host.Outcome.next.inj h
    exact ⟨rfl, rfl⟩
  | sample _ _ | magIn _ =>
    obtain ⟨hcsr, -, hinputs⟩ := syncStep_keeps (answer_eq_next.mp h)
    exact ⟨hcsr, hinputs⟩
  | bitIn b =>
    obtain ⟨hcsr, -, -, hinputs⟩ := fsmBit_keeps (answer_eq_next.mp h)
    exact ⟨hcsr, hinputs⟩
  | cwIn w slot =>
    obtain ⟨hcsr, -, -, hinputs⟩ := dataWord_keeps (answer_eq_next.mp h)
    exact ⟨hcsr, hinputs⟩
  | csrRead a =>
    rcases execCsrRead_cases a s with hs | ⟨v, hs⟩
    · obtain rfl := Host.Outcome.next.inj (hs.symm.trans h)
      exact ⟨rfl, rfl⟩
    · obtain rfl := Host.Outcome.next.inj (hs.symm.trans h)
      exact ⟨rfl, rfl⟩
  | csrWrite a v => exact absurd rfl (hi a v)
  | flush =>
    obtain ⟨hcsr, -, -, -, hinputs⟩ := finalizeIfOpen_keeps (answer_eq_next.mp h)
    exact ⟨hcsr, hinputs⟩

/-- Settles O12: CSR_WRITE keeps the inputs, every other command the configuration as well. -/
theorem configurationKept : Obligations.ConfigurationKept := by
  intro i s t h
  refine ⟨?_, fun hi => (exec_keeps hi h).1⟩
  by_cases hi : ∃ a v, i = .csrWrite a v
  · obtain ⟨a, v, rfl⟩ := hi
    exact execCsrWrite_inputs h
  · exact (exec_keeps (fun a v ha => hi ⟨a, v, ha⟩) h).2

end Sys2Proof.Machine
end

section
/-! PROOFS. Five counters count exactly their events (10 R40, R48, 60 R271). -/

namespace Sys2Proof.Machine

/-! ### Counting events by type -/

theorem countType_append (n : Nat) (es fs : List EvtWord) :
    countType n (es ++ fs) = countType n es + countType n fs := by
  simp only [countType, List.filter_append, List.length_append, BitVec.ofNat_add]

/-- One event counts for its own type (30 R100). -/
theorem countType_word (n : Nat) (e : Event) :
    countType n [e.word] = if e.type.toNat = n then 1 else 0 := by
  by_cases h : e.type.toNat = n <;> simp [countType, h]

/-- Events of other types count for nothing. -/
theorem countType_eq_zero {n : Nat} {es : List Event} (h : ∀ e ∈ es, e.type.toNat ≠ n) :
    countType n (es.map Event.word) = 0 := by
  have hnone : (es.map Event.word).filter (fun w => typeOf w == n) = [] := by
    simpa [List.filter_eq_nil_iff] using h
  rw [countType, hnone]
  rfl

/-- A message counts once, for its header (44 R224). -/
theorem countType_messageEvents {n : Nat} (hchar : n ≠ 0x02) (hend : n ≠ 0x03) (r : MsgReg)
    (m : Memory) :
    countType n ((messageEvents r m).map Event.word) = if 0x01 = n then 1 else 0 := by
  have hrest : countType n ((charsFrom m 0 r.nc ++ [Event.msgEnd (BitVec.ofNat 16 r.nc)]).map
      Event.word)
      = 0 := by
    refine countType_eq_zero fun e he => ?_
    rcases List.mem_append.mp he with he | he
    · obtain ⟨k, -, rfl⟩ := List.mem_map.mp he
      exact hchar.symm
    · obtain rfl := List.mem_singleton.mp he
      exact hend.symm
  rw [messageEvents, List.map_cons, ← List.singleton_append, countType_append, hrest,
    countType_word, add_zero]
  rfl

/-! ### Counters and the events they count -/

/-- The counters that count events, each with its event type (10 R40, 30 R100). -/
def countedEvents : List (Counter × Nat) :=
  [(.msg, 0x01), (.syncAcq, 0x20), (.batch, 0x21), (.syncLost, 0x23), (.illegal, 0x3F)]

theorem countedEvents_eq_iff : ∀ p ∈ countedEvents, ∀ q ∈ countedEvents, p.1 = q.1 ↔ q.2 = p.2 := by
  decide

theorem Counters.get_add (k : Counters) (n : Word) (c d : Counter) :
    (k.add n c).get d = k.get d + if d = c then n else 0 := by
  split
  · rename_i h; rw [h, Counters.get_add_same]
  · rename_i h; rw [Counters.get_add_other k n h, add_zero]

/-- The second state has more events than the first, and each counter of `countedEvents` has gone up by
how many of them have its type. -/
def Tallied (s t : State) : Prop :=
  ∃ es : List EvtWord, t.evts = s.evts ++ es ∧
    ∀ p ∈ countedEvents, t.cnt.get p.1 = s.cnt.get p.1 + countType p.2 es

/-- With no event and no count. -/
theorem Tallied.quiet {s t : State} (hevts : t.evts = s.evts) (hcnt : t.cnt = s.cnt) :
    Tallied s t :=
  ⟨[], by rw [hevts, List.append_nil], fun p _ => by rw [hcnt]; exact (BitVec.add_zero _).symm⟩

theorem Tallied.refl (s : State) : Tallied s s := .quiet rfl rfl

theorem Tallied.trans {s t u : State} (h : Tallied s t) (k : Tallied t u) : Tallied s u := by
  obtain ⟨es, hevts, hcnt⟩ := h
  obtain ⟨fs, kevts, kcnt⟩ := k
  refine ⟨es ++ fs, by rw [kevts, hevts, List.append_assoc], fun p hp => ?_⟩
  rw [kcnt p hp, hcnt p hp, countType_append, BitVec.add_assoc]

/-- A count that counts no event. -/
theorem Tallied.inc (s : State) {c : Counter} (hc : ∀ p ∈ countedEvents, p.1 ≠ c) (n : Word) :
    Tallied s (s.inc c n) :=
  ⟨[], (List.append_nil _).symm, fun p hp => by
    rw [State.inc_cnt, Counters.get_add_other _ _ (hc p hp)]; exact (BitVec.add_zero _).symm⟩

/-- An event that no counter counts. -/
theorem Tallied.emit (s : State) {e : Event} (he : ∀ p ∈ countedEvents, p.2 ≠ e.type.toNat) :
    Tallied s (s.emit e) :=
  ⟨[e.word], rfl, fun p hp => by
    rw [countType_word, if_neg (he p hp).symm, State.emit_cnt, add_zero]⟩

/-- An event together with its count. -/
theorem Tallied.inc_emit (s : State) {c : Counter} {e : Event}
    (h : (c, e.type.toNat) ∈ countedEvents) : Tallied s ((s.inc c 1).emit e) :=
  ⟨[e.word], rfl, fun p hp => by
    rw [countType_word, State.emit_cnt, State.inc_cnt, Counters.get_add]
    simp only [countedEvents_eq_iff p hp _ h]⟩

theorem Tallied.of_setFsm {s t : State} {v : Acquirer} (h : Tallied (s.setFsm v) t) :
    Tallied s t := h

theorem Tallied.of_setSync {s t : State} {v : SyncState} (h : Tallied (s.setSync v) t) :
    Tallied s t := h

theorem raiseIllegal_tallied (cause : Cause) (op addr : Byte) (s : State) :
    Tallied s (raiseIllegal cause op addr s) :=
  .inc_emit s (by decide : (Counter.illegal, 0x3F) ∈ countedEvents)

/-! ### The parser -/

/-- A message handed out is one header and one count (44 R224). -/
theorem finalized_tallied (s : State) : Tallied s (finalized s) := by
  refine ⟨_, finalized_evts s, fun p hp => ?_⟩
  have hother : p.1 ≠ .trunc ∧ p.2 ≠ 0x02 ∧ p.2 ≠ 0x03 :=
    (by decide : ∀ p ∈ countedEvents, p.1 ≠ .trunc ∧ p.2 ≠ 0x02 ∧ p.2 ≠ 0x03) p hp
  obtain ⟨htrunc, hchar, hend⟩ := hother
  have hcount : (finalized s).cnt.get p.1 = (s.cnt.add 1 .msg).get p.1 := by
    rw [finalized_cnt]
    split
    · exact Counters.get_add_other _ _ htrunc
    · rfl
  have hmsg : p.1 = .msg ↔ 0x01 = p.2 := countedEvents_eq_iff p hp (.msg, 0x01) (by decide)
  rw [hcount, Counters.get_add, countType_messageEvents hchar hend]
  simp only [hmsg]

theorem finalizeIfOpen_tallied {cfg : Config} {s t : State} (h : finalizeIfOpen cfg s = .ok t) :
    Tallied s t := by
  rcases finalizeIfOpen_ok.mp h with ⟨-, -, rfl⟩ | ⟨-, rfl⟩
  · exact finalized_tallied s
  · exact .refl _

theorem accum_tallied {cfg : Config} {b : Bool} {s t : State} (h : accum cfg b s = .ok t) :
    Tallied s t := by
  rcases accum_ok.mp h with ⟨-, h⟩ | ⟨-, rfl⟩
  · rcases appendUnit_ok.mp h with ⟨-, -, rfl⟩ | ⟨-, -, rfl⟩
    · exact finalized_tallied (s.setMsg (truncatedMsg s.msg))
    · exact .quiet rfl rfl
  · exact .quiet rfl rfl

theorem accumBits_tallied {cfg : Config} : ∀ {bs : List Bool} {s t : State},
    accumBits cfg bs s = .ok t → Tallied s t
  | [], s, t, h => by
    obtain rfl := Except.ok.inj h
    exact .refl _
  | b :: bs, s, t, h => by
    obtain ⟨u, hu, ⟨-, h⟩ | ⟨-, rfl⟩⟩ := accumBits_cons.mp h
    · exact (accum_tallied hu).trans (accumBits_tallied h)
    · exact accum_tallied hu

theorem parse_tallied {cfg : Config} {c : Word} {slot : BitVec 4} {s t : State}
    (h : parse cfg c slot s = .ok t) : Tallied s t := by
  rcases parse_ok h with ⟨-, h⟩ | ⟨-, rfl⟩ | ⟨-, -, rfl⟩ | ⟨-, -, h⟩ | ⟨-, -, -, h⟩
  · exact finalizeIfOpen_tallied h
  · exact .refl _
  · exact .refl _
  · exact accumBits_tallied h
  · obtain ⟨u, hu, rfl⟩ := parseAddress_ok.mp h
    exact (finalizeIfOpen_tallied hu).trans (.quiet rfl rfl)

/-! ### The frame acquirer -/

theorem loseSync_tallied {cfg : Config} {reason : LossReason} {s t : State}
    (h : loseSync cfg reason s = .ok t) : Tallied s t := by
  obtain ⟨u, hu, rfl⟩ := loseSync_ok.mp h
  exact (finalizeIfOpen_tallied hu).trans
    (.inc_emit (u.setFsm _) (by decide : (Counter.syncLost, 0x23) ∈ countedEvents))

theorem windowFailure_tallied {cfg : Config} {s t : State} (h : windowFailure cfg s = .ok t) :
    Tallied s t := by
  rcases windowFailure_ok.mp h with ⟨-, h⟩ | ⟨-, rfl⟩
  · exact (loseSync_tallied h).of_setFsm
  · exact .quiet rfl rfl

theorem markUncorrectable_tallied (s : State) : Tallied s (markUncorrectable s) :=
  (Tallied.inc s (c := .cwUncorr) (by decide) 1).trans
    (.quiet (markUncorrectable_evts s) (markUncorrectable_cnt s))

theorem countCorrected_tallied (flips : BitVec 2) (f : Bool) (s : State) :
    Tallied s (countCorrected flips f s) := by
  have huncounted : ∀ p ∈ countedEvents, p.1 ≠ correctedCounter flips := by
    unfold correctedCounter
    split <;> decide
  exact (Tallied.inc s huncounted 1).trans
    (.quiet (countCorrected_evts flips f s) (countCorrected_cnt flips f s))

theorem dataWord_tallied {cfg : Config} {w : Word} {slot : BitVec 4} {f : Bool} {s t : State}
    (h : dataWord cfg w slot f s = .ok t) : Tallied s t := by
  rcases dataWord_ok.mp h with ⟨-, h⟩ | ⟨-, -, h⟩ | ⟨-, -, rfl⟩
  · exact (countCorrected_tallied _ _ s).trans (parse_tallied h)
  · exact (markUncorrectable_tallied s).trans (windowFailure_tallied h)
  · exact markUncorrectable_tallied s

theorem missSync_tallied {cfg : Config} {s t : State} (h : missSync cfg s = .ok t) :
    Tallied s t := by
  rcases missSync_ok.mp h with ⟨-, h⟩ | ⟨-, rfl⟩
  · exact (loseSync_tallied h).of_setFsm
  · exact .emit (s.setFsm _) (by decide : ∀ p ∈ countedEvents, p.2 ≠ 0x22)

theorem synchedWord_tallied {cfg : Config} {w : Word} {s t : State}
    (h : synchedWord cfg w s = .ok t) : Tallied s t := by
  rcases synchedWord_ok h with ⟨-, -, -, rfl⟩ | ⟨-, -, h⟩ | ⟨-, h⟩
  · exact .inc_emit (s.setFsm _) (by decide : (Counter.batch, 0x21) ∈ countedEvents)
  · exact missSync_tallied h
  · exact (dataWord_tallied h).of_setFsm

theorem stepPreambleStart_tallied (s : State) : Tallied s (stepPreambleStart s) := by
  unfold stepPreambleStart
  split <;> exact .quiet rfl rfl

theorem stepPreambleEnd_tallied (brk : Bool) (altPrev : BitVec 16) (s : State) :
    Tallied s (stepPreambleEnd brk altPrev s) := by
  unfold stepPreambleEnd
  split <;> exact .quiet rfl rfl

theorem stepSearchSync_tallied (s : State) : Tallied s (stepSearchSync s) := by
  unfold stepSearchSync
  split
  · exact .inc_emit (s.setFsm _) (by decide : (Counter.syncAcq, 0x20) ∈ countedEvents)
  · exact .refl s

theorem fsmBit_tallied {cfg : Config} {b : Bool} {s t : State} (h : fsmBit cfg b s = .ok t) :
    Tallied s t := by
  have hrec : Tallied s (recordBit b s) := Tallied.inc s (c := .bits) (by decide) 1
  rcases fsmBit_ok h with ⟨-, rfl⟩ | ⟨-, rfl⟩ | ⟨-, rfl⟩ | ⟨-, -, h⟩ | ⟨-, -, rfl⟩
  · exact hrec.trans (stepPreambleStart_tallied _)
  · exact hrec.trans (stepPreambleEnd_tallied _ _ _)
  · exact hrec.trans (stepSearchSync_tallied _)
  · exact hrec.trans (synchedWord_tallied h).of_setFsm
  · exact hrec

/-! ### The commands -/

theorem traceBit_tallied (acc : Int) (b : Bool) (s : State) : Tallied s (traceBit acc b s) := by
  unfold traceBit
  split
  · exact .emit s (by decide : ∀ p ∈ countedEvents, p.2 ≠ 0x10)
  · exact .refl s

theorem syncStep_tallied {cfg : Config} {y : Int} {s t : State} (h : syncStep cfg y s = .ok t) :
    Tallied s t := by
  rcases syncStep_ok.mp h with ⟨-, h⟩ | ⟨-, rfl⟩
  · exact ((traceBit_tallied _ _ _).trans (fsmBit_tallied h)).of_setSync
  · exact .quiet rfl rfl

theorem result_tallied (s : State) (payload : BitVec 56) : Tallied s (s.emit (.result payload)) :=
  .emit s (by decide : ∀ p ∈ countedEvents, p.2 ≠ 0x30)

theorem csrWrite_tallied (s : State) (v : Word) (r : Csr) : Tallied s (csrWrite s v r) := by
  unfold csrWrite
  split <;> exact .quiet rfl rfl

theorem exec_tallied {i : Instr} {s t : State} (hi : i ≠ .reset) (h : exec i s = .next t) :
    Tallied s t := by
  cases i with
  | nop =>
    obtain rfl := Host.Outcome.next.inj h
    exact .refl _
  | sample ib qb =>
    have hkeep : Tallied s (keepSample .build ib qb s) :=
      Tallied.inc s (c := .samples) (by decide) 1
    exact hkeep.trans (syncStep_tallied (answer_eq_next.mp h))
  | sampleLoss n =>
    obtain rfl := Host.Outcome.next.inj h
    exact .inc s (c := .overrun) (by decide) n
  | magIn y => exact syncStep_tallied (answer_eq_next.mp h)
  | bitIn b => exact fsmBit_tallied (answer_eq_next.mp h)
  | cwIn w slot => exact dataWord_tallied (answer_eq_next.mp h)
  | demodQuery _ _ _ _ _ | bchSyndrome _ | bchCorrect _ =>
    obtain rfl := Host.Outcome.next.inj h
    exact result_tallied s _
  | csrRead a =>
    rcases execCsrRead_cases a s with hs | ⟨v, hs⟩
    · obtain rfl := Host.Outcome.next.inj (hs.symm.trans h)
      exact raiseIllegal_tallied _ _ _ s
    · obtain rfl := Host.Outcome.next.inj (hs.symm.trans h)
      exact result_tallied s _
  | csrWrite a v =>
    rcases execCsrWrite_cases a v s with ⟨cause, hs⟩ | ⟨r, -, -, -, hs⟩
    · obtain rfl := Host.Outcome.next.inj (hs.symm.trans h)
      exact raiseIllegal_tallied _ _ _ s
    · obtain rfl := Host.Outcome.next.inj (hs.symm.trans h)
      exact csrWrite_tallied s v r
  | flush => exact finalizeIfOpen_tallied (answer_eq_next.mp h)
  | reset => exact absurd rfl hi

/-- Settles O15: `exec_tallied`, read off at each of the five counters. -/
theorem countersMatchEvents : Obligations.CountersMatchEvents := by
  intro i s t hi h
  obtain ⟨es, hevts, hcnt⟩ := exec_tallied hi h
  exact ⟨es, hevts, hcnt (.msg, 0x01) (by decide), hcnt (.syncAcq, 0x20) (by decide),
    hcnt (.batch, 0x21) (by decide), hcnt (.syncLost, 0x23) (by decide),
    hcnt (.illegal, 0x3F) (by decide)⟩

end Sys2Proof.Machine
end

section
/-! PROOFS. Packing a word into bytes and back (20 R73). -/

namespace Sys2Proof.Machine

/-- A field of a word is the word's number shifted down to it. -/
theorem extractLsb'_eq_ofNat {n : Nat} (w : BitVec n) (lo len : Nat) :
    w.extractLsb' lo len = BitVec.ofNat len (w.toNat / 2 ^ lo) := by
  apply BitVec.eq_of_toNat_eq
  rw [toNat_extractLsb'_eq, BitVec.toNat_ofNat]

/-- The bytes of a packed word by numbers, lowest first (20 R73). -/
theorem packWord_eq_map (w : BitVec 64) :
    packWord w = (List.range 8).map fun k => BitVec.ofNat 8 (w.toNat / 2 ^ (8 * k)) := by
  simp only [packWord, extractLsb'_eq_ofNat]
  rfl

/-- The low bits of a word with the field above them are the low bits up to that field's end. -/
theorem extractLsb'_append_low {n : Nat} (w : BitVec n) (lo len : Nat) :
    w.extractLsb' lo len ++ w.extractLsb' 0 lo = w.extractLsb' 0 (len + lo) :=
  BitVec.extractLsb'_append_extractLsb'_eq_extractLsb' (Nat.zero_add lo).symm

/-- A packed word is read back from the front of a stream: its bytes are neighbouring fields, which join
to the whole word (20 R73). -/
theorem unpackWord_packWord_append (w : BitVec 64) (rest : List Byte) :
    unpackWord (packWord w ++ rest) = some (w, rest) := by
  have hjoin : w.extractLsb' 56 8 ++ (w.extractLsb' 48 8 ++ (w.extractLsb' 40 8 ++
      (w.extractLsb' 32 8 ++ (w.extractLsb' 24 8 ++ (w.extractLsb' 16 8 ++
      (w.extractLsb' 8 8 ++ w.extractLsb' 0 8)))))) = w := by
    rw [extractLsb'_append_low w 8, extractLsb'_append_low w 16, extractLsb'_append_low w 24,
      extractLsb'_append_low w 32, extractLsb'_append_low w 40, extractLsb'_append_low w 48,
      extractLsb'_append_low w 56]
    exact BitVec.extractLsb'_eq_self
  exact congrArg (fun v : BitVec 64 => some (v, rest)) hjoin

/-- Settles O60: the bytes by `packWord_eq_map`, the way back by `unpackWord_packWord_append`. -/
theorem packedWords : Obligations.PackedWords := fun w =>
  ⟨packWord_eq_map w, unpackWord_packWord_append w⟩

end Sys2Proof.Machine
end

section
/-! PROOFS. A message word's bits cut into units and stored (44 R216, R219 to R223). -/

namespace Sys2Proof.Machine

/-! ### Bits as numbers -/

/-- Bits as a number, the first one lowest (44 R219). -/
def bitsValue (bs : List Bool) : Nat :=
  Nat.ofDigits 2 (bs.map Bool.toNat)

theorem bitsValue_nil : bitsValue [] = 0 := rfl

theorem bitsValue_cons (b : Bool) (bs : List Bool) :
    bitsValue (b :: bs) = b.toNat + 2 * bitsValue bs := by
  simp only [bitsValue, List.map_cons, Nat.ofDigits_cons]

theorem bitsDown_length (c : Word) : ∀ hi n : Nat, (bitsDown c hi n).length = n
  | _, 0 => rfl
  | hi, n + 1 => by rw [bitsDown, List.length_cons, bitsDown_length c (hi - 1) n]

/-- The bits from `hi` down, the highest one lowest in the number. -/
theorem bitsValue_bitsDown (c : Word) : ∀ hi n : Nat,
    bitsValue (bitsDown c hi n) =
      ((List.range n).map fun p => (c.getLsbD (hi - p)).toNat * 2 ^ p).sum
  | _, 0 => rfl
  | hi, n + 1 => by
    have hshift : ∀ p, (c.getLsbD (hi - (p + 1))).toNat * 2 ^ (p + 1) =
        2 * ((c.getLsbD (hi - 1 - p)).toNat * 2 ^ p) := fun p => by
      rw [show hi - (p + 1) = hi - 1 - p by omega, pow_succ]
      ring
    rw [bitsDown, bitsValue_cons, bitsValue_bitsDown c (hi - 1) n, List.range_succ_eq_map,
      List.map_cons, List.sum_cons, List.map_map, ← List.sum_map_mul_left]
    simp only [Function.comp_def, hshift, Nat.sub_zero, pow_zero, mul_one]

theorem payloadBits_length (c : Word) : (payloadBits c).length = 20 :=
  bitsDown_length c 30 20

theorem bitsValue_payloadBits (c : Word) : bitsValue (payloadBits c) = payloadValue c :=
  bitsValue_bitsDown c 30 20

/-! ### The unit being built -/

/-- The unit being built is not complete, and holds no bit above those it waits with (10 R51). -/
def UnitInRange (r : MsgReg) : Prop :=
  r.nb < r.kind.width ∧ r.bits.toNat < 2 ^ r.nb

/-- The message register with one more bit in its unit (44 R219). -/
def withBit (r : MsgReg) (b : Bool) : MsgReg :=
  { r with bits := addBit r b, nb := r.nb + 1 }

/-- The message register with one more character and an empty unit (44 R219). -/
def withUnit (r : MsgReg) : MsgReg :=
  { r with bits := 0, nb := 0, nc := r.nc + 1 }

/-- A new bit stands above the bits that wait. -/
theorem addBit_toNat {r : MsgReg} (h : UnitInRange r) (b : Bool) :
    (addBit r b).toNat = r.bits.toNat + b.toNat * 2 ^ r.nb := by
  obtain ⟨hnb, hbits⟩ := h
  have hpow : 2 ^ (r.nb + 1) ≤ 2 ^ 7 :=
    Nat.pow_le_pow_right (by norm_num) (hnb.trans_le r.kind.width_le)
  have hb := b.toNat_le
  have hmul : b.toNat * 2 ^ r.nb ≤ 1 * 2 ^ r.nb := Nat.mul_le_mul_right _ hb
  rw [addBit, BitVec.toNat_add, BitVec.toNat_shiftLeft, BitVec.toNat_ofNat, Nat.shiftLeft_eq,
    Nat.mod_eq_of_lt (a := b.toNat) (by omega), Nat.mod_eq_of_lt (a := b.toNat * _) (by omega),
    Nat.mod_eq_of_lt (by omega)]

theorem addBit_lt {r : MsgReg} (h : UnitInRange r) (b : Bool) :
    (addBit r b).toNat < 2 ^ (r.nb + 1) := by
  have hmul : b.toNat * 2 ^ r.nb ≤ 1 * 2 ^ r.nb := Nat.mul_le_mul_right _ b.toNat_le
  have hbits := h.2
  rw [addBit_toNat h]
  omega

theorem UnitInRange.withBit {r : MsgReg} (h : UnitInRange r) (hw : r.nb + 1 ≠ r.kind.width)
    (b : Bool) : UnitInRange (withBit r b) :=
  ⟨Nat.lt_of_le_of_ne h.1 hw, addBit_lt h b⟩

theorem Kind.width_pos (k : Kind) : 0 < k.width := by
  cases k <;> decide

theorem withUnit_inRange (r : MsgReg) : UnitInRange (withUnit r) :=
  ⟨r.kind.width_pos, Nat.one_pos⟩

/-! ### The character of a unit -/

/-- The numeric table by numbers (44 R221). -/
theorem numChar_eq_characterOf (ph : Byte) (u : BitVec 4) :
    numChar ph u = characterOf .numeric ph u.toNat := by
  obtain ⟨n, hn⟩ := u
  interval_cases n <;> rfl

/-- A complete unit's character by its number (44 R221, R222). -/
theorem unitChar_eq_characterOf {k : Kind} {u : BitVec 7} (hu : u.toNat < 2 ^ k.width) (ph : Byte) :
    unitChar k ph u = characterOf k ph u.toNat := by
  cases k with
  | numeric =>
    have hlow : (u.setWidth 4).toNat = u.toNat :=
      (BitVec.toNat_setWidth 4 u).trans (Nat.mod_eq_of_lt hu)
    rw [unitChar, numChar_eq_characterOf, hlow]
  | alphanumeric => exact (BitVec.ofNat_toNat 8 u).symm

/-! ### What bits bring to the message register -/

/-- The bits waiting in a unit and those that follow, as one number, the oldest lowest (44 R219). -/
def streamWith (r : MsgReg) (bs : List Bool) : Nat :=
  r.bits.toNat + bitsValue bs * 2 ^ r.nb

/-- How many units the bits complete (44 R219). -/
def unitsWith (r : MsgReg) (bs : List Bool) : Nat :=
  (r.nb + bs.length) / r.kind.width

theorem streamWith_payloadBits (r : MsgReg) (c : Word) :
    streamWith r (payloadBits c) = streamValue r c := by
  rw [streamWith, bitsValue_payloadBits, streamValue]

theorem unitsWith_payloadBits (r : MsgReg) (c : Word) :
    unitsWith r (payloadBits c) = unitsCompleted r := by
  rw [unitsWith, payloadBits_length, unitsCompleted]

theorem unitsWith_nil {r : MsgReg} (h : UnitInRange r) : unitsWith r [] = 0 :=
  Nat.div_eq_of_lt h.1

/-- A bit that waits is the same stream and the same units. -/
theorem streamWith_withBit {r : MsgReg} (h : UnitInRange r) (b : Bool) (bs : List Bool) :
    streamWith (withBit r b) bs = streamWith r (b :: bs) := by
  have hbit : (withBit r b).bits.toNat = r.bits.toNat + b.toNat * 2 ^ r.nb := addBit_toNat h b
  rw [streamWith, streamWith, hbit, bitsValue_cons, withBit, pow_succ]
  ring

theorem unitsWith_withBit (r : MsgReg) (b : Bool) (bs : List Bool) :
    unitsWith (withBit r b) bs = unitsWith r (b :: bs) := by
  rw [unitsWith, unitsWith, withBit, List.length_cons, Nat.add_right_comm, Nat.add_assoc]

/-- A bit that completes a unit puts it below the stream of the bits after it. -/
theorem streamWith_cons_of_complete {r : MsgReg} (h : UnitInRange r)
    (hw : r.nb + 1 = r.kind.width) (b : Bool) (bs : List Bool) :
    streamWith r (b :: bs) =
      (addBit r b).toNat + 2 ^ r.kind.width * streamWith (withUnit r) bs := by
  have hnext : streamWith (withUnit r) bs = bitsValue bs := by
    simp [streamWith, withUnit]
  rw [hnext, streamWith, bitsValue_cons, addBit_toNat h, ← hw, pow_succ]
  ring

/-- A bit that completes a unit completes one more than the bits after it. -/
theorem unitsWith_cons_of_complete {r : MsgReg} (hw : r.nb + 1 = r.kind.width) (b : Bool)
    (bs : List Bool) : unitsWith r (b :: bs) = unitsWith (withUnit r) bs + 1 := by
  have hlen : r.nb + (b :: bs).length = bs.length + r.kind.width := by
    rw [List.length_cons]; omega
  rw [unitsWith, hlen, Nat.add_div_right _ r.kind.width_pos, unitsWith, withUnit, Nat.zero_add]

/-- The lowest unit of a stream. -/
theorem unitOf_zero {width u : Nat} (hu : u < 2 ^ width) (x : Nat) :
    unitOf width (u + 2 ^ width * x) 0 = u := by
  rw [unitOf, Nat.mul_zero, pow_zero, Nat.div_one, Nat.add_mul_mod_self_left, Nat.mod_eq_of_lt hu]

/-- Cutting `n + 1` units off a stream cuts its lowest unit off, then `n` of the rest. -/
theorem stream_div_succ {width u : Nat} (hu : u < 2 ^ width) (x n : Nat) :
    (u + 2 ^ width * x) / 2 ^ (width * (n + 1)) = x / 2 ^ (width * n) := by
  rw [Nat.mul_succ, Nat.add_comm (width * n), pow_add, ← Nat.div_div_eq_div_mul,
    Nat.add_mul_div_left _ _ (Nat.two_pow_pos width), Nat.div_eq_of_lt hu, Nat.zero_add]

theorem unitOf_succ {width u : Nat} (hu : u < 2 ^ width) (x j : Nat) :
    unitOf width (u + 2 ^ width * x) (j + 1) = unitOf width x j := by
  rw [unitOf, stream_div_succ hu, unitOf]

/-- The message register after bits whose units all fit (44 R219). -/
def withBits (r : MsgReg) (bs : List Bool) : MsgReg :=
  { r with
    bits := BitVec.ofNat 7 (streamWith r bs / 2 ^ (r.kind.width * unitsWith r bs))
    nb := (r.nb + bs.length) % r.kind.width
    nc := r.nc + unitsWith r bs }

theorem withBits_nil {r : MsgReg} (h : UnitInRange r) : withBits r [] = r := by
  simp [withBits, unitsWith_nil h, streamWith, bitsValue_nil, Nat.mod_eq_of_lt h.1]

/-- The register after a message word that fits, by numbers (44 R219). -/
theorem withBits_payloadBits (r : MsgReg) (c : Word) : withBits r (payloadBits c) =
    { r with
      bits := BitVec.ofNat 7 (streamValue r c / 2 ^ (r.kind.width * unitsCompleted r))
      nb := (r.nb + 20) % r.kind.width
      nc := r.nc + unitsCompleted r } := by
  rw [withBits, streamWith_payloadBits, unitsWith_payloadBits, payloadBits_length]

theorem withBits_withBit {r : MsgReg} (h : UnitInRange r) (b : Bool) (bs : List Bool) :
    withBits (withBit r b) bs = withBits r (b :: bs) := by
  have hnb : r.nb + 1 + bs.length = r.nb + (b :: bs).length := by
    rw [List.length_cons]; omega
  rw [withBits, streamWith_withBit h, unitsWith_withBit, withBits, ← hnb]
  rfl

theorem withBits_withUnit {r : MsgReg} (h : UnitInRange r) (hw : r.nb + 1 = r.kind.width) (b : Bool)
    (bs : List Bool) : withBits (withUnit r) bs = withBits r (b :: bs) := by
  have hu : (addBit r b).toNat < 2 ^ r.kind.width := hw ▸ addBit_lt h b
  have hnb : (r.nb + (b :: bs).length) % r.kind.width = (0 + bs.length) % r.kind.width := by
    rw [List.length_cons, Nat.zero_add, ← Nat.add_mod_right bs.length, ← hw]
    congr 1; omega
  have hnc : r.nc + (unitsWith (withUnit r) bs + 1) = r.nc + 1 + unitsWith (withUnit r) bs := by
    omega
  rw [withBits, withBits, streamWith_cons_of_complete h hw, unitsWith_cons_of_complete hw,
    stream_div_succ hu, hnb, hnc]
  rfl

/-! ### What bits bring to the buffer -/

/-- The buffer `m'` is `m` with the first `n` units of the bits stored from index `nc` up (44 R219,
R220). -/
def UnitsStored (r : MsgReg) (ph : Byte) (bs : List Bool) (n : Nat) (m m' : Memory) : Prop :=
  ∀ k, m'.read k =
    if r.nc ≤ k ∧ k < r.nc + n then
      characterOf r.kind ph (unitOf r.kind.width (streamWith r bs) (k - r.nc))
    else m.read k

theorem UnitsStored.zero (r : MsgReg) (ph : Byte) (bs : List Bool) (m : Memory) :
    UnitsStored r ph bs 0 m m := by
  intro k
  rw [if_neg (by omega)]

theorem UnitsStored.of_withBit {r : MsgReg} (h : UnitInRange r) {ph : Byte} {b : Bool}
    {bs : List Bool} {n : Nat} {m m' : Memory} (hm : UnitsStored (withBit r b) ph bs n m m') :
    UnitsStored r ph (b :: bs) n m m' := by
  intro k
  rw [hm k, streamWith_withBit h]
  rfl

/-- The completed unit's character below the characters of the units after it. -/
theorem UnitsStored.of_withUnit {r : MsgReg} (h : UnitInRange r) (hw : r.nb + 1 = r.kind.width)
    {ph : Byte} {b : Bool} {bs : List Bool} {n : Nat} {m m' : Memory}
    (hm : UnitsStored (withUnit r) ph bs n (m.write r.nc (unitChar r.kind ph (addBit r b))) m') :
    UnitsStored r ph (b :: bs) (n + 1) m m' := by
  have hu : (addBit r b).toNat < 2 ^ r.kind.width := hw ▸ addBit_lt h b
  intro k
  have hread : m'.read k = if r.nc + 1 ≤ k ∧ k < r.nc + 1 + n then
      characterOf r.kind ph (unitOf r.kind.width (streamWith (withUnit r) bs) (k - (r.nc + 1)))
    else (m.write r.nc (unitChar r.kind ph (addBit r b))).read k := hm k
  rw [hread, Memory.read_write, streamWith_cons_of_complete h hw]
  rcases Nat.lt_trichotomy k r.nc with hk | rfl | hk
  · rw [if_neg (by omega), if_neg (by omega), if_neg (by omega)]
  · rw [if_neg (by omega), if_pos rfl, if_pos (by omega), Nat.sub_self, unitOf_zero hu,
      unitChar_eq_characterOf hu]
  · have hindex : k - r.nc = k - (r.nc + 1) + 1 := by omega
    rw [hindex, unitOf_succ hu]
    by_cases hn : k < r.nc + 1 + n
    · rw [if_pos ⟨hk, hn⟩, if_pos (by omega)]
    · rw [if_neg (by omega), if_neg (by omega), if_neg (by omega)]

/-! ### CW_IN of a message word that fits -/

/-- Bits whose units all fit are taken with no event: the register as `withBits`, the units' characters
in the buffer, all else as it was (44 R219). -/
theorem accumBits_of_fit {cfg : Config} (bs : List Bool) {s : State} (ho : s.msg.isOpen = true)
    (h : UnitInRange s.msg) (hfit : s.msg.nc + unitsWith s.msg bs ≤ s.csr.cap.toNat)
    (hcap : s.csr.cap.toNat ≤ cfg.maxCap) :
    ∃ m, accumBits cfg bs s = .ok ((s.setBuf m).setMsg (withBits s.msg bs)) ∧
      UnitsStored s.msg s.csr.placeholder bs (unitsWith s.msg bs) s.buf m := by
  induction bs generalizing s with
  | nil =>
    refine ⟨s.buf, ?_, (unitsWith_nil h).symm ▸ .zero _ _ _ _⟩
    rw [withBits_nil h]
    rfl
  | cons b bs ih =>
    by_cases hw : s.msg.nb + 1 = s.msg.kind.width
    · have hunits := unitsWith_cons_of_complete hw b bs
      have hfit' : s.msg.nc + 1 + unitsWith (withUnit s.msg) bs ≤ s.csr.cap.toNat := by omega
      obtain ⟨m, hm, hstored⟩ := ih (s := appended (addBit s.msg b) s) ho (withUnit_inRange s.msg)
        hfit' hcap
      have hunit : accum cfg b s = .ok (appended (addBit s.msg b) s) :=
        accum_ok.mpr (.inl ⟨hw, appendUnit_ok.mpr (.inr ⟨by omega, by omega, rfl⟩)⟩)
      refine ⟨m, ?_, hunits ▸ .of_withUnit h hw hstored⟩
      rw [← withBits_withUnit h hw]
      exact accumBits_cons.mpr ⟨_, hunit, .inl ⟨ho, hm⟩⟩
    · have hunits := unitsWith_withBit s.msg b bs
      obtain ⟨m, hm, hstored⟩ := ih (s := s.setMsg (withBit s.msg b)) ho (h.withBit hw b)
        (hunits.symm ▸ hfit) hcap
      have hbit : accum cfg b s = .ok (s.setMsg (withBit s.msg b)) := accum_ok.mpr (.inr ⟨hw, rfl⟩)
      refine ⟨m, ?_, hunits ▸ .of_withBit h hstored⟩
      rw [← withBits_withBit h]
      exact accumBits_cons.mpr ⟨_, hbit, .inl ⟨ho, hm⟩⟩

/-- A message word is neither the idle nor the sync word, so it feeds the open message (44 R211). -/
theorem parse_of_messageWord {cfg : Config} {c : Word} (hc : c.getLsbD 31 = true) {s : State}
    (ho : s.msg.isOpen = true) (slot : BitVec 4) :
    parse cfg c slot s = accumBits cfg (payloadBits c) s := by
  have hidle : c ≠ idleWord := by rintro rfl; exact absurd hc (by decide)
  have hsync : c ≠ syncWord := by rintro rfl; exact absurd hc (by decide)
  rw [parse, if_neg hidle, if_neg hsync, isMessageWord, if_pos hc, if_pos ho]

/-- CW_IN counts a corrected word and leaves the error window alone (42 R168, 44 R230). -/
theorem countCorrected_eq_correctedCounted (flips : BitVec 2) (s : State) :
    countCorrected flips false s = correctedCounted flips s := by
  by_cases hf : flips = 0
  · rw [correctedCounted, if_pos hf, countCorrected, correctedCounter, if_pos hf]
    rfl
  · rw [correctedCounted, if_neg hf, countCorrected, correctedCounter, if_neg hf]
    rfl

/-- CW_IN of a corrected word counts it and parses it (42 R168, 44 R230). -/
theorem exec_cwIn_of_corrected {w : Word} (hok : (correct w).ok = true) (slot : BitVec 4)
    (s : State) : exec (.cwIn w slot) s =
      answer (parse .build (correct w).word slot (correctedCounted (correct w).flips s)) := by
  rw [← countCorrected_eq_correctedCounted]
  exact congrArg answer (if_pos hok)

/-- Settles O47: a message word is parsed as its payload bits (`parse_of_messageWord`), whose units all
fit (`accumBits_of_fit`). -/
theorem messageWordAppends : Obligations.MessageWordAppends := by
  intro w slot s hok hc ho hmsg hcap hfit
  obtain ⟨hnb, hbits, -, -⟩ := hmsg
  rw [← unitsWith_payloadBits s.msg (correct w).word] at hfit
  obtain ⟨m, hm, hstored⟩ := accumBits_of_fit (cfg := .build) (payloadBits (correct w).word)
    (s := correctedCounted (correct w).flips s) ho ⟨hnb, hbits⟩ hfit hcap
  have hexec : exec (.cwIn w slot) s = .next (((correctedCounted (correct w).flips s).setBuf m).setMsg
      (withBits s.msg (payloadBits (correct w).word))) := by
    rw [exec_cwIn_of_corrected hok,
      parse_of_messageWord hc (s := correctedCounted (correct w).flips s) ho, hm]
    rfl
  refine ⟨m, ?_, ?_⟩
  · rw [hexec, withBits_payloadBits]
    rfl
  · intro k
    rw [← streamWith_payloadBits, ← unitsWith_payloadBits s.msg (correct w).word]
    exact hstored k

end Sys2Proof.Machine
end

section
/-! PROOFS. Decoding and encoding are inverse to each other (30 R92 to R97). -/

namespace Sys2Proof.Machine

open Sys2Proof.Laws

/-! ### Command words by numbers -/

/-- A command word is its opcode's number above its operands' number (30 R92). -/
theorem encode_toNat (i : Instr) :
    (encode i).toNat = i.opcode.byte.toNat * 2 ^ 56 + i.operands.toNat :=
  toNat_append_eq i.opcode.byte i.operands

/-- The number of a two's-complement field is its value modulo its range (30 R94). -/
theorem toNat_eq_toInt_emod (y : Word) : y.toNat = (y.toInt % 2 ^ 32).toNat := by
  have hy : (BitVec.ofInt 32 y.toInt).toNat = (y.toInt % 2 ^ 32).toNat := BitVec.toNat_ofInt y.toInt
  rwa [BitVec.ofInt_toInt] at hy

/-- Settles O3: opcode above operands (`encode_toNat`), each operand field above the next
(`toNat_append_eq`). -/
theorem encodedNumbers : Obligations.EncodedNumbers := by
  refine ⟨rfl, fun i q => ?_, fun n => ?_, fun y => ?_, fun b => ?_, fun w slot => ?_,
    fun i q ip qp mode => ?_, fun w => ?_, fun w => ?_, fun a => ?_, fun a v => ?_, rfl, rfl⟩
  case refine_3 => rw [← toNat_eq_toInt_emod, encode_toNat, Instr.operands, toNat_zero_append]; rfl
  all_goals
    simp only [encode_toNat, Instr.opcode, Opcode.byte, Instr.operands, toNat_append_eq,
      BitVec.ofNat_eq_ofNat, BitVec.toNat_ofNat, BitVec.toNat_ofBool]
    omega

/-! ### From a command to its word and back -/

/-- A command's operands lie inside its opcode's mask (30 R93, R96). -/
theorem operands_masked (i : Instr) : i.operands &&& ~~~i.opcode.operandMask = 0 := by
  cases i with
  | nop => exact OperandsInMask.nop
  | sample i q => exact OperandsInMask.sample i q
  | sampleLoss n => exact OperandsInMask.sampleLoss n
  | magIn y => exact OperandsInMask.magIn y
  | bitIn b => exact OperandsInMask.bitIn b
  | cwIn w slot => exact OperandsInMask.cwIn w slot
  | demodQuery i q ip qp mode => exact OperandsInMask.demodQuery i q ip qp mode
  | bchSyndrome w => exact OperandsInMask.bchSyndrome w
  | bchCorrect w => exact OperandsInMask.bchCorrect w
  | csrRead a => exact OperandsInMask.csrRead a
  | csrWrite a v => exact OperandsInMask.csrWrite a v
  | flush => exact OperandsInMask.flush
  | reset => exact OperandsInMask.reset

/-- A field of a word, known by its number. -/
theorem extractLsb'_eq_of_toNat {w : CmdWord} {lo len : Nat} {x : BitVec len}
    (h : w.toNat / 2 ^ lo % 2 ^ len = x.toNat) : w.extractLsb' lo len = x :=
  BitVec.eq_of_toNat_eq ((toNat_extractLsb'_eq w lo len).trans h)

/-- A bit of a word is its field of length 1. -/
theorem ofBool_getLsbD {n : Nat} (w : BitVec n) (k : Nat) :
    BitVec.ofBool (w.getLsbD k) = w.extractLsb' k 1 := by
  apply BitVec.eq_of_toNat_eq
  rw [BitVec.toNat_ofBool, toNat_getLsbD, toNat_extractLsb'_eq, pow_one]

/-- A bit of a word, known by its number. -/
theorem getLsbD_eq_of_toNat {w : CmdWord} {k : Nat} {b : Bool}
    (h : w.toNat / 2 ^ k % 2 = b.toNat) : w.getLsbD k = b :=
  BitVec.ofBool_eq_iff_eq.mp ((ofBool_getLsbD w k).trans
    (extractLsb'_eq_of_toNat (h.trans (BitVec.toNat_ofBool b).symm)))

/-- The word field of an encoded command whose only operand it is (30 R93). -/
theorem wordField_encode {i : Instr} {w : Word} (h : i.operands = 0#24 ++ w) :
    wordField (encode i) = w := by
  have hw := encode_toNat i
  rw [h, toNat_zero_append] at hw
  exact extractLsb'_eq_of_toNat (by omega)

theorem ofBit_bit (mode : DemodMode) : DemodMode.ofBit mode.bit = mode := by
  cases mode <;> rfl

/-- The decoder reads each field where the encoder puts it (30 R93). -/
theorem assemble_encode (i : Instr) : i.opcode.assemble (encode i) = i := by
  obtain ⟨-, hsample, -, -, hbit, hcw, hquery, -, -, hread, hwrite, -, -⟩ := encodedNumbers
  cases i with
  | nop | flush | reset => rfl
  | sample i q =>
    have hw := hsample i q
    have hi : byteField (encode (.sample i q)) 0 = i := extractLsb'_eq_of_toNat (by omega)
    have hq : byteField (encode (.sample i q)) 8 = q := extractLsb'_eq_of_toNat (by omega)
    simp only [Instr.opcode, Opcode.assemble, hi, hq]
  | sampleLoss n => exact congrArg Instr.sampleLoss (wordField_encode rfl)
  | magIn y => exact congrArg Instr.magIn (wordField_encode rfl)
  | bitIn b =>
    have hw := hbit b
    have hb := b.toNat_lt
    exact congrArg Instr.bitIn (getLsbD_eq_of_toNat (by omega))
  | cwIn w slot =>
    have hword := hcw w slot
    have hw : wordField (encode (.cwIn w slot)) = w := extractLsb'_eq_of_toNat (by omega)
    have hslot : (encode (.cwIn w slot)).extractLsb' 32 4 = slot :=
      extractLsb'_eq_of_toNat (by omega)
    simp only [Instr.opcode, Opcode.assemble, hw, hslot]
  | demodQuery i q ip qp mode =>
    have hw := hquery i q ip qp mode
    have hbit := mode.bit.toNat_lt
    have hi : byteField (encode (.demodQuery i q ip qp mode)) 0 = i :=
      extractLsb'_eq_of_toNat (by omega)
    have hq : byteField (encode (.demodQuery i q ip qp mode)) 8 = q :=
      extractLsb'_eq_of_toNat (by omega)
    have hip : byteField (encode (.demodQuery i q ip qp mode)) 16 = ip :=
      extractLsb'_eq_of_toNat (by omega)
    have hqp : byteField (encode (.demodQuery i q ip qp mode)) 24 = qp :=
      extractLsb'_eq_of_toNat (by omega)
    have hmode : (encode (.demodQuery i q ip qp mode)).getLsbD 32 = mode.bit :=
      getLsbD_eq_of_toNat (by omega)
    simp only [Instr.opcode, Opcode.assemble, hi, hq, hip, hqp, hmode, ofBit_bit]
  | bchSyndrome w => exact congrArg Instr.bchSyndrome (wordField_encode rfl)
  | bchCorrect w => exact congrArg Instr.bchCorrect (wordField_encode rfl)
  | csrRead a =>
    have hw := hread a
    exact congrArg Instr.csrRead (extractLsb'_eq_of_toNat (by omega))
  | csrWrite a v =>
    have hw := hwrite a v
    have ha : byteField (encode (.csrWrite a v)) 32 = a := extractLsb'_eq_of_toNat (by omega)
    have hv : wordField (encode (.csrWrite a v)) = v := extractLsb'_eq_of_toNat (by omega)
    simp only [Instr.opcode, Opcode.assemble, ha, hv]

theorem decode_encode (i : Instr) : decode (encode i) = .command i := by
  simp only [decode, opcodeOf_encode, Opcode.ofByte_byte, operandsOf_encode, operands_masked,
    assemble_encode, if_true]

/-- A table row of 64 bits is the word itself (30 R97). -/
theorem decodeTableWord_encode (i : Instr) : decodeTableWord 64 (encode i).toNat = some i := by
  rw [decodeTableWord, Nat.mod_eq_of_lt (encode i).isLt, BitVec.ofNat_toNat, BitVec.setWidth_eq,
    decode_encode]

/-- Settles O1: the opcode is read back, no operand bit is reserved (`operands_masked`), and each field
is read back (`assemble_encode`). -/
theorem decodeOfEncode : Obligations.DecodeOfEncode := fun i _ =>
  ⟨decode_encode i, decodeTableWord_encode i⟩

/-! ### From a word to its command and back -/

/-- A word is its opcode above its operands (30 R92). -/
theorem opcodeOf_append_operandsOf (w : CmdWord) : opcodeOf w ++ operandsOf w = w :=
  (extractLsb'_append_low w 56 8).trans BitVec.extractLsb'_eq_self

theorem opcode_assemble (op : Opcode) (w : CmdWord) : (op.assemble w).opcode = op := by
  cases op <;> rfl

/-- The low bits of a word under zeros are the word under the mask of those bits. -/
theorem zero_append_extractLsb' {n : Nat} (w : BitVec n) (hi lo : Nat) :
    0#hi ++ w.extractLsb' 0 lo =
      w.extractLsb' 0 (hi + lo) &&& (0#hi ++ BitVec.allOnes lo) := by
  rw [← extractLsb'_append_low w lo hi, BitVec.and_append, BitVec.and_zero, BitVec.and_allOnes]

/-- The fields a command takes from a word, put back, are the word's operands under the mask of the
opcode (30 R93). -/
theorem operands_assemble (op : Opcode) (w : CmdWord) :
    (op.assemble w).operands = operandsOf w &&& op.operandMask := by
  cases op with
  | nop | flush | reset => exact BitVec.and_zero.symm
  | sample =>
    exact (congrArg (0#40 ++ ·) (extractLsb'_append_low w 8 8)).trans
      (zero_append_extractLsb' w 40 16)
  | sampleLoss | magIn | bchSyndrome | bchCorrect => exact zero_append_extractLsb' w 24 32
  | bitIn =>
    exact (congrArg (0#55 ++ ·) (ofBool_getLsbD w 0)).trans (zero_append_extractLsb' w 55 1)
  | cwIn =>
    exact (congrArg (0#20 ++ ·) (extractLsb'_append_low w 32 4)).trans
      (zero_append_extractLsb' w 20 36)
  | demodQuery =>
    have hjoin : BitVec.ofBool (DemodMode.ofBit (w.getLsbD 32)).bit ++ (w.extractLsb' 24 8 ++
        (w.extractLsb' 16 8 ++ (w.extractLsb' 8 8 ++ w.extractLsb' 0 8))) = w.extractLsb' 0 33 := by
      rw [bit_ofBit, ofBool_getLsbD, extractLsb'_append_low w 8, extractLsb'_append_low w 16,
        extractLsb'_append_low w 24, extractLsb'_append_low w 32]
    exact (congrArg (0#23 ++ ·) hjoin).trans (zero_append_extractLsb' w 23 33)
  | csrRead =>
    have hsplit : operandsOf w =
        w.extractLsb' 40 16 ++ (w.extractLsb' 32 8 ++ w.extractLsb' 0 32) := by
      rw [extractLsb'_append_low w 32, extractLsb'_append_low w 40]
      rfl
    have hmask : Opcode.csrRead.operandMask = 0#16 ++ (BitVec.allOnes 8 ++ 0#32) := by decide
    rw [hsplit, hmask, BitVec.and_append, BitVec.and_append, BitVec.and_zero, BitVec.and_zero,
      BitVec.and_allOnes]
    rfl
  | csrWrite =>
    exact (congrArg (0#16 ++ ·) (extractLsb'_append_low w 32 8)).trans
      (zero_append_extractLsb' w 16 40)

/-- No bit outside a mask: the mask takes nothing away. -/
theorem and_not_eq_zero_iff {n : Nat} (x m : BitVec n) : x &&& ~~~m = 0 ↔ x &&& m = x := by
  constructor
  · intro h
    calc x &&& m = (x &&& m) ||| (x &&& ~~~m) := by rw [h, BitVec.ofNat_eq_ofNat, BitVec.or_zero]
      _ = x := by rw [← BitVec.and_or_distrib_left]; simp
  · intro h
    rw [← h, BitVec.and_assoc]
    simp

/-- Settles O2: the word's opcode and its operands, none of them reserved, are those of the command the
decoder answers. -/
theorem encodeOfDecode : Obligations.EncodeOfDecode := by
  intro w i hdec
  rcases decode_cases w with ⟨-, hw⟩ | ⟨-, -, -, hw⟩ | ⟨op, hop, hmask, hw⟩
  · exact nomatch hw.symm.trans hdec
  · exact nomatch hw.symm.trans hdec
  · obtain rfl := Decoded.command.inj (hw.symm.trans hdec)
    calc encode (op.assemble w) = op.byte ++ (op.assemble w).operands := by
          rw [encode, opcode_assemble]
      _ = opcodeOf w ++ operandsOf w := by
          rw [operands_assemble, (and_not_eq_zero_iff _ _).mp hmask, hop]
      _ = w := opcodeOf_append_operandsOf w

end Sys2Proof.Machine
end

section
/-! PROOFS. What a step makes of a word offered, and of the other things the host does (30 R91, R95,
R96, 60 R284, 70 R290; log entries 1, 3 and 4). -/

namespace Sys2Proof.Machine

/-! ### Words offered -/

/-- The host's offer is taken from the port and performed (log entry 1). -/
theorem step_offer (s : State) (w : CmdWord) : step (s.offer w) = performWith exec w s :=
  serveInput_of_command (s := s.offer w) (rest := s.inputs) rfl

/-- A word that names no command is refused, by numbers (30 R95, 60 R271). -/
theorem step_offer_of_rejected {w : CmdWord} {r : Reject} (hdec : decode w = .rejected r) (s : State) :
    step (s.offer w) =
      .next (refusedWith (rejectCause r).code.toNat (opcodeOf w).toNat 0 s) := by
  rw [step_offer, performWith, hdec]
  exact congrArg _ (raiseIllegal_eq_refusedWith _ _ 0 s)

theorem opcodeOf_toNat (w : CmdWord) : (opcodeOf w).toNat = w.toNat / 2 ^ 56 :=
  (toNat_extractLsb'_eq w 56 8).trans (by omega)

theorem operandsOf_toNat (w : CmdWord) : (operandsOf w).toNat = w.toNat % 2 ^ 56 :=
  (toNat_extractLsb'_eq w 0 56).trans (by omega)

/-- The rows of `opcodeMasks` are the opcodes with their masks (30 R92, R93). -/
theorem mem_opcodeMasks (p : Nat × Nat) :
    p ∈ opcodeMasks ↔ ∃ op : Opcode, p = (op.byte.toNat, op.operandMask.toNat) := by
  constructor
  · revert p
    simp only [opcodeMasks, List.forall_mem_cons]
    exact ⟨⟨.nop, rfl⟩, ⟨.sample, rfl⟩, ⟨.sampleLoss, rfl⟩, ⟨.magIn, rfl⟩, ⟨.bitIn, rfl⟩, ⟨.cwIn, rfl⟩,
      ⟨.demodQuery, rfl⟩, ⟨.bchSyndrome, rfl⟩, ⟨.bchCorrect, rfl⟩, ⟨.csrRead, rfl⟩, ⟨.csrWrite, rfl⟩,
      ⟨.flush, rfl⟩, ⟨.reset, rfl⟩, nofun⟩
  · rintro ⟨op, rfl⟩
    cases op <;> decide

/-- A reserved bit set, by numbers (30 R95). -/
theorem reserved_eq_zero_iff (w : CmdWord) (op : Opcode) :
    operandsOf w &&& ~~~op.operandMask = 0 ↔
      w.toNat % 2 ^ 56 &&& op.operandMask.toNat = w.toNat % 2 ^ 56 := by
  rw [and_not_eq_zero_iff, ← BitVec.toNat_inj, BitVec.toNat_and, operandsOf_toNat]

/-- Settles O4: the three answers of the decoder (30 R95), with the table by numbers
(`mem_opcodeMasks`). -/
theorem refusedWords : Obligations.RefusedWords := by
  intro w s
  rw [← opcodeOf_toNat]
  constructor
  · intro hnone
    have hop : Opcode.ofByte (opcodeOf w) = none := by
      rw [Option.eq_none_iff_forall_ne_some]
      intro op hop
      rw [Opcode.ofByte_eq_some] at hop
      exact hnone _ ((mem_opcodeMasks _).mpr ⟨op, rfl⟩) (congrArg BitVec.toNat hop.symm)
    have hdec : decode w = .rejected .unknownOpcode := by simp only [decode, hop]
    exact step_offer_of_rejected hdec s
  · intro p hp hbyte
    obtain ⟨op, rfl⟩ := (mem_opcodeMasks p).mp hp
    have hop : Opcode.ofByte (opcodeOf w) = some op :=
      Opcode.ofByte_eq_some.mpr (BitVec.eq_of_toNat_eq hbyte.symm)
    constructor
    · intro hmask
      have hdec : decode w = .rejected .reservedBits := by
        simp only [decode, hop, if_neg (mt (reserved_eq_zero_iff w op).mp hmask)]
      exact step_offer_of_rejected hdec s
    · intro hmask
      have hdec : decode w = .command (op.assemble w) := by
        simp only [decode, hop, if_pos ((reserved_eq_zero_iff w op).mpr hmask)]
      exact ⟨_, encodeOfDecode w _ hdec, hdec,
        (step_offer s w).trans (performWith_of_decode_command hdec s)⟩

/-! ### The other inputs -/

/-- Settles O7: by the input at the head of the list. -/
theorem portInputs : Obligations.PortInputs := by
  intro s rest
  refine ⟨fun hin => ?_, fun e es hevts hin => ?_, fun hin => ?_⟩
  · rw [step, serveInput, State.nextInput_nil hin]
  · rw [step, serveInput, State.nextInput_cons hin]
    exact congrArg (fun l => Host.Outcome.next ((s.setInputs rest).setEvts l))
      (congrArg (List.drop 1) hevts)
  · exact ⟨_, serveInput_of_hardReset hin, rfl, rfl⟩

/-! ### Every step completes -/

/-- An operation that answers a state is a command that completes. -/
theorem safe_answer {r : Except Fault State} {t : State} (h : r = .ok t) : Safe (answer r) :=
  ⟨t, answer_eq_next.mpr h⟩

/-- No command reaches outside the buffer (20 R70). -/
theorem exec_safe (i : Instr) {s : State} (h : s.BufferSafe .build) : Safe (exec i s) := by
  obtain ⟨hnc, hcap⟩ := h
  cases i with
  | nop | sampleLoss _ | demodQuery _ _ _ _ _ | bchSyndrome _ | bchCorrect _ | reset => exact ⟨_, rfl⟩
  | sample ib qb =>
    obtain ⟨t, ht, -⟩ := syncStep_total (sampleValue .build ib qb s)
      (s := keepSample .build ib qb s) hnc hcap
    exact safe_answer ht
  | magIn y =>
    obtain ⟨t, ht, -⟩ := syncStep_total (signed32 y) hnc hcap
    exact safe_answer ht
  | bitIn b =>
    obtain ⟨t, ht, -⟩ := fsmBit_total b hnc hcap
    exact safe_answer ht
  | cwIn w slot =>
    obtain ⟨t, ht, -⟩ := dataWord_total w slot false hnc hcap
    exact safe_answer ht
  | csrRead a => rcases execCsrRead_cases a s with hs | ⟨v, hs⟩ <;> exact ⟨_, hs⟩
  | csrWrite a v =>
    rcases execCsrWrite_cases a v s with ⟨cause, hs⟩ | ⟨r, -, -, -, hs⟩ <;> exact ⟨_, hs⟩
  | flush =>
    obtain ⟨t, ht, -⟩ := finalizeIfOpen_total hnc
    exact safe_answer ht

/-- Settles O11: a command is safe by `exec_safe`, whose premise the invariant gives; the other inputs
answer a state outright. -/
theorem neverStops : Obligations.NeverStops := by
  intro s hinv
  obtain ⟨⟨-, -, -, -, -, hcap⟩, -, -, -, -, ⟨-, -, hnc, -⟩, -⟩ := hinv
  rcases step_cases s with ⟨-, hs⟩ | ⟨w, i, rest, -, -, hs⟩ | ⟨w, r, rest, -, -, hs⟩ |
    ⟨rest, -, hs⟩ | ⟨rest, -, hs⟩
  · exact ⟨_, hs⟩
  · rw [hs]
    exact exec_safe i ⟨hnc, hcap⟩
  · exact ⟨_, hs⟩
  · exact ⟨_, hs⟩
  · exact ⟨_, hs⟩

end Sys2Proof.Machine
end

section
/-! PROOFS. The textual form of commands and the pseudo-commands (30 R103 to R105). -/

namespace Sys2Proof.Machine

/-! ### The worked encodings (30 R105) -/

/-- A line, its command and the command's word: the way back from the word is the decoder's. -/
theorem line_word_decode {line : String} {i : Instr} {w : CmdWord}
    (hline : assembleLine line = some [i]) (hw : encode i = w) :
    assembleLine line = some [i] ∧ encode i = w ∧ decode w = .command i :=
  ⟨hline, hw, hw ▸ decode_encode i⟩

/-- Settles O5: text and word by evaluating each line, the way back by `line_word_decode`. -/
theorem workedEncodings : Obligations.WorkedEncodings := by
  unfold Obligations.WorkedEncodings
  simp only [List.forall_mem_cons]
  refine ⟨line_word_decode ?_ ?_, line_word_decode ?_ ?_, line_word_decode ?_ ?_,
    line_word_decode ?_ ?_, line_word_decode ?_ ?_, line_word_decode ?_ ?_, line_word_decode ?_ ?_,
    line_word_decode ?_ ?_, line_word_decode ?_ ?_, line_word_decode ?_ ?_, line_word_decode ?_ ?_,
    nofun⟩ <;> decide +kernel

/-! ### The ranges of the fields (30 R103) -/

/-- The values of an unsigned field (30 R103). -/
theorem fitsUnsigned_iff {n : Nat} {v : Int} : fitsUnsigned n v = true ↔ 0 ≤ v ∧ v ≤ 2 ^ n - 1 := by
  rw [fitsUnsigned, Bool.and_eq_true, decide_eq_true_iff, decide_eq_true_iff, Int.le_sub_one_iff]

/-- The values of a two's-complement field of 32 bits (30 R103). -/
theorem fitsSigned32_iff {v : Int} : fitsSigned32 v = true ↔ -2 ^ 31 ≤ v ∧ v ≤ 2 ^ 31 - 1 := by
  rw [fitsSigned32, Bool.and_eq_true, decide_eq_true_iff, decide_eq_true_iff, Int.le_sub_one_iff]

theorem ofInt_of_nonneg {n : Nat} {v : Int} (h : 0 ≤ v) :
    BitVec.ofInt n v = BitVec.ofNat n v.toNat := by
  rw [← BitVec.ofInt_natCast, Int.toNat_of_nonneg h]

/-- Two refusals on the same condition agree when their answers do. -/
theorem ite_some_congr {α : Type} {c : Bool} {p : Prop} [Decidable p] {x y : α}
    (hcond : c = true ↔ p) (hans : p → x = y) :
    (if c then some x else none) = if p then some y else none := by
  by_cases hp : p
  · rw [if_pos hp, if_pos (hcond.mpr hp), hans hp]
  · rw [if_neg hp, if_neg (mt hcond.mp hp)]

/-- A command whose only operand is an unsigned word. -/
theorem assemble_of_word {x : Asm} {f : Word → Instr} {w : Int}
    (hx : assemble x = if fitsUnsigned 32 w then some (f (BitVec.ofInt 32 w)) else none) :
    assemble x = if 0 ≤ w ∧ w ≤ 2 ^ 32 - 1 then some (f (BitVec.ofNat 32 w.toNat)) else none :=
  hx.trans (ite_some_congr fitsUnsigned_iff fun ⟨hw, _⟩ => congrArg f (ofInt_of_nonneg hw))

/-- The two values of a one-bit field. -/
theorem assemble_bitIn (b : Int) : assemble (.bitIn b) =
    if b = 0 then some (.bitIn false) else if b = 1 then some (.bitIn true) else none := by
  by_cases h0 : b = 0
  · subst h0
    rfl
  by_cases h1 : b = 1
  · subst h1
    rfl
  have hout : ¬ fitsUnsigned 1 b = true := by
    rw [fitsUnsigned_iff]
    omega
  rw [if_neg h0, if_neg h1]
  exact if_neg hout

/-- Settles O58: each form is checked by its fields' ranges (`fitsUnsigned_iff`, `fitsSigned32_iff`)
and answers their bits (`ite_some_congr`). -/
theorem assemblerRanges : Obligations.AssemblerRanges := by
  refine ⟨fun i q => ?_, fun _ => assemble_of_word rfl, fun y => ?_, assemble_bitIn,
    fun w slot => ?_, fun i q ip qp mode => ?_, fun _ => assemble_of_word rfl,
    fun _ => assemble_of_word rfl, fun a => ?_, fun a v => ?_⟩
  · refine ite_some_congr ?_ fun ⟨⟨hi, _⟩, hq, _⟩ => ?_
    · rw [Asm.wellFormed, Bool.and_eq_true, fitsUnsigned_iff, fitsUnsigned_iff]
      rfl
    · rw [ofInt_of_nonneg hi, ofInt_of_nonneg hq]
  · exact ite_some_congr fitsSigned32_iff fun _ => rfl
  · refine ite_some_congr ?_ fun ⟨⟨hw, _⟩, hslot, _⟩ => ?_
    · rw [Asm.wellFormed, Bool.and_eq_true, fitsUnsigned_iff, fitsUnsigned_iff]
      rfl
    · rw [ofInt_of_nonneg hw, ofInt_of_nonneg hslot]
  · refine ite_some_congr ?_ fun ⟨⟨hi, _⟩, ⟨hq, _⟩, ⟨hip, _⟩, ⟨hqp, _⟩, hmode⟩ => ?_
    · simp only [Asm.wellFormed, Bool.and_eq_true, fitsUnsigned_iff]
      omega
    · rw [ofInt_of_nonneg hi, ofInt_of_nonneg hq, ofInt_of_nonneg hip, ofInt_of_nonneg hqp]
      rcases hmode with rfl | rfl <;> rfl
  · exact ite_some_congr fitsUnsigned_iff fun ⟨ha, _⟩ => congrArg _ (ofInt_of_nonneg ha)
  · refine ite_some_congr ?_ fun ⟨⟨ha, _⟩, _⟩ => ?_
    · simp only [Asm.wellFormed, Bool.and_eq_true, Bool.or_eq_true, fitsUnsigned_iff,
        fitsSigned32_iff]
      omega
    · rw [ofInt_of_nonneg ha]

/-! ### The pseudo-commands (30 R104) -/

/-- An odd count of bytes is refused. -/
theorem expandSamples_of_odd : ∀ {bs : List Byte}, bs.length % 2 = 1 → expandSamples bs = none
  | [_], _ => rfl
  | i :: q :: rest, h => by
    rw [expandSamples, expandSamples_of_odd ((Nat.add_mod_right rest.length 2).symm.trans h),
      Option.map_none]

/-- An even count of bytes is taken in pairs. -/
theorem expandSamples_of_even : ∀ {bs : List Byte}, bs.length % 2 = 0 →
    expandSamples bs = some ((List.range (bs.length / 2)).map fun k =>
      .sample (bs.getD (2 * k) 0) (bs.getD (2 * k + 1) 0))
  | [], _ => rfl
  | i :: q :: rest, h => by
    have hhalf : (i :: q :: rest).length / 2 = rest.length / 2 + 1 := by
      simp only [List.length_cons]
      omega
    rw [expandSamples, expandSamples_of_even ((Nat.add_mod_right rest.length 2).symm.trans h), hhalf,
      List.range_succ_eq_map, List.map_cons, List.map_map]
    rfl

/-- `n` bits of a word, the highest first. -/
theorem expandBits_eq_map (w : Word) (n : Nat) :
    expandBits w n = (List.range n).map fun k => .bitIn (w.getLsbD (n - 1 - k)) := by
  induction n with
  | zero => rfl
  | succ n ih =>
    rw [expandBits, ih, List.range_succ_eq_map, List.map_cons, List.map_map]
    refine congrArg₂ _ rfl (List.map_congr_left fun k _ => ?_)
    simp only [Function.comp_apply, Nat.add_sub_cancel, Nat.sub_sub, Nat.add_comm 1 k]

/-- Bit `k` of an alternating run is the first bit, inverted when `k` is odd. -/
theorem expandAlternating_eq_map (b : Bool) (n : Nat) :
    expandAlternating b n = (List.range n).map fun k => .bitIn (b ^^ decide (k % 2 = 1)) := by
  induction n generalizing b with
  | zero => rfl
  | succ n ih =>
    rw [expandAlternating, ih, List.range_succ_eq_map, List.map_cons, List.map_map]
    refine congrArg₂ _ (by simp) (List.map_congr_left fun k _ => ?_)
    have hflip : decide ((k + 1) % 2 = 1) = !decide (k % 2 = 1) := by
      rw [← decide_not, decide_eq_decide]
      omega
    simp [hflip]

/-- Settles O59: each expansion as a list over the positions of its bytes, bits or words. -/
theorem pseudoCommands : Obligations.PseudoCommands := by
  refine ⟨fun bs => expandSamples_of_odd, fun bs => expandSamples_of_even,
    fun w => expandBits_eq_map w 32, fun n => ?_, fun ws hws => ?_, fun k => ?_, rfl⟩
  · refine (expandAlternating_eq_map true n).trans (List.map_congr_left fun k _ => ?_)
    rw [Bool.true_xor, ← decide_not]
    exact congrArg Instr.bitIn (decide_eq_decide.mpr (by omega))
  · rw [expandBatch, cwPerBatch, if_pos hws, List.flatMap_def]
    rfl
  · rw [expandIdles, List.map_const', List.length_range]
    rfl

end Sys2Proof.Machine
end

section
/-! PROOFS. The order of a command's events (30 R100, 60 R278). -/

namespace Sys2Proof.Machine

/-! ### The types of the events added -/

/-- The second state has more events than the first, of these types in this order (30 R100). -/
def Emits (s t : State) (types : List Nat) : Prop :=
  ∃ es : List EvtWord, t.evts = s.evts ++ es ∧ es.map typeOf = types

theorem Emits.quiet {s t : State} (h : t.evts = s.evts) : Emits s t [] :=
  ⟨[], h.trans (List.append_nil _).symm, rfl⟩

theorem Emits.trans {s t u : State} {ms ns : List Nat} (h : Emits s t ms) (k : Emits t u ns) :
    Emits s u (ms ++ ns) := by
  obtain ⟨es, hevts, rfl⟩ := h
  obtain ⟨fs, kevts, rfl⟩ := k
  exact ⟨es ++ fs, by rw [kevts, hevts, List.append_assoc], List.map_append⟩

/-- Only the events of the first state matter. -/
theorem Emits.of_evts {s s' t : State} {types : List Nat} (h : Emits s' t types)
    (hevts : s'.evts = s.evts) : Emits s t types := by
  rw [Emits, ← hevts]
  exact h

theorem Emits.emit (s : State) (e : Event) : Emits s (s.emit e) [e.type.toNat] :=
  ⟨[e.word], rfl, by rw [List.map_singleton, typeOf_word]⟩

/-! ### The parser: at most one message -/

/-- The event types of at most one whole message (44 R224). -/
def MessageTypes (cfg : Config) (types : List Nat) : Prop :=
  types = [] ∨ ∃ n ≤ cfg.maxCap, types = 0x01 :: List.replicate n 0x02 ++ [0x03]

/-- At most one message was handed out, and nothing else. -/
def EmitsMessage (cfg : Config) (s t : State) : Prop :=
  ∃ types, Emits s t types ∧ MessageTypes cfg types

theorem EmitsMessage.quiet {cfg : Config} {s t : State} (h : t.evts = s.evts) :
    EmitsMessage cfg s t :=
  ⟨[], .quiet h, .inl rfl⟩

theorem EmitsMessage.of_evts {cfg : Config} {s s' t : State} (h : EmitsMessage cfg s' t)
    (hevts : s'.evts = s.evts) : EmitsMessage cfg s t := by
  obtain ⟨types, hemits, htypes⟩ := h
  exact ⟨types, hemits.of_evts hevts, htypes⟩

/-- A message is a header, its characters and an end (44 R224). -/
theorem messageEvents_types (r : MsgReg) (m : Memory) :
    ((messageEvents r m).map Event.word).map typeOf =
      0x01 :: List.replicate r.nc 0x02 ++ [0x03] := by
  have hchars : ((charsFrom m 0 r.nc).map Event.word).map typeOf = List.replicate r.nc 0x02 := by
    rw [charsFrom, List.map_map, List.map_map, List.eq_replicate_iff]
    refine ⟨by rw [List.length_map, List.length_range'], fun n hn => ?_⟩
    obtain ⟨j, -, rfl⟩ := List.mem_map.mp hn
    exact typeOf_word _
  simp only [messageEvents, List.map_cons, List.map_append, hchars, typeOf_word]
  rfl

theorem finalized_emits {cfg : Config} {s : State} (h : s.msg.nc ≤ cfg.maxCap) :
    EmitsMessage cfg s (finalized s) :=
  ⟨_, ⟨_, finalized_evts s, messageEvents_types s.msg s.buf⟩, .inr ⟨s.msg.nc, h, rfl⟩⟩

theorem finalizeIfOpen_emits {cfg : Config} {s t : State} (h : finalizeIfOpen cfg s = .ok t) :
    EmitsMessage cfg s t := by
  rcases finalizeIfOpen_ok.mp h with ⟨-, hnc, rfl⟩ | ⟨-, rfl⟩
  · exact finalized_emits hnc
  · exact .quiet rfl

/-- A bit that leaves the message open adds no event (44 R219, R223). -/
theorem accum_emits {cfg : Config} {b : Bool} {s t : State} (h : accum cfg b s = .ok t) :
    EmitsMessage cfg s t ∧ (t.msg.isOpen = true → t.evts = s.evts) := by
  rcases accum_ok.mp h with ⟨-, h⟩ | ⟨-, rfl⟩
  · rcases appendUnit_ok.mp h with ⟨-, hnc, rfl⟩ | ⟨-, -, rfl⟩
    · have hfin : EmitsMessage cfg (s.setMsg (truncatedMsg s.msg))
          (finalized (s.setMsg (truncatedMsg s.msg))) := finalized_emits hnc
      refine ⟨hfin.of_evts rfl, fun hopen => ?_⟩
      rw [finalized_msg] at hopen
      exact absurd hopen (by decide)
    · exact ⟨.quiet rfl, fun _ => rfl⟩
  · exact ⟨.quiet rfl, fun _ => rfl⟩

/-- Once a message is handed out at capacity no further bit is taken (44 R223). -/
theorem accumBits_emits {cfg : Config} : ∀ {bs : List Bool} {s t : State},
    accumBits cfg bs s = .ok t → EmitsMessage cfg s t
  | [], s, t, h => by
    obtain rfl := Except.ok.inj h
    exact .quiet rfl
  | b :: bs, s, t, h => by
    obtain ⟨u, hu, ⟨hopen, h⟩ | ⟨-, rfl⟩⟩ := accumBits_cons.mp h
    · exact (accumBits_emits h).of_evts ((accum_emits hu).2 hopen)
    · exact (accum_emits hu).1

theorem parse_emits {cfg : Config} {c : Word} {slot : BitVec 4} {s t : State}
    (h : parse cfg c slot s = .ok t) : EmitsMessage cfg s t := by
  rcases parse_ok h with ⟨-, h⟩ | ⟨-, rfl⟩ | ⟨-, -, rfl⟩ | ⟨-, -, h⟩ | ⟨-, -, -, h⟩
  · exact finalizeIfOpen_emits h
  · exact .quiet rfl
  · exact .quiet rfl
  · exact accumBits_emits h
  · obtain ⟨u, hu, rfl⟩ := parseAddress_ok.mp h
    obtain ⟨types, hemits, htypes⟩ := finalizeIfOpen_emits hu
    exact ⟨types, hemits, htypes⟩

/-! ### The frame acquirer: at most one message, then one framing event -/

/-- What the frame acquirer reports at most once (42 R164, R167, R170). -/
def frameReports : List (List Nat) :=
  [[], [0x20], [0x21], [0x22], [0x23]]

/-- At most one message was handed out, then at most one event of the frame acquirer, which follows a
message only when it is SYNC_LOST (60 R278). -/
def EmitsFrame (cfg : Config) (s t : State) : Prop :=
  ∃ message last, Emits s t (message ++ last) ∧ MessageTypes cfg message ∧
    last ∈ frameReports ∧ (message ≠ [] → last = [] ∨ last = [0x23])

theorem EmitsMessage.frame {cfg : Config} {s t : State} (h : EmitsMessage cfg s t) :
    EmitsFrame cfg s t := by
  obtain ⟨types, hemits, htypes⟩ := h
  exact ⟨types, [], by rwa [List.append_nil], htypes, by decide, fun _ => .inl rfl⟩

theorem EmitsFrame.quiet {cfg : Config} {s t : State} (h : t.evts = s.evts) : EmitsFrame cfg s t :=
  (EmitsMessage.quiet h).frame

/-- An event of the frame acquirer with no message before it. -/
theorem EmitsFrame.single {cfg : Config} {s t : State} {e : Event} (h : t.evts = s.evts ++ [e.word])
    (hlast : [e.type.toNat] ∈ frameReports) : EmitsFrame cfg s t :=
  ⟨[], [e.type.toNat], ⟨[e.word], h, by rw [List.map_singleton, typeOf_word]; rfl⟩, .inl rfl, hlast,
    fun hne => absurd rfl hne⟩

theorem EmitsFrame.of_evts {cfg : Config} {s s' t : State} (h : EmitsFrame cfg s' t)
    (hevts : s'.evts = s.evts) : EmitsFrame cfg s t := by
  obtain ⟨message, last, hemits, hframe⟩ := h
  exact ⟨message, last, hemits.of_evts hevts, hframe⟩

/-- Loss of sync hands out the open message, then reports (42 R170). -/
theorem loseSync_emits {cfg : Config} {reason : LossReason} {s t : State}
    (h : loseSync cfg reason s = .ok t) : EmitsFrame cfg s t := by
  obtain ⟨u, hu, rfl⟩ := loseSync_ok.mp h
  obtain ⟨types, hemits, htypes⟩ := finalizeIfOpen_emits hu
  have hlost := (Emits.emit ((u.setFsm (reframe s.fsm .searchPreambleStart)).inc .syncLost 1)
    (.syncLost reason)).of_evts (s := u) rfl
  exact ⟨types, [0x23], hemits.trans hlost, htypes, by decide, fun _ => .inr rfl⟩

theorem windowFailure_emits {cfg : Config} {s t : State} (h : windowFailure cfg s = .ok t) :
    EmitsFrame cfg s t := by
  rcases windowFailure_ok.mp h with ⟨-, h⟩ | ⟨-, rfl⟩
  · exact (loseSync_emits h).of_evts rfl
  · exact .quiet rfl

theorem dataWord_emits {cfg : Config} {w : Word} {slot : BitVec 4} {f : Bool} {s t : State}
    (h : dataWord cfg w slot f s = .ok t) : EmitsFrame cfg s t := by
  rcases dataWord_ok.mp h with ⟨-, h⟩ | ⟨-, -, h⟩ | ⟨-, -, rfl⟩
  · exact (parse_emits h).frame.of_evts (countCorrected_evts _ _ s)
  · exact (windowFailure_emits h).of_evts (markUncorrectable_evts s)
  · exact .quiet (markUncorrectable_evts s)

theorem missSync_emits {cfg : Config} {s t : State} (h : missSync cfg s = .ok t) :
    EmitsFrame cfg s t := by
  rcases missSync_ok.mp h with ⟨-, h⟩ | ⟨-, rfl⟩
  · exact (loseSync_emits h).of_evts rfl
  · exact .single (State.emit_evts (s.setFsm _) _) (by decide : [0x22] ∈ frameReports)

theorem synchedWord_emits {cfg : Config} {w : Word} {s t : State}
    (h : synchedWord cfg w s = .ok t) : EmitsFrame cfg s t := by
  rcases synchedWord_ok h with ⟨-, -, -, rfl⟩ | ⟨-, -, h⟩ | ⟨-, h⟩
  · exact .single (State.emit_evts ((s.setFsm _).inc .batch 1) _) (by decide : [0x21] ∈ frameReports)
  · exact missSync_emits h
  · exact (dataWord_emits h).of_evts rfl

theorem stepPreambleStart_evts (s : State) : (stepPreambleStart s).evts = s.evts := by
  unfold stepPreambleStart
  split <;> rfl

theorem stepPreambleEnd_evts (brk : Bool) (altPrev : BitVec 16) (s : State) :
    (stepPreambleEnd brk altPrev s).evts = s.evts := by
  unfold stepPreambleEnd
  split <;> rfl

theorem stepSearchSync_emits (cfg : Config) (s : State) : EmitsFrame cfg s (stepSearchSync s) := by
  unfold stepSearchSync
  split
  · exact .single (State.emit_evts ((s.setFsm _).inc .syncAcq 1) _) (by decide : [0x20] ∈ frameReports)
  · exact .quiet rfl

theorem fsmBit_emits {cfg : Config} {b : Bool} {s t : State} (h : fsmBit cfg b s = .ok t) :
    EmitsFrame cfg s t := by
  rcases fsmBit_ok h with ⟨-, rfl⟩ | ⟨-, rfl⟩ | ⟨-, rfl⟩ | ⟨-, -, h⟩ | ⟨-, -, rfl⟩
  · exact .quiet (stepPreambleStart_evts (recordBit b s))
  · exact .quiet (stepPreambleEnd_evts _ _ (recordBit b s))
  · exact (stepSearchSync_emits cfg (recordBit b s)).of_evts rfl
  · exact (synchedWord_emits h).of_evts rfl
  · exact .quiet rfl

/-! ### The commands -/

/-- What a command's events may end with (60 R278). -/
def lastReports : List (List Nat) :=
  [[], [0x20], [0x21], [0x22], [0x23], [0x30], [0x3F]]

/-- The order the spec infers (60 R278), a BIT event being there only when it may be. -/
def EmitsInOrder (bitAllowed : Prop) (s t : State) : Prop :=
  ∃ bit message last, Emits s t (bit ++ message ++ last) ∧ (bit = [] ∨ bit = [0x10] ∧ bitAllowed) ∧
    MessageTypes .build message ∧
    last ∈ lastReports ∧ (message ≠ [] → last = [] ∨ last = [0x23]) ∧
    (last = [0x30] ∨ last = [0x3F] → bit = [] ∧ message = [])

/-- A BIT event or none, then what the frame acquirer adds. -/
theorem EmitsInOrder.of_frame {p : Prop} {s u t : State} {bit : List Nat} (hu : Emits s u bit)
    (hbit : bit = [] ∨ bit = [0x10] ∧ p) (h : EmitsFrame .build u t) : EmitsInOrder p s t := by
  obtain ⟨message, last, hemits, hmessage, hlast, hafter⟩ := h
  have hany : last ∈ lastReports :=
    List.mem_append_left [[0x30], [0x3F]] hlast
  refine ⟨bit, message, last, ?_, hbit, hmessage, hany, hafter, ?_⟩
  · rw [List.append_assoc]
    exact hu.trans hemits
  · rintro (rfl | rfl)
    · exact absurd hlast (by decide)
    · exact absurd hlast (by decide)

theorem EmitsFrame.inOrder {p : Prop} {s t : State} (h : EmitsFrame .build s t) :
    EmitsInOrder p s t :=
  .of_frame (.quiet rfl) (.inl rfl) h

/-- At most one event. -/
theorem EmitsInOrder.of_last {p : Prop} {s t : State} {last : List Nat} (h : Emits s t last)
    (hlast : last ∈ lastReports) : EmitsInOrder p s t :=
  ⟨[], [], last, h, .inl rfl, .inl rfl, hlast, fun hne => absurd rfl hne, fun _ => ⟨rfl, rfl⟩⟩

theorem EmitsInOrder.quiet {p : Prop} {s t : State} (h : t.evts = s.evts) : EmitsInOrder p s t :=
  .of_last (.quiet h) (by decide)

theorem EmitsInOrder.result {p : Prop} (s : State) (payload : BitVec 56) :
    EmitsInOrder p s (s.emit (.result payload)) :=
  .of_last (.emit s _) (by decide : [0x30] ∈ lastReports)

theorem EmitsInOrder.illegal {p : Prop} (cause : Cause) (op addr : Byte) (s : State) :
    EmitsInOrder p s (raiseIllegal cause op addr s) :=
  .of_last ((Emits.emit (s.inc .illegal 1) _).of_evts rfl) (by decide : [0x3F] ∈ lastReports)

/-- A traced bit is one BIT event (41 R144). -/
theorem traceBit_emits (acc : Int) (b : Bool) (s : State) :
    Emits s (traceBit acc b s) (if s.csr.bitTrace then [0x10] else []) := by
  unfold traceBit
  split
  · exact .emit s _
  · exact .quiet rfl

/-- A demod value that ends a symbol traces its bit before the frame acquirer takes it (41 R144). -/
theorem syncStep_inOrder {y : Int} {s t : State} (h : syncStep .build y s = .ok t) :
    EmitsInOrder (s.csr.bitTrace = true) s t := by
  rcases syncStep_ok.mp h with ⟨-, h⟩ | ⟨-, rfl⟩
  · refine .of_frame (.of_evts (traceBit_emits _ _ _) ?_) ?_ (fsmBit_emits h)
    · rfl
    · rw [State.setSync_csr]
      split
      · rename_i htrace; exact .inr ⟨rfl, htrace⟩
      · exact .inl rfl
  · exact .quiet rfl

theorem EmitsInOrder.mono {p q : Prop} {s t : State} (h : EmitsInOrder p s t) (hpq : p → q) :
    EmitsInOrder q s t := by
  obtain ⟨bit, message, last, hemits, hbit, hrest⟩ := h
  exact ⟨bit, message, last, hemits, hbit.imp_right fun ⟨hbit, hp⟩ => ⟨hbit, hpq hp⟩, hrest⟩

/-- Only SAMPLE and MAG_IN trace bits, while `BIT_TRACE` is 1 (41 R144). -/
def TracesBit (i : Instr) (s : State) : Prop :=
  s.csr.bitTrace = true ∧ ((∃ a b, i = .sample a b) ∨ ∃ y, i = .magIn y)

theorem csrWrite_evts (s : State) (v : Word) (r : Csr) : (csrWrite s v r).evts = s.evts := by
  unfold csrWrite
  split <;> rfl

/-- Every command adds its events in the order of 60 R278. -/
theorem exec_inOrder {i : Instr} {s t : State} (h : exec i s = .next t) :
    EmitsInOrder (TracesBit i s) s t := by
  cases i with
  | nop | sampleLoss _ | reset =>
    obtain rfl := Host.Outcome.next.inj h
    exact .quiet rfl
  | sample a b =>
    have hstep := syncStep_inOrder (s := keepSample .build a b s) (answer_eq_next.mp h)
    exact hstep.mono fun htrace => ⟨htrace, .inl ⟨a, b, rfl⟩⟩
  | magIn y =>
    exact (syncStep_inOrder (answer_eq_next.mp h)).mono fun htrace => ⟨htrace, .inr ⟨y, rfl⟩⟩
  | bitIn b => exact (fsmBit_emits (answer_eq_next.mp h)).inOrder
  | cwIn w slot => exact (dataWord_emits (answer_eq_next.mp h)).inOrder
  | demodQuery _ _ _ _ _ | bchSyndrome _ | bchCorrect _ =>
    obtain rfl := Host.Outcome.next.inj h
    exact .result s _
  | csrRead a =>
    rcases execCsrRead_cases a s with hs | ⟨v, hs⟩
    · obtain rfl := Host.Outcome.next.inj (hs.symm.trans h)
      exact .illegal _ _ _ s
    · obtain rfl := Host.Outcome.next.inj (hs.symm.trans h)
      exact .result s _
  | csrWrite a v =>
    rcases execCsrWrite_cases a v s with ⟨cause, hs⟩ | ⟨r, -, -, -, hs⟩
    · obtain rfl := Host.Outcome.next.inj (hs.symm.trans h)
      exact .illegal _ _ _ s
    · obtain rfl := Host.Outcome.next.inj (hs.symm.trans h)
      exact .quiet (csrWrite_evts s v r)
  | flush => exact (finalizeIfOpen_emits (answer_eq_next.mp h)).frame.inOrder

/-- A message is at most a header, 256 characters and an end (44 R224). -/
theorem MessageTypes.length_le {types : List Nat} (h : MessageTypes .build types) :
    types.length ≤ 258 := by
  rcases h with rfl | ⟨n, hn, rfl⟩
  · exact Nat.zero_le _
  · have hn : n ≤ 256 := hn
    simp only [List.length_append, List.length_cons, List.length_replicate, List.length_nil]
    omega

/-- Settles O14: `exec_inOrder`, with one BIT, one message (`MessageTypes.length_le`) and one last event
at most. -/
theorem eventOrder : Obligations.EventOrder := by
  intro i s t h
  obtain ⟨bit, message, last, ⟨es, hevts, htypes⟩, hbit, hmessage, hlast, hafter, halone⟩ :=
    exec_inOrder h
  have hbitLength : bit.length ≤ 1 := by rcases hbit with rfl | ⟨rfl, -⟩ <;> decide
  have hlastLength : last.length ≤ 1 :=
    (by decide : ∀ l ∈ lastReports, l.length ≤ 1) last hlast
  have hlength : es.length = bit.length + message.length + last.length := by
    rw [← List.length_map (f := typeOf), htypes, List.length_append, List.length_append]
  have hmessageLength := hmessage.length_le
  exact ⟨es, bit, message, last, hevts, htypes, by omega, hbit, hmessage, hlast, hafter, halone⟩

end Sys2Proof.Machine
end

section
/-! PROOFS. What the demodulator computes, its ranges, and the commands that show it (40 R120 to
R127). -/

namespace Sys2Proof.Machine

/-! ### The magnitude -/

/-- The block's square root is the library's (00 R11). -/
theorem isqrt_eq_sqrt (n : Nat) : isqrt n = n.sqrt :=
  isqrt_unique (Nat.sqrt_le n) (Nat.lt_succ_sqrt n)

theorem energy_nonneg (ci cq : Int) : 0 ≤ ci * ci + cq * cq :=
  add_nonneg (mul_self_nonneg ci) (mul_self_nonneg cq)

/-- The magnitude by numbers (40 R121). -/
theorem magnitude_eq_magnitudeOf (ci cq : Int) : magnitude ci cq = magnitudeOf ci cq := by
  have hnonneg := energy_nonneg ci cq
  have hscale : (262144 * (ci * ci + cq * cq)).toNat = 262144 * (ci * ci + cq * cq).toNat := by
    omega
  rw [magnitude, magnitudeOf, isqrt_eq_sqrt, hscale]

theorem magnitude_nonneg (ci cq : Int) : 0 ≤ magnitude ci cq :=
  Int.natCast_nonneg _

/-- The half of a root, rounded up (40 R121). -/
def halfRoot (n : Nat) : Nat :=
  (isqrt n + 1) / 2

theorem magnitude_eq_halfRoot (ci cq : Int) :
    magnitude ci cq = halfRoot (262144 * (ci * ci + cq * cq).toNat) :=
  rfl

theorem lt_halfRoot_sq (n : Nat) : n < (2 * halfRoot n + 1) ^ 2 := by
  have hroot : isqrt n + 1 ≤ 2 * halfRoot n + 1 := by unfold halfRoot; omega
  calc n < (isqrt n + 1) * (isqrt n + 1) := (isqrt_bounds n).2
    _ ≤ (2 * halfRoot n + 1) * (2 * halfRoot n + 1) := Nat.mul_le_mul hroot hroot
    _ = (2 * halfRoot n + 1) ^ 2 := (sq _).symm

/-- An even number is no odd number's square, so its halved root is never a tie. -/
theorem halfRoot_sq_lt {n m : Nat} (heven : Even n) (hm : halfRoot n = m + 1) :
    (2 * m + 1) ^ 2 < n := by
  have hroot : 2 * m + 1 ≤ isqrt n := by unfold halfRoot at hm; omega
  have hle : (2 * m + 1) ^ 2 ≤ n :=
    calc (2 * m + 1) ^ 2 = (2 * m + 1) * (2 * m + 1) := sq _
      _ ≤ isqrt n * isqrt n := Nat.mul_le_mul hroot hroot
      _ ≤ n := (isqrt_bounds n).1
  have hodd : Odd ((2 * m + 1) ^ 2) := (odd_two_mul_add_one m).pow
  exact hle.lt_of_ne fun heq => Nat.not_even_iff_odd.mpr (heq ▸ hodd) heven

/-- The halved root of an even number `n` is nearer than one half to any real `x` with
`(2 * x)² = n`. -/
theorem abs_halfRoot_sub_lt {n : Nat} (heven : Even n) {x : ℝ} (hx : 0 ≤ x)
    (hsq : (2 * x) ^ 2 = n) : |(halfRoot n : ℝ) - x| < 1 / 2 := by
  have hupper : 2 * x < 2 * (halfRoot n : ℝ) + 1 := by
    refine lt_of_pow_lt_pow_left₀ 2 (by positivity) ?_
    rw [hsq]
    exact_mod_cast lt_halfRoot_sq n
  have hlower : 2 * (halfRoot n : ℝ) - 1 < 2 * x := by
    cases hm : halfRoot n with
    | zero => rw [Nat.cast_zero]; linarith
    | succ m =>
      have hlt : 2 * (m : ℝ) + 1 < 2 * x := by
        refine lt_of_pow_lt_pow_left₀ 2 (by positivity) ?_
        rw [hsq]
        exact_mod_cast halfRoot_sq_lt heven hm
      rw [Nat.cast_succ]
      linarith
  rw [abs_sub_lt_iff]
  constructor <;> linarith

/-- The magnitude is the integer nearest to `256 * sqrt(i² + q²)` (40 R121). -/
theorem abs_magnitude_sub_lt (ci cq : Int) :
    |(magnitude ci cq : ℝ) - 256 * √((ci : ℝ) ^ 2 + (cq : ℝ) ^ 2)| < 1 / 2 := by
  have henergy : (((ci * ci + cq * cq).toNat : ℕ) : ℝ) = (ci : ℝ) ^ 2 + (cq : ℝ) ^ 2 := by
    have hcast : (((ci * ci + cq * cq).toNat : ℤ) : ℝ) = ((ci * ci + cq * cq : ℤ) : ℝ) := by
      rw [Int.toNat_of_nonneg (energy_nonneg ci cq)]
    push_cast at hcast
    rw [hcast]
    ring
  have heven : Even (262144 * (ci * ci + cq * cq).toNat) := Even.mul_right (by decide) _
  rw [magnitude_eq_halfRoot, Int.cast_natCast]
  refine abs_halfRoot_sub_lt heven (by positivity) ?_
  rw [Nat.cast_mul, henergy, mul_pow, mul_pow, Real.sq_sqrt (by positivity)]
  norm_num
  ring

/-- A bound on the energy bounds the magnitude (40 R127). -/
theorem magnitude_le {ci cq : Int} {e m : Nat} (henergy : ci * ci + cq * cq ≤ e)
    (hm : 262144 * e < (2 * m + 1) * (2 * m + 1)) : magnitude ci cq ≤ m := by
  have hroot : isqrt (262144 * (ci * ci + cq * cq).toNat) ≤ 2 * m :=
    isqrt_le_of_lt (by omega)
  rw [magnitude_eq_halfRoot, halfRoot]
  omega

/-! ### Centred bytes -/

/-- A centred byte is at least `-ADC_MID` and at most `255 - ADC_MID` (40 R120, R127). -/
theorem centre_bounds (cfg : Config) (r : Byte) :
    -(cfg.adcMid : Int) ≤ centre cfg r ∧ centre cfg r ≤ 255 - cfg.adcMid := by
  have hr := r.isLt
  unfold centre
  omega

theorem abs_centre_le {cfg : Config} (h : cfg.adcMid ≤ 255) (r : Byte) : |centre cfg r| ≤ 255 := by
  obtain ⟨hlo, hhi⟩ := centre_bounds cfg r
  rw [abs_le]
  omega

/-- In the build of 00 R5 a centred byte is in `-127 .. 128` (40 R127). -/
theorem centre_build_bounds (r : Byte) : -127 ≤ centre .build r ∧ centre .build r ≤ 128 :=
  centre_bounds .build r

theorem abs_centre_build_le (r : Byte) : |centre .build r| ≤ 128 := by
  obtain ⟨hlo, hhi⟩ := centre_build_bounds r
  rw [abs_le]
  omega

/-! ### The ranges of the demod value -/

theorem abs_mul_le_sq {x y b : Int} (hx : |x| ≤ b) (hy : |y| ≤ b) : |x * y| ≤ b * b :=
  abs_mul x y ▸ mul_le_mul hx hy (abs_nonneg y) ((abs_nonneg x).trans hx)

theorem energy_le {x y b : Int} (hx : |x| ≤ b) (hy : |y| ≤ b) : x * x + y * y ≤ 2 * (b * b) := by
  have hxx := le_of_abs_le (abs_mul_le_sq hx hx)
  have hyy := le_of_abs_le (abs_mul_le_sq hy hy)
  omega

/-- The discriminator is within the spread of its two products (40 R122). -/
theorem abs_discriminator_le {lo hi pi pq ci cq : Int} (hfirst : lo ≤ pi * cq ∧ pi * cq ≤ hi)
    (hsecond : lo ≤ pq * ci ∧ pq * ci ≤ hi) : |discriminator pi pq ci cq| ≤ hi - lo := by
  rw [discriminator, abs_le]
  omega

/-- The energy of centred samples of the build of 00 R5 (40 R127). -/
theorem energy_build_le (i q : Byte) : centre .build i * centre .build i
    + centre .build q * centre .build q ≤ 32768 :=
  energy_le (abs_centre_build_le i) (abs_centre_build_le q)

theorem magnitude_build_le (i q : Byte) :
    magnitude (centre .build i) (centre .build q) ≤ 46341 :=
  magnitude_le (e := 32768) (energy_build_le i q) (by norm_num)

/-- The factors of opposite signs reach 127 times 128, those of one sign 128 squared. -/
theorem centre_build_mul_bounds (r r' : Byte) : -16256 ≤ centre .build r * centre .build r' ∧
    centre .build r * centre .build r' ≤ 16384 := by
  obtain ⟨hlo, hhi⟩ := centre_build_bounds r
  obtain ⟨hlo', hhi'⟩ := centre_build_bounds r'
  constructor <;> nlinarith only [hlo, hhi, hlo', hhi']

/-- The samples of a demod value, the previous and the current, are centred bytes of some build. -/
structure SamplesInRange (pi pq ci cq : Int) : Prop where
  pi : |pi| ≤ 255
  pq : |pq| ≤ 255
  ci : |ci| ≤ 255
  cq : |cq| ≤ 255

theorem SamplesInRange.magnitude_le {pi pq ci cq : Int} (h : SamplesInRange pi pq ci cq) :
    magnitude ci cq ≤ 92320 :=
  Machine.magnitude_le (e := 130050) (energy_le h.ci h.cq) (by norm_num)

theorem SamplesInRange.abs_discriminator_le {pi pq ci cq : Int}
    (h : SamplesInRange pi pq ci cq) : |discriminator pi pq ci cq| ≤ 130050 :=
  Machine.abs_discriminator_le (abs_le.mp (abs_mul_le_sq h.pi h.cq))
    (abs_le.mp (abs_mul_le_sq h.pq h.ci))

theorem toInt_ofInt_of_fits {v : Int} (hlo : -(2 ^ 31) ≤ v) (hhi : v ≤ 2 ^ 31 - 1) :
    (BitVec.ofInt 32 v).toInt = v := by
  rw [← sat32_of_fits hlo hhi, toInt_ofInt_sat32]

/-- A demod value is a 32-bit value in every mode (40 R127). -/
theorem SamplesInRange.toInt_ofInt_demodValue {pi pq ci cq : Int}
    (h : SamplesInRange pi pq ci cq) (mode : DemodMode) :
    (BitVec.ofInt 32 (demodValue mode pi pq ci cq)).toInt = demodValue mode pi pq ci cq := by
  cases mode with
  | mag =>
    have hnonneg := magnitude_nonneg ci cq
    have hle := h.magnitude_le
    exact toInt_ofInt_of_fits (v := magnitude ci cq) (by omega) (by omega)
  | fm =>
    obtain ⟨hlo, hhi⟩ := abs_le.mp h.abs_discriminator_le
    exact toInt_ofInt_of_fits (v := discriminator pi pq ci cq) (by omega) (by omega)

/-- Settles O20: `halfRoot` of an even number is the nearest integer (`abs_magnitude_sub_lt`), and the
energy of centred bytes bounds it. -/
theorem magnitudeIsNearest : Obligations.MagnitudeIsNearest :=
  ⟨fun ci cq => ⟨magnitude_eq_magnitudeOf ci cq, magnitude_nonneg ci cq, abs_magnitude_sub_lt ci cq⟩,
    fun i q => ⟨magnitude_nonneg _ _, magnitude_build_le i q⟩⟩

/-- Settles O21: centred bytes of any build are `SamplesInRange`; those of the build of 00 R5 have the
closer bounds of `centre_build_bounds`. -/
theorem demodRanges : Obligations.DemodRanges := by
  constructor
  · intro cfg i q ip qp hmid
    have hbytes := abs_centre_le hmid
    have hrange : SamplesInRange (centre cfg ip) (centre cfg qp) (centre cfg i) (centre cfg q) :=
      ⟨hbytes ip, hbytes qp, hbytes i, hbytes q⟩
    exact ⟨hbytes i, hbytes q, energy_le (hbytes i) (hbytes q), magnitude_nonneg _ _,
      hrange.magnitude_le, hrange.abs_discriminator_le, hrange.toInt_ofInt_demodValue⟩
  · intro i q ip qp
    exact ⟨abs_centre_build_le i, abs_centre_build_le q, energy_build_le i q, magnitude_build_le i q,
      abs_discriminator_le (centre_build_mul_bounds ip q) (centre_build_mul_bounds qp i)⟩

/-! ### The commands -/

/-- Settles O22: the two bytes of the index are `I` below and `Q` above (40 R126). -/
theorem magTableAgrees : Obligations.MagTableAgrees := by
  intro i q
  have hlow : (q ++ i).extractLsb' 0 8 = i := BitVec.extractLsb'_append_eq_right
  have hhigh : (q ++ i).extractLsb' 8 8 = q := BitVec.extractLsb'_append_eq_left
  rw [magTable, hlow, hhigh]
  exact magnitude_eq_magnitudeOf _ _

/-- Settles O18: the count is modulo 2^32 because a counter is 32 bits. -/
theorem sampleLossCounts : Obligations.SampleLossCounts := by
  intro n s
  have hadd : BitVec.ofNat 32 (s.cnt.overrun.toNat + n.toNat) = s.cnt.overrun + n :=
    BitVec.eq_of_toNat_eq (BitVec.toNat_add _ _).symm
  have hzero : s.cnt.add 0 .overrun = s.cnt := by
    rw [Counters.add, add_zero]
  constructor
  · rw [hadd]
    rfl
  · exact congrArg (fun k => Host.Outcome.next (s.setCnt k)) hzero

/-- The RESULT of DEMOD_QUERY by numbers: the value's 32-bit two's complement (30 R102). -/
theorem resultDemod_word (y : Int) :
    (resultDemod y).word = eventWord 0x30 (y % 2 ^ 32).toNat := by
  have hpayload : (resultDemod y).payload.toNat = (y % 2 ^ 32).toNat :=
    (toNat_zero_append (BitVec.ofInt 32 y)).trans (BitVec.toNat_ofInt y)
  rw [Event.word_eq_eventWord, hpayload]
  rfl

/-- Settles O19: the demod value of each mode, in the RESULT's numbers. -/
theorem demodQueryResult : Obligations.DemodQueryResult := by
  intro i q ip qp mode s
  have hexec : exec (.demodQuery i q ip qp mode) s = .next (s.emit (resultDemod
      (demodValue mode (centre .build ip) (centre .build qp) (centre .build i) (centre .build q)))) :=
    rfl
  rw [hexec, State.emit, resultDemod_word]
  cases mode with
  | mag =>
    rw [demodValue, magnitude_eq_magnitudeOf]
    rfl
  | fm => rfl

/-- SAMPLE keeps and counts the sample, then gives MAG_IN its value, which MAG_IN's field holds whole
(40 R123, R127). -/
theorem exec_sample_eq_magIn (i q : Byte) {s : State} (h : SampleCentred .build s.demod) :
    exec (.sample i q) s =
      exec (.magIn (BitVec.ofInt 32 (sampleValue .build i q s))) (keepSample .build i q s) := by
  have hrange : SamplesInRange s.demod.pi s.demod.pq (centre .build i) (centre .build q) := by
    have hmid : Config.build.adcMid ≤ 255 := by decide
    obtain ⟨hpilo, hpihi, hpqlo, hpqhi⟩ := h
    exact ⟨abs_le.mpr ⟨by omega, by omega⟩, abs_le.mpr ⟨by omega, by omega⟩,
      abs_centre_le hmid i, abs_centre_le hmid q⟩
  have hvalue : signed32 (BitVec.ofInt 32 (sampleValue .build i q s)) = sampleValue .build i q s :=
    hrange.toInt_ofInt_demodValue s.csr.demodMode
  calc exec (.sample i q) s
      = answer (syncStep .build (sampleValue .build i q s) (keepSample .build i q s)) := rfl
    _ = exec (.magIn (BitVec.ofInt 32 (sampleValue .build i q s))) (keepSample .build i q s) :=
      congrArg (fun y => answer (syncStep .build y (keepSample .build i q s))) hvalue.symm

/-- Settles O23: `exec_sample_eq_magIn`, with the value of each mode by numbers. -/
theorem sampleFeedsSynchronizer : Obligations.SampleFeedsSynchronizer := by
  intro i q s hcentred hsafe
  refine ⟨?_, exec_safe (.sample i q) hsafe⟩
  rw [exec_sample_eq_magIn i q hcentred, sampleValue]
  cases s.csr.demodMode with
  | mag =>
    rw [demodValue, magnitude_eq_magnitudeOf]
    rfl
  | fm => rfl

end Sys2Proof.Machine
end

section
/-! PROOFS. What the data path commands leave unchanged (40 R123, 41 R145, 42 R167, R168, R175, 44 R212
to R230). -/

namespace Sys2Proof.Machine

/-! ### The counters a command may change -/

/-- Only these counters may have changed. -/
def CountsOnly (cs : List Counter) (s t : State) : Prop :=
  ∀ c ∉ cs, t.cnt.get c = s.cnt.get c

theorem CountsOnly.quiet {cs : List Counter} {s t : State} (h : t.cnt = s.cnt) :
    CountsOnly cs s t :=
  fun _ _ => by rw [h]

theorem CountsOnly.trans {cs : List Counter} {s t u : State} (h : CountsOnly cs s t)
    (k : CountsOnly cs t u) : CountsOnly cs s u :=
  fun c hc => (k c hc).trans (h c hc)

theorem CountsOnly.mono {cs ds : List Counter} {s t : State} (h : CountsOnly cs s t)
    (hsub : cs ⊆ ds) : CountsOnly ds s t :=
  fun c hc => h c fun hmem => hc (hsub hmem)

/-- The counts matter, not the rest of the states. -/
theorem CountsOnly.of_cnt {cs : List Counter} {s s' t : State} (h : CountsOnly cs s' t)
    (hcnt : s'.cnt = s.cnt) : CountsOnly cs s t := by
  rw [CountsOnly, ← hcnt]
  exact h

theorem CountsOnly.of_add {cs : List Counter} {s t : State} {n : Word} {c : Counter}
    (h : t.cnt = s.cnt.add n c) (hc : c ∈ cs) : CountsOnly cs s t :=
  fun d hd => by rw [h, Counters.get_add_other _ _ (by rintro rfl; exact hd hc)]

/-- What a message handed out counts (44 R224). -/
def messageCounters : List Counter :=
  [.msg, .trunc]

/-- What a codeword counts (42 R168). -/
def wordCounters : List Counter :=
  messageCounters ++ [.cwClean, .cwFixed, .cwUncorr]

/-- What a bit counts (42 R161, R164, R167, R170). -/
def frameCounters : List Counter :=
  wordCounters ++ [.bits, .syncAcq, .syncLost, .batch]

theorem finalized_countsOnly (s : State) : CountsOnly messageCounters s (finalized s) := by
  have hmsg : CountsOnly messageCounters s (s.inc .msg 1) :=
    .of_add (c := .msg) rfl (by decide)
  have hcnt := finalized_cnt s
  split at hcnt
  · exact hmsg.trans (.of_add hcnt (by decide))
  · exact hmsg.trans (.quiet hcnt)

theorem finalizeIfOpen_countsOnly {cfg : Config} {s t : State} (h : finalizeIfOpen cfg s = .ok t) :
    CountsOnly messageCounters s t := by
  rcases finalizeIfOpen_ok.mp h with ⟨-, -, rfl⟩ | ⟨-, rfl⟩
  · exact finalized_countsOnly s
  · exact .quiet rfl

theorem accum_countsOnly {cfg : Config} {b : Bool} {s t : State} (h : accum cfg b s = .ok t) :
    CountsOnly messageCounters s t := by
  rcases accum_ok.mp h with ⟨-, h⟩ | ⟨-, rfl⟩
  · rcases appendUnit_ok.mp h with ⟨-, -, rfl⟩ | ⟨-, -, rfl⟩
    · exact (finalized_countsOnly (s.setMsg (truncatedMsg s.msg))).of_cnt rfl
    · exact .quiet rfl
  · exact .quiet rfl

theorem accumBits_countsOnly {cfg : Config} : ∀ {bs : List Bool} {s t : State},
    accumBits cfg bs s = .ok t → CountsOnly messageCounters s t
  | [], s, t, h => by
    obtain rfl := Except.ok.inj h
    exact .quiet rfl
  | b :: bs, s, t, h => by
    obtain ⟨u, hu, ⟨-, h⟩ | ⟨-, rfl⟩⟩ := accumBits_cons.mp h
    · exact (accum_countsOnly hu).trans (accumBits_countsOnly h)
    · exact accum_countsOnly hu

theorem parse_countsOnly {cfg : Config} {c : Word} {slot : BitVec 4} {s t : State}
    (h : parse cfg c slot s = .ok t) : CountsOnly messageCounters s t := by
  rcases parse_ok h with ⟨-, h⟩ | ⟨-, rfl⟩ | ⟨-, -, rfl⟩ | ⟨-, -, h⟩ | ⟨-, -, -, h⟩
  · exact finalizeIfOpen_countsOnly h
  · exact .quiet rfl
  · exact .quiet rfl
  · exact accumBits_countsOnly h
  · obtain ⟨u, hu, rfl⟩ := parseAddress_ok.mp h
    exact (finalizeIfOpen_countsOnly hu).trans (.quiet rfl)

theorem loseSync_countsOnly {cfg : Config} {reason : LossReason} {s t : State}
    (h : loseSync cfg reason s = .ok t) : CountsOnly frameCounters s t := by
  obtain ⟨u, hu, rfl⟩ := loseSync_ok.mp h
  exact ((finalizeIfOpen_countsOnly hu).mono (by decide)).trans
    (.of_add (c := .syncLost) rfl (by decide))

theorem windowFailure_countsOnly {cfg : Config} {s t : State} (h : windowFailure cfg s = .ok t) :
    CountsOnly frameCounters s t := by
  rcases windowFailure_ok.mp h with ⟨-, h⟩ | ⟨-, rfl⟩
  · exact (loseSync_countsOnly h).of_cnt rfl
  · exact .quiet rfl

theorem markUncorrectable_countsOnly (s : State) :
    CountsOnly wordCounters s (markUncorrectable s) :=
  .of_add (markUncorrectable_cnt s) (by decide)

theorem countCorrected_countsOnly (flips : BitVec 2) (f : Bool) (s : State) :
    CountsOnly wordCounters s (countCorrected flips f s) := by
  refine .of_add (countCorrected_cnt flips f s) ?_
  unfold correctedCounter
  split <;> decide

/-- A word corrected and parsed counts itself and at most a message. -/
theorem parse_countCorrected_countsOnly {cfg : Config} {c : Word} {slot : BitVec 4}
    {flips : BitVec 2} {f : Bool} {s t : State}
    (h : parse cfg c slot (countCorrected flips f s) = .ok t) : CountsOnly wordCounters s t :=
  (countCorrected_countsOnly flips f s).trans ((parse_countsOnly h).mono (by decide))

/-- CW_IN's word counts nothing of the frame acquirer's (44 R230). -/
theorem dataWord_countsOnly_words {cfg : Config} {w : Word} {slot : BitVec 4} {s t : State}
    (h : dataWord cfg w slot false s = .ok t) : CountsOnly wordCounters s t := by
  rcases dataWord_ok.mp h with ⟨-, h⟩ | ⟨-, hf, -⟩ | ⟨-, -, rfl⟩
  · exact parse_countCorrected_countsOnly h
  · cases hf
  · exact markUncorrectable_countsOnly s

theorem dataWord_countsOnly {cfg : Config} {w : Word} {slot : BitVec 4} {f : Bool} {s t : State}
    (h : dataWord cfg w slot f s = .ok t) : CountsOnly frameCounters s t := by
  have hsub : wordCounters ⊆ frameCounters := by decide
  rcases dataWord_ok.mp h with ⟨-, h⟩ | ⟨-, -, h⟩ | ⟨-, -, rfl⟩
  · exact (parse_countCorrected_countsOnly h).mono hsub
  · exact ((markUncorrectable_countsOnly s).mono hsub).trans (windowFailure_countsOnly h)
  · exact (markUncorrectable_countsOnly s).mono hsub

theorem missSync_countsOnly {cfg : Config} {s t : State} (h : missSync cfg s = .ok t) :
    CountsOnly frameCounters s t := by
  rcases missSync_ok.mp h with ⟨-, h⟩ | ⟨-, rfl⟩
  · exact (loseSync_countsOnly h).of_cnt rfl
  · exact .quiet rfl

theorem synchedWord_countsOnly {cfg : Config} {w : Word} {s t : State}
    (h : synchedWord cfg w s = .ok t) : CountsOnly frameCounters s t := by
  rcases synchedWord_ok h with ⟨-, -, -, rfl⟩ | ⟨-, -, h⟩ | ⟨-, h⟩
  · exact .of_add (c := .batch) rfl (by decide)
  · exact missSync_countsOnly h
  · exact (dataWord_countsOnly h).of_cnt rfl

theorem stepPreambleStart_cnt (s : State) : (stepPreambleStart s).cnt = s.cnt := by
  unfold stepPreambleStart
  split <;> rfl

theorem stepPreambleEnd_cnt (brk : Bool) (altPrev : BitVec 16) (s : State) :
    (stepPreambleEnd brk altPrev s).cnt = s.cnt := by
  unfold stepPreambleEnd
  split <;> rfl

theorem stepSearchSync_countsOnly (s : State) :
    CountsOnly frameCounters s (stepSearchSync s) := by
  unfold stepSearchSync
  split
  · exact .of_add (c := .syncAcq) rfl (by decide)
  · exact .quiet rfl

theorem fsmBit_countsOnly {cfg : Config} {b : Bool} {s t : State} (h : fsmBit cfg b s = .ok t) :
    CountsOnly frameCounters s t := by
  have hrec : CountsOnly frameCounters s (recordBit b s) := .of_add (c := .bits) rfl (by decide)
  rcases fsmBit_ok h with ⟨-, rfl⟩ | ⟨-, rfl⟩ | ⟨-, rfl⟩ | ⟨-, -, h⟩ | ⟨-, -, rfl⟩
  · exact hrec.trans (.quiet (stepPreambleStart_cnt _))
  · exact hrec.trans (.quiet (stepPreambleEnd_cnt _ _ _))
  · exact hrec.trans (stepSearchSync_countsOnly _)
  · exact hrec.trans ((synchedWord_countsOnly h).of_cnt rfl)
  · exact hrec

theorem syncStep_countsOnly {cfg : Config} {y : Int} {s t : State} (h : syncStep cfg y s = .ok t) :
    CountsOnly frameCounters s t := by
  rcases syncStep_ok.mp h with ⟨-, h⟩ | ⟨-, rfl⟩
  · exact (fsmBit_countsOnly h).of_cnt (by rw [traceBit_cnt]; rfl)
  · exact .quiet rfl

/-! ### The bytes a command may store -/

/-- The second buffer is the first but for `n` bytes from index `nc` up, below `cap` (44 R219, R220,
R223). -/
def StoredWithin (nc n cap : Nat) (m m' : Memory) : Prop :=
  ∀ k, k < nc ∨ nc + n ≤ k ∨ cap ≤ k → m'.read k = m.read k

theorem StoredWithin.refl (nc n cap : Nat) (m : Memory) : StoredWithin nc n cap m m :=
  fun _ _ => rfl

/-- One byte stored at `nc`, then others above it. -/
theorem StoredWithin.of_write {nc n cap : Nat} {b : Byte} {m m' : Memory} (hnc : nc < cap)
    (h : StoredWithin (nc + 1) n cap (m.write nc b) m') : StoredWithin nc (n + 1) cap m m' := by
  intro k hk
  rw [h k (by omega), Memory.read_write_other _ _ (by omega)]

theorem finalizeIfOpen_buf {cfg : Config} {s t : State} (h : finalizeIfOpen cfg s = .ok t) :
    t.buf = s.buf := by
  rcases finalizeIfOpen_ok.mp h with ⟨-, -, rfl⟩ | ⟨-, rfl⟩
  · exact finalized_buf s
  · rfl

/-- Bits store at most the units they complete, and none at capacity (44 R219, R223). -/
theorem accumBits_storedWithin {cfg : Config} : ∀ {bs : List Bool} {s t : State},
    accumBits cfg bs s = .ok t →
      StoredWithin s.msg.nc (unitsWith s.msg bs) s.csr.cap.toNat s.buf t.buf
  | [], s, t, h => by
    obtain rfl := Except.ok.inj h
    exact .refl _ _ _ _
  | b :: bs, s, t, h => by
    obtain ⟨u, hu, hrest⟩ := accumBits_cons.mp h
    rcases accum_ok.mp hu with ⟨hw, hunit⟩ | ⟨-, rfl⟩
    · rcases appendUnit_ok.mp hunit with ⟨-, -, rfl⟩ | ⟨hcap, -, rfl⟩
      · rcases hrest with ⟨hopen, -⟩ | ⟨-, rfl⟩
        · rw [finalized_msg] at hopen
          exact absurd hopen (by decide)
        · rw [finalized_buf]
          exact .refl _ _ _ _
      · rw [unitsWith_cons_of_complete hw]
        rcases hrest with ⟨-, hrest⟩ | ⟨-, rfl⟩
        · exact .of_write hcap (accumBits_storedWithin hrest)
        · exact .of_write hcap (.refl _ _ _ _)
    · rcases hrest with ⟨-, hrest⟩ | ⟨-, rfl⟩
      · rw [← unitsWith_withBit]
        exact accumBits_storedWithin hrest
      · exact .refl _ _ _ _

/-- A message was open, and only the units a message word completes were stored (44 R216, R217). -/
def MessageStored (s t : State) : Prop :=
  s.msg.isOpen = true ∧
    StoredWithin s.msg.nc (unitsCompleted s.msg) s.csr.cap.toNat s.buf t.buf

/-- The word `w` was correctable to a message word, and only its units were stored (42 R168). -/
def WordStored (w : Word) (s t : State) : Prop :=
  (correct w).ok = true ∧ (correct w).word.getLsbD 31 = true ∧ MessageStored s t

/-- Only a message word that meets an open message stores bytes (44 R211). -/
theorem parse_buf {cfg : Config} {c : Word} {slot : BitVec 4} {s t : State}
    (h : parse cfg c slot s = .ok t) :
    t.buf = s.buf ∨ (c.getLsbD 31 = true ∧ MessageStored s t) := by
  rcases parse_ok h with ⟨-, h⟩ | ⟨-, rfl⟩ | ⟨-, -, rfl⟩ | ⟨hc, hopen, h⟩ | ⟨-, -, -, h⟩
  · exact .inl (finalizeIfOpen_buf h)
  · exact .inl rfl
  · exact .inl rfl
  · refine .inr ⟨hc, hopen, ?_⟩
    rw [← unitsWith_payloadBits s.msg c]
    exact accumBits_storedWithin h
  · obtain ⟨u, hu, rfl⟩ := parseAddress_ok.mp h
    exact .inl ((finalizeIfOpen_buf hu).trans rfl)

theorem loseSync_buf {cfg : Config} {reason : LossReason} {s t : State}
    (h : loseSync cfg reason s = .ok t) : t.buf = s.buf := by
  obtain ⟨u, hu, rfl⟩ := loseSync_ok.mp h
  exact (finalizeIfOpen_buf hu).trans rfl

theorem windowFailure_buf {cfg : Config} {s t : State} (h : windowFailure cfg s = .ok t) :
    t.buf = s.buf := by
  rcases windowFailure_ok.mp h with ⟨-, h⟩ | ⟨-, rfl⟩
  · exact (loseSync_buf h).trans rfl
  · rfl

theorem missSync_buf {cfg : Config} {s t : State} (h : missSync cfg s = .ok t) :
    t.buf = s.buf := by
  rcases missSync_ok.mp h with ⟨-, h⟩ | ⟨-, rfl⟩
  · exact (loseSync_buf h).trans rfl
  · rfl

theorem dataWord_buf {cfg : Config} {w : Word} {slot : BitVec 4} {f : Bool} {s t : State}
    (h : dataWord cfg w slot f s = .ok t) : t.buf = s.buf ∨ WordStored w s t := by
  rcases dataWord_ok.mp h with ⟨hok, h⟩ | ⟨-, -, h⟩ | ⟨-, -, rfl⟩
  · have hparse := parse_buf h
    simp only [MessageStored, countCorrected_buf, countCorrected_msg, countCorrected_csr] at hparse
    exact hparse.imp_right fun hstored => ⟨hok, hstored⟩
  · exact .inl ((windowFailure_buf h).trans (markUncorrectable_buf s))
  · exact .inl (markUncorrectable_buf s)

/-- Only a data word stores bytes: none at the expected sync position (42 R166, R167). -/
theorem synchedWord_buf {cfg : Config} {w : Word} {s t : State} (h : synchedWord cfg w s = .ok t) :
    t.buf = s.buf ∨ (s.fsm.cwIndex ≠ 16 ∧ WordStored w s t) := by
  rcases synchedWord_ok h with ⟨-, -, -, rfl⟩ | ⟨-, -, h⟩ | ⟨hindex, h⟩
  · exact .inl rfl
  · exact .inl (missSync_buf h)
  · exact (dataWord_buf h).imp_right fun hstored => ⟨hindex, hstored⟩

theorem stepPreambleStart_buf (s : State) : (stepPreambleStart s).buf = s.buf := by
  unfold stepPreambleStart
  split <;> rfl

theorem stepPreambleEnd_buf (brk : Bool) (altPrev : BitVec 16) (s : State) :
    (stepPreambleEnd brk altPrev s).buf = s.buf := by
  unfold stepPreambleEnd
  split <;> rfl

theorem stepSearchSync_buf (s : State) : (stepSearchSync s).buf = s.buf := by
  unfold stepSearchSync
  split <;> rfl

/-- The shift register with one more bit, by numbers (42 R161). -/
theorem pushBit_sr (f : Acquirer) (b : Bool) : (pushBit f b).sr = (historyAfter f b).sr := by
  have hbit : (BitVec.setWidth 32 (BitVec.ofBool b)).toNat = b.toNat := by cases b <;> rfl
  have hb : b.toNat < 2 ^ 1 := b.toNat_lt
  have hshift : f.sr.toNat <<< 1 % 2 ^ 32 = (f.sr.toNat % 2 ^ 31) <<< 1 := by
    rw [Nat.shiftLeft_eq, Nat.shiftLeft_eq]
    omega
  apply BitVec.eq_of_toNat_eq
  rw [pushBit, historyAfter, BitVec.toNat_or, BitVec.toNat_shiftLeft, hbit, hshift,
    ← Nat.shiftLeft_add_eq_or_of_lt hb, Nat.shiftLeft_eq, BitVec.toNat_ofNat]
  omega

/-- The next bit is the last one of a word in SYNCHED (42 R165). -/
def EndsWord (f : Acquirer) : Prop :=
  f.state = .synched ∧ f.bitcnt = 31

/-- A bit stores bytes only when it ends a data word, which is the shift register with that bit (42
R165, R166). -/
theorem fsmBit_buf {cfg : Config} {b : Bool} {s t : State} (h : fsmBit cfg b s = .ok t) :
    t.buf = s.buf ∨
      (EndsWord s.fsm ∧ s.fsm.cwIndex ≠ 16 ∧ WordStored (historyAfter s.fsm b).sr s t) := by
  rcases fsmBit_ok h with ⟨-, rfl⟩ | ⟨-, rfl⟩ | ⟨-, rfl⟩ | ⟨hstate, hbitcnt, h⟩ | ⟨-, -, rfl⟩
  · exact .inl (stepPreambleStart_buf _)
  · exact .inl (stepPreambleEnd_buf _ _ _)
  · exact .inl (stepSearchSync_buf _)
  · rw [pushBit_sr] at h
    exact (synchedWord_buf h).imp_right fun ⟨hindex, hstored⟩ => ⟨⟨hstate, hbitcnt⟩, hindex, hstored⟩
  · exact .inl rfl

theorem syncStep_buf {cfg : Config} {y : Int} {s t : State} (h : syncStep cfg y s = .ok t) :
    t.buf = s.buf ∨ (EndsWord s.fsm ∧ ∃ w, WordStored w s t) := by
  rcases syncStep_ok.mp h with ⟨-, h⟩ | ⟨-, rfl⟩
  · have hbit := fsmBit_buf h
    simp only [WordStored, MessageStored, traceBit_buf, traceBit_fsm, traceBit_msg, traceBit_csr]
      at hbit
    exact hbit.imp_right fun ⟨hend, _, hstored⟩ => ⟨hend, _, hstored⟩
  · exact .inl rfl

/-! ### The four commands -/

/-- The commands that carry samples, values, bits and codewords. -/
def IsDataPath (i : Instr) : Prop :=
  (∃ a b, i = .sample a b) ∨ (∃ y, i = .magIn y) ∨ (∃ b, i = .bitIn b) ∨ ∃ w slot, i = .cwIn w slot

/-- A command of the data path keeps the whole buffer or stores the units of one word: the word of
CW_IN, or the word that a bit ends. -/
theorem exec_buf_of_dataPath {i : Instr} {s t : State} (hi : IsDataPath i)
    (h : exec i s = .next t) : t.buf = s.buf ∨ ∃ w, WordStored w s t ∧
      ((∀ v slot, i ≠ .cwIn v slot) → EndsWord s.fsm) ∧
      (∀ b, i = .bitIn b → s.fsm.cwIndex ≠ 16 ∧ w = (historyAfter s.fsm b).sr) ∧
      ∀ v slot, i = .cwIn v slot → w = v := by
  rcases hi with ⟨a, b, rfl⟩ | ⟨y, rfl⟩ | ⟨b, rfl⟩ | ⟨w, slot, rfl⟩
  · refine (syncStep_buf (s := keepSample .build a b s) (answer_eq_next.mp h)).imp_right ?_
    exact fun ⟨hend, w, hw⟩ => ⟨w, hw, fun _ => hend, nofun, nofun⟩
  · refine (syncStep_buf (answer_eq_next.mp h)).imp_right ?_
    exact fun ⟨hend, w, hw⟩ => ⟨w, hw, fun _ => hend, nofun, nofun⟩
  · refine (fsmBit_buf (answer_eq_next.mp h)).imp_right fun ⟨hend, hindex, hw⟩ =>
      ⟨_, hw, fun _ => hend, ?_, nofun⟩
    rintro _ ⟨⟩
    exact ⟨hindex, rfl⟩
  · refine (dataWord_buf (answer_eq_next.mp h)).imp_right fun hw =>
      ⟨w, hw, fun hne => absurd rfl (hne w slot), nofun, ?_⟩
    rintro _ _ ⟨⟩
    rfl

/-- A command of the data path counts what a bit counts, and SAMPLE the sample (40 R123). -/
theorem exec_countsOnly_of_dataPath {i : Instr} {s t : State} (hi : IsDataPath i)
    (h : exec i s = .next t) : CountsOnly (.samples :: frameCounters) s t ∧
      ((∀ a b, i ≠ .sample a b) → CountsOnly frameCounters s t) ∧
      ((∃ w slot, i = .cwIn w slot) → CountsOnly wordCounters s t) := by
  have hsub : frameCounters ⊆ .samples :: frameCounters := List.subset_cons_self _ _
  rcases hi with ⟨a, b, rfl⟩ | ⟨y, rfl⟩ | ⟨b, rfl⟩ | ⟨w, slot, rfl⟩
  · have hkeep : CountsOnly (.samples :: frameCounters) s (keepSample .build a b s) :=
      .of_add (c := .samples) rfl (by decide)
    exact ⟨hkeep.trans ((syncStep_countsOnly (answer_eq_next.mp h)).mono hsub),
      fun hne => absurd rfl (hne a b), nofun⟩
  · have hstep := syncStep_countsOnly (answer_eq_next.mp h)
    exact ⟨hstep.mono hsub, fun _ => hstep, nofun⟩
  · have hbit := fsmBit_countsOnly (answer_eq_next.mp h)
    exact ⟨hbit.mono hsub, fun _ => hbit, nofun⟩
  · have hword := dataWord_countsOnly_words (answer_eq_next.mp h)
    exact ⟨hword.mono (by decide), fun _ => hword.mono (by decide), fun _ => hword⟩

/-- Only SAMPLE keeps a sample, only SAMPLE and MAG_IN move the synchronizer, and CW_IN leaves the frame
acquirer alone (40 R123, 41 R145, 42 R175, 44 R230). -/
theorem exec_parts_of_dataPath {i : Instr} {s t : State} (hi : IsDataPath i)
    (h : exec i s = .next t) : ((∀ a b, i ≠ .sample a b) → t.demod = s.demod) ∧
      ((∀ a b, i ≠ .sample a b) → (∀ y, i ≠ .magIn y) → t.sync = s.sync) ∧
      ((∃ w slot, i = .cwIn w slot) → t.fsm = s.fsm) := by
  rcases hi with ⟨a, b, rfl⟩ | ⟨y, rfl⟩ | ⟨b, rfl⟩ | ⟨w, slot, rfl⟩
  · exact ⟨fun hne => absurd rfl (hne a b), fun hne => absurd rfl (hne a b), nofun⟩
  · obtain ⟨-, hdemod, -⟩ := syncStep_keeps (answer_eq_next.mp h)
    exact ⟨fun _ => hdemod, fun _ hne => absurd rfl (hne y), nofun⟩
  · obtain ⟨-, hdemod, hsync, -⟩ := fsmBit_keeps (answer_eq_next.mp h)
    exact ⟨fun _ => hdemod, fun _ _ => hsync, nofun⟩
  · obtain ⟨-, hdemod, hsync, -⟩ := dataWord_keeps (answer_eq_next.mp h)
    exact ⟨fun _ => hdemod, fun _ _ => hsync, fun _ => dataWord_fsm (answer_eq_next.mp h)⟩

theorem IsDataPath.ne_csrWrite {i : Instr} (hi : IsDataPath i) (a : Byte) (v : Word) :
    i ≠ .csrWrite a v := by
  rintro rfl
  rcases hi with ⟨_, _, ⟨⟩⟩ | ⟨_, ⟨⟩⟩ | ⟨_, ⟨⟩⟩ | ⟨_, _, ⟨⟩⟩

/-- Settles O17: the parts and counters by command, and the clauses on the buffer from
`exec_buf_of_dataPath`, each naming a reason why no word was stored. -/
theorem dataPathFrame : Obligations.DataPathFrame := by
  intro i s t hi h
  obtain ⟨hcsr, hinputs⟩ := exec_keeps (IsDataPath.ne_csrWrite hi) h
  obtain ⟨hdemod, hsync, hfsm⟩ := exec_parts_of_dataPath hi h
  obtain ⟨hcounts, hcountsNoSample, hcountsWord⟩ := exec_countsOnly_of_dataPath hi h
  have hbuf := exec_buf_of_dataPath hi h
  refine ⟨hcsr, hinputs, fun hne => ⟨hdemod hne, hcountsNoSample hne .samples (by decide)⟩, hsync,
    fun hcw => ⟨hfsm hcw, hcountsWord hcw .bits (by decide), hcountsWord hcw .syncAcq (by decide),
      hcountsWord hcw .syncLost (by decide), hcountsWord hcw .batch (by decide)⟩,
    hcounts .illegal (by decide), hcounts .overrun (by decide), ?_⟩
  rcases hbuf with hsame | ⟨w, ⟨hok, hmessage, hopen, hstored⟩, hend, hbit, hcw⟩
  · exact ⟨fun k _ => by rw [hsame], fun _ => hsame, fun _ _ => hsame, fun _ _ _ => hsame,
      fun _ _ _ _ => hsame⟩
  · refine ⟨hstored, fun hclosed => ?_, fun hne houtside => ?_, fun b hb hnone => ?_,
      fun v slot hv hnone => ?_⟩
    · exact absurd hopen (by rw [hclosed]; decide)
    · obtain ⟨hstate, hbitcnt⟩ := hend hne
      exact absurd houtside (by simp [hstate, hbitcnt])
    · obtain ⟨hindex, rfl⟩ := hbit b hb
      exact absurd hnone (by simp [hindex, hok, hmessage])
    · obtain rfl := hcw v slot hv
      exact absurd hnone (by simp [hok, hmessage])

end Sys2Proof.Machine
end

section
/-! PROOFS. The symbol synchronizer: the timing correction and one demod value (41 R140 to R145). -/

namespace Sys2Proof.Machine

/-! ### The timing correction -/

/-- A crossing that timing recovery acts on, by the rule's conditions (41 R142). -/
theorem zeroCrossing_iff (c : CsrFields) (x : SyncState) (v : Int) :
    zeroCrossing c x (sliceSign v) = true ↔
      c.trEn = true ∧ x.havePrevS = true ∧ decide (0 ≤ v) ≠ x.prevS := by
  simp only [zeroCrossing, sliceSign, Bool.and_eq_true, bne_iff_ne, and_assoc]

/-- The phase an input starts from, by the rule's numbers (41 R142). -/
theorem startPhase_eq_phaseBefore (c : CsrFields) (x : SyncState) (v : Int) :
    startPhase c x v = phaseBefore c x v :=
  if_congr (zeroCrossing_iff c x v) rfl rfl

theorem startPhase_of_crossing {c : CsrFields} {x : SyncState} {v : Int}
    (h : zeroCrossing c x (sliceSign v) = true) :
    startPhase c x v = correctedPhase c.sampleRate.toNat c.gainShift.toNat x.phase :=
  if_pos h

/-- Without `TR_EN`, on the first input, or at an unchanged sign nothing is corrected (41 R142). -/
theorem startPhase_of_noCrossing {c : CsrFields} {x : SyncState} {v : Int}
    (h : c.trEn = false ∨ x.havePrevS = false ∨ x.prevS = decide (0 ≤ v)) :
    startPhase c x v = x.phase := by
  refine if_neg fun hcross => ?_
  obtain ⟨htr, hprev, hsign⟩ := (zeroCrossing_iff c x v).mp hcross
  rcases h with h | h | h
  · exact absurd htr (by simp [h])
  · exact absurd hprev (by simp [h])
  · exact hsign h.symm

/-- The part of a phase error that is corrected lies between 0 and the whole error (41 R142). -/
theorem floorShr_bounds (e : Int) (g : Nat) :
    (0 ≤ e → 0 ≤ floorShr e g ∧ floorShr e g ≤ e) ∧
    (e < 0 → e ≤ floorShr e g ∧ floorShr e g < 0) := by
  have hpow : (1 : Int) ≤ 2 ^ g := one_le_pow₀ (by norm_num)
  refine ⟨fun he => ⟨Int.ediv_nonneg he (by omega), Int.ediv_le_self _ he⟩,
    fun he => ⟨?_, Int.ediv_neg_of_neg_of_pos he (by omega)⟩⟩
  exact Int.le_ediv_of_mul_le (by omega) (by nlinarith)

/-- Below the middle of the symbol the crossing came after the boundary: the phase moves down, at
most to 0 (41 R142). -/
theorem correctedPhase_of_late {rate phase : Nat} (g : Nat) (h : 2 * phase < rate) :
    correctedPhase rate g phase ≤ phase := by
  have hshift := (floorShr_bounds phase g).1 (by omega)
  rw [correctedPhase, phaseError, if_pos h, clamp]
  omega

/-- From the middle on the crossing came before the boundary: the phase moves up, at most to the end
of the symbol (41 R142). -/
theorem correctedPhase_of_early {rate phase : Nat} (g : Nat) (hin : phase < rate)
    (h : rate ≤ 2 * phase) :
    phase ≤ correctedPhase rate g phase ∧ correctedPhase rate g phase < rate := by
  have hshift := (floorShr_bounds ((phase : Int) - rate) g).2 (by omega)
  rw [correctedPhase, phaseError, if_neg (by omega), clamp]
  omega

/-- A correction moves the phase by at most half a symbol, towards the boundary the crossing was
nearest to (41 R142). -/
theorem correctedPhase_moves {rate phase : Nat} (g : Nat) (hin : phase < rate) :
    2 * |(correctedPhase rate g phase : Int) - phase| ≤ rate ∧
    (2 * phase < rate → correctedPhase rate g phase ≤ phase) ∧
    (rate ≤ 2 * phase → phase ≤ correctedPhase rate g phase) := by
  rcases Nat.lt_or_ge (2 * phase) rate with h | h
  · have hlate := correctedPhase_of_late g h
    refine ⟨?_, fun _ => hlate, fun _ => by omega⟩
    rw [abs_of_nonpos (by omega)]
    omega
  · obtain ⟨hlow, hhigh⟩ := correctedPhase_of_early g hin h
    refine ⟨?_, fun _ => by omega, fun _ => hlow⟩
    rw [abs_of_nonneg (by omega)]
    omega

/-- What the timing correction does to the phase, whether or not there is a crossing (41 R142). -/
theorem startPhase_moves {c : CsrFields} {x : SyncState} (v : Int)
    (hin : x.phase < c.sampleRate.toNat) :
    2 * |(startPhase c x v : Int) - x.phase| ≤ c.sampleRate.toNat ∧
    (2 * x.phase < c.sampleRate.toNat → startPhase c x v ≤ x.phase) ∧
    (c.sampleRate.toNat ≤ 2 * x.phase → x.phase ≤ startPhase c x v) := by
  by_cases hcross : zeroCrossing c x (sliceSign v) = true
  · rw [startPhase_of_crossing hcross]
    exact correctedPhase_moves _ hin
  · rw [startPhase, if_neg hcross, sub_self, abs_zero]
    exact ⟨by omega, fun _ => le_rfl, fun _ => le_rfl⟩

/-- Settles O26: the rule's numbers, the bounds of the movement (`startPhase_moves`), and no
movement without a correction. -/
theorem timingCorrection : Obligations.TimingCorrection := by
  intro c x v hin
  obtain ⟨hhalf, hdown, hup⟩ := startPhase_moves v hin
  exact ⟨startPhase_eq_phaseBefore c x v, startPhase_lt v hin, hhalf, hdown, hup,
    startPhase_of_noCrossing⟩

/-! ### One demod value -/

theorem advancedPhase_eq (c : CsrFields) (x : SyncState) (v : Int) :
    advancedPhase c x v = phaseBefore c x v + c.symbolRate.toNat := by
  rw [advancedPhase, startPhase_eq_phaseBefore]

/-- A value inside a symbol only moves the synchronizer (41 R143). -/
theorem syncStep_of_inside {cfg : Config} {y : Int} {s : State}
    (h : advancedPhase s.csr s.sync (sliceValue s.csr y) < s.csr.sampleRate.toNat) :
    syncStep cfg y s = .ok (s.setSync (integrateOnly s.csr s.sync (sliceValue s.csr y))) :=
  if_neg (not_le.mpr h)

/-- A value that ends a symbol hands the bit of its sum to the frame acquirer, traced first (41
R143, R144). -/
theorem syncStep_of_end {cfg : Config} {y : Int} {s : State}
    (h : s.csr.sampleRate.toNat ≤ advancedPhase s.csr s.sync (sliceValue s.csr y)) :
    syncStep cfg y s = fsmBit cfg
      (hardBit (accumulate s.sync.acc (sliceValue s.csr y)) s.csr.invert)
      (traceBit (accumulate s.sync.acc (sliceValue s.csr y))
        (hardBit (accumulate s.sync.acc (sliceValue s.csr y)) s.csr.invert)
        (s.setSync (endSymbol s.csr s.sync (sliceValue s.csr y)))) :=
  if_pos h

/-- Settles O24: the step of a value inside a symbol, with the phase and the sign by numbers. -/
theorem magInInsideSymbol : Obligations.MagInInsideSymbol := by
  intro y s hin
  rw [← advancedPhase_eq] at hin
  have hsign : decide (s.csr.threshold.toInt ≤ y.toInt) =
      sliceSign (y.toInt - s.csr.threshold.toInt) :=
    decide_eq_decide.mpr sub_nonneg.symm
  rw [← advancedPhase_eq, hsign]
  exact congrArg answer (syncStep_of_inside hin)

/-- The BIT event by numbers (30 R101, 41 R144). -/
theorem bit_word (soft : Word) (b : Bool) :
    (Event.bit soft b).word = eventWord 0x10 (soft.toNat * 2 ^ 8 + b.toNat) := by
  have hpayload : (Event.bit soft b).payload.toNat = soft.toNat * 2 ^ 8 + b.toNat := by
    simp only [Event.payload, toNat_append_eq, BitVec.toNat_ofNat, BitVec.toNat_ofBool]
    omega
  rw [Event.word_eq_eventWord, hpayload]
  rfl

/-- The trace of a symbol's bit by numbers: a saturated sum fits the event (41 R143, R144). -/
theorem traceBit_sat32 (v : Int) (b : Bool) (s : State) :
    traceBit (sat32 v) b s =
      { s with
        evts := s.evts ++
          if s.csr.bitTrace then [eventWord 0x10 ((sat32 v).natAbs * 2 ^ 8 + b.toNat)]
          else [] } := by
  obtain ⟨hlo, hhi⟩ := sat32_bounds v
  have hsoft : (BitVec.ofNat 32 (sat32 v).natAbs).toNat = (sat32 v).natAbs := by
    rw [BitVec.toNat_ofNat]
    omega
  unfold traceBit
  split
  · rw [State.emit, bit_word, hsoft]
    rfl
  · rw [List.append_nil]

/-- Settles O25: the step of a value that ends a symbol, with the phase and the trace by numbers; it
completes as every command does (`exec_safe`). -/
theorem magInEndsSymbol : Obligations.MagInEndsSymbol := by
  intro y s hsafe v p sum bit hend
  refine ⟨?_, exec_safe (.magIn y) hsafe⟩
  have hp : advancedPhase s.csr s.sync v = p := advancedPhase_eq _ _ _
  rw [← hp] at hend ⊢
  calc exec (.magIn y) s
      = answer (fsmBit .build bit (traceBit sum bit (s.setSync (endSymbol s.csr s.sync v)))) :=
        congrArg answer (syncStep_of_end hend)
    _ = _ := congrArg (fun u => answer (fsmBit .build bit u)) (traceBit_sat32 _ bit _)

end Sys2Proof.Machine
end

section
/-! PROOFS. The symbol clock does not drift (41 R142, R143, R146). -/

namespace Sys2Proof.Machine

/-! ### A bit is counted once -/

theorem CountsOnly.bits_eq {cs : List Counter} {s t : State} (h : CountsOnly cs s t)
    (hbits : .bits ∉ cs) : t.cnt.bits = s.cnt.bits :=
  h .bits hbits

theorem loseSync_bits {cfg : Config} {reason : LossReason} {s t : State}
    (h : loseSync cfg reason s = .ok t) : t.cnt.bits = s.cnt.bits := by
  obtain ⟨u, hu, rfl⟩ := loseSync_ok.mp h
  exact (finalizeIfOpen_countsOnly hu).bits_eq (by decide)

theorem windowFailure_bits {cfg : Config} {s t : State} (h : windowFailure cfg s = .ok t) :
    t.cnt.bits = s.cnt.bits := by
  rcases windowFailure_ok.mp h with ⟨-, h⟩ | ⟨-, rfl⟩
  · exact (loseSync_bits h).trans rfl
  · rfl

theorem dataWord_bits {cfg : Config} {w : Word} {slot : BitVec 4} {f : Bool} {s t : State}
    (h : dataWord cfg w slot f s = .ok t) : t.cnt.bits = s.cnt.bits := by
  have hmark := (markUncorrectable_countsOnly s).bits_eq (by decide)
  rcases dataWord_ok.mp h with ⟨-, h⟩ | ⟨-, -, h⟩ | ⟨-, -, rfl⟩
  · exact (parse_countCorrected_countsOnly h).bits_eq (by decide)
  · exact (windowFailure_bits h).trans hmark
  · exact hmark

theorem missSync_bits {cfg : Config} {s t : State} (h : missSync cfg s = .ok t) :
    t.cnt.bits = s.cnt.bits := by
  rcases missSync_ok.mp h with ⟨-, h⟩ | ⟨-, rfl⟩
  · exact (loseSync_bits h).trans rfl
  · rfl

theorem synchedWord_bits {cfg : Config} {w : Word} {s t : State} (h : synchedWord cfg w s = .ok t) :
    t.cnt.bits = s.cnt.bits := by
  rcases synchedWord_ok h with ⟨-, -, -, rfl⟩ | ⟨-, -, h⟩ | ⟨-, h⟩
  · rfl
  · exact missSync_bits h
  · exact (dataWord_bits h).trans rfl

theorem stepSearchSync_bits (s : State) : (stepSearchSync s).cnt.bits = s.cnt.bits := by
  unfold stepSearchSync
  split <;> rfl

/-- Whatever a bit completes, it is counted once (42 R161). -/
theorem fsmBit_bits {cfg : Config} {b : Bool} {s t : State} (h : fsmBit cfg b s = .ok t) :
    t.cnt.bits = s.cnt.bits + 1 := by
  have hrec : (recordBit b s).cnt.bits = s.cnt.bits + 1 := rfl
  rcases fsmBit_ok h with ⟨-, rfl⟩ | ⟨-, rfl⟩ | ⟨-, rfl⟩ | ⟨-, -, h⟩ | ⟨-, -, rfl⟩
  · rw [stepPreambleStart_cnt, hrec]
  · rw [stepPreambleEnd_cnt, hrec]
  · rw [stepSearchSync_bits, hrec]
  · exact (synchedWord_bits h).trans hrec
  · exact hrec

/-! ### One input -/

theorem advancedPhase_lt {c : CsrFields} {x : SyncState} (v : Int)
    (hrates : c.symbolRate.toNat ≤ c.sampleRate.toNat) (hin : PhaseInSymbol c x) :
    advancedPhase c x v < c.sampleRate.toNat + c.sampleRate.toNat :=
  Nat.add_lt_add_of_lt_of_le (startPhase_lt v hin) hrates

/-- An input leaves the remainder of its advanced phase, and the quotient enters the frame acquirer
as bits: 0 of them or 1 (41 R143). -/
theorem syncStep_counts {cfg : Config} {y : Int} {s t : State}
    (hrates : s.csr.symbolRate.toNat ≤ s.csr.sampleRate.toNat) (hin : PhaseInSymbol s.csr s.sync)
    (h : syncStep cfg y s = .ok t) :
    t.sync.phase = advancedPhase s.csr s.sync (sliceValue s.csr y) % s.csr.sampleRate.toNat ∧
    t.cnt.bits = s.cnt.bits + BitVec.ofNat 32
      (advancedPhase s.csr s.sync (sliceValue s.csr y) / s.csr.sampleRate.toNat) ∧
    t.sync.prevS = sliceSign (sliceValue s.csr y) := by
  have hlt := advancedPhase_lt (sliceValue s.csr y) hrates hin
  rcases syncStep_ok.mp h with ⟨hend, hbit⟩ | ⟨hinside, rfl⟩
  · obtain ⟨-, -, hsync, -⟩ := fsmBit_keeps hbit
    rw [hsync, fsmBit_bits hbit, traceBit_sync, traceBit_cnt, Nat.mod_eq_sub_mod hend,
      Nat.mod_eq_of_lt (by omega), Nat.div_eq_of_lt_le (k := 1) (by omega) (by omega)]
    exact ⟨rfl, rfl, rfl⟩
  · rw [Nat.mod_eq_of_lt hinside, Nat.div_eq_of_lt hinside]
    exact ⟨rfl, (BitVec.add_zero _).symm, rfl⟩

/-- What the clock needs of a state: a phase inside the symbol, rates in order, and a buffer no bit
can overrun (10 R51, 45 R255, 20 R70). -/
def ClockRuns (s : State) : Prop :=
  PhaseInSymbol s.csr s.sync ∧ s.csr.symbolRate.toNat ≤ s.csr.sampleRate.toNat ∧
    s.BufferSafe .build

/-- MAG_IN completes, and the clock runs on from the remainder (41 R143, R145). -/
theorem exec_magIn_clock (y : Word) {s : State} (h : ClockRuns s) :
    ∃ t, exec (.magIn y) s = .next t ∧ ClockRuns t ∧ t.csr = s.csr ∧
      t.sync.prevS = sliceSign (sliceValue s.csr (signed32 y)) ∧
      t.sync.phase =
        advancedPhase s.csr s.sync (sliceValue s.csr (signed32 y)) % s.csr.sampleRate.toNat ∧
      t.cnt.bits = s.cnt.bits + BitVec.ofNat 32
        (advancedPhase s.csr s.sync (sliceValue s.csr (signed32 y)) / s.csr.sampleRate.toNat) := by
  obtain ⟨hin, hrates, hnc, hcap⟩ := h
  obtain ⟨t, ht, hnc'⟩ := syncStep_total (signed32 y) hnc hcap
  obtain ⟨hcsr, -, -⟩ := syncStep_keeps ht
  obtain ⟨hphase, hbits, hprevS⟩ := syncStep_counts hrates hin ht
  refine ⟨t, answer_eq_next.mpr ht, ?_, hcsr, hprevS, hphase, hbits⟩
  have hlt : t.sync.phase < s.csr.sampleRate.toNat := hphase ▸ Nat.mod_lt _ (Nat.zero_lt_of_lt hin)
  rw [← hcsr] at hlt hrates hcap
  exact ⟨hlt, hrates, hnc', hcap⟩

/-! ### Many inputs -/

/-- None of the inputs meets a timing correction: recovery is off, or every sign is that of the
input before it (41 R142). -/
def FreeOfCrossings (s : State) (ys : List Word) : Prop :=
  s.csr.trEn = false ∨ ∃ b : Bool, (s.sync.havePrevS = true → s.sync.prevS = b) ∧
    ∀ y ∈ ys, decide (s.csr.threshold.toInt ≤ y.toInt) = b

theorem sliceSign_sliceValue (c : CsrFields) (y : Word) :
    sliceSign (sliceValue c (signed32 y)) = decide (c.threshold.toInt ≤ y.toInt) :=
  decide_eq_decide.mpr sub_nonneg

theorem FreeOfCrossings.advancedPhase_eq {s : State} {y : Word} {ys : List Word}
    (h : FreeOfCrossings s (y :: ys)) :
    advancedPhase s.csr s.sync (sliceValue s.csr (signed32 y)) =
      s.sync.phase + s.csr.symbolRate.toNat := by
  refine congrArg (· + s.csr.symbolRate.toNat) (startPhase_of_noCrossing ?_)
  rcases h with htr | ⟨b, hprev, hsigns⟩
  · exact .inl htr
  · have hsign := (sliceSign_sliceValue s.csr y).trans (hsigns y List.mem_cons_self)
    cases hhave : s.sync.havePrevS
    · exact .inr (.inl rfl)
    · exact .inr (.inr ((hprev hhave).trans hsign.symm))

theorem FreeOfCrossings.tail {s t : State} {y : Word} {ys : List Word}
    (h : FreeOfCrossings s (y :: ys)) (hcsr : t.csr = s.csr)
    (hprevS : t.sync.prevS = sliceSign (sliceValue s.csr (signed32 y))) : FreeOfCrossings t ys := by
  rcases h with htr | ⟨b, -, hsigns⟩
  · exact .inl (hcsr ▸ htr)
  · rw [sliceSign_sliceValue, hsigns y List.mem_cons_self] at hprevS
    refine .inr ⟨b, fun _ => hprevS, fun z hz => ?_⟩
    rw [hcsr]
    exact hsigns z (List.mem_cons_of_mem y hz)

/-- The symbol clock after some advance `a` and a further one `b`: whole symbols add up, and the
remainder is that of the sum. -/
theorem clock_add (rate a b : Nat) (hrate : 0 < rate) :
    (a % rate + b) % rate = (a + b) % rate ∧
    a / rate + (a % rate + b) / rate = (a + b) / rate := by
  refine ⟨Nat.mod_add_mod a rate b, ?_⟩
  rw [← Nat.mul_add_div hrate, ← Nat.add_assoc, Nat.div_add_mod]

/-- Inputs without a correction move the clock by their number of symbol rates, and each whole
symbol is one bit (41 R146). -/
theorem execAll_magIn_counts (ys : List Word) {s : State} (hclock : ClockRuns s)
    (hfree : FreeOfCrossings s ys) :
    ∃ t, execAll (ys.map .magIn) s = .next t ∧
      t.sync.phase =
        (s.sync.phase + ys.length * s.csr.symbolRate.toNat) % s.csr.sampleRate.toNat ∧
      t.cnt.bits = s.cnt.bits + BitVec.ofNat 32
        ((s.sync.phase + ys.length * s.csr.symbolRate.toNat) / s.csr.sampleRate.toNat) := by
  induction ys generalizing s with
  | nil =>
    have hin : s.sync.phase < s.csr.sampleRate.toNat := hclock.1
    rw [List.length_nil, Nat.zero_mul, Nat.add_zero, Nat.mod_eq_of_lt hin, Nat.div_eq_of_lt hin]
    exact ⟨s, rfl, rfl, (BitVec.add_zero _).symm⟩
  | cons y ys ih =>
    obtain ⟨u, hu, huclock, hcsr, hprevS, hphase, hbits⟩ := exec_magIn_clock y hclock
    obtain ⟨t, ht, htphase, htbits⟩ := ih huclock (hfree.tail hcsr hprevS)
    rw [hfree.advancedPhase_eq] at hphase hbits
    obtain ⟨hmod, hdiv⟩ := clock_add s.csr.sampleRate.toNat
      (s.sync.phase + s.csr.symbolRate.toNat) (ys.length * s.csr.symbolRate.toNat)
      (Nat.zero_lt_of_lt hclock.1)
    have hsum : s.sync.phase + (y :: ys).length * s.csr.symbolRate.toNat =
        s.sync.phase + s.csr.symbolRate.toNat + ys.length * s.csr.symbolRate.toNat := by
      rw [List.length_cons, Nat.succ_mul]
      omega
    refine ⟨t, execAll_cons_eq_next.mpr ⟨u, hu, ht⟩, ?_, ?_⟩
    · rw [htphase, hphase, hcsr, hmod, hsum]
    · rw [htbits, hbits, hphase, hcsr, hsum, ← hdiv, BitVec.ofNat_add, BitVec.add_assoc]

/-- Settles O27: `execAll_magIn_counts`, whose premises are among the statement's. -/
theorem noDrift : Obligations.NoDrift := by
  intro ys s hin ⟨_, hrates, _⟩ hsafe hfree
  exact execAll_magIn_counts ys ⟨hin, hrates, hsafe⟩ hfree

end Sys2Proof.Machine
end

section
/-! PROOFS. What CSR_WRITE does to each read-write register (45 R252, R255, 41 R148). -/

namespace Sys2Proof.Machine

/-- CSR_WRITE of a read-write register by numbers: a legal value `P` leads to the state `t`, any
other is refused with cause 5 (45 R252). -/
theorem exec_csrWrite_of_writable {a : Byte} {r : Csr} {v : Word} {s t : State} {P : Prop}
    [Decidable P] (hat : csrAt a = some r) (hw : r.writable = true)
    (hlegal : csrLegal .build s.csr v r = true ↔ P) (hwrite : csrWrite s v r = t) :
    exec (.csrWrite a v) s = .next (if P then t else refusedWith 5 0x31 a.toNat s) := by
  have hrefused : raiseIllegal .csrIllegalValue 0x31 a s = refusedWith 5 0x31 a.toNat s :=
    raiseIllegal_eq_refusedWith _ _ a s
  have hexec : exec (.csrWrite a v) s =
      if csrLegal .build s.csr v r then .next (csrWrite s v r)
      else .next (raiseIllegal .csrIllegalValue 0x31 a s) := by
    simp only [exec, execCsrWrite, csrWriteFor, hat, hw, Opcode.byte, if_true]
  rw [hexec, if_congr hlegal rfl rfl, ← apply_ite Host.Outcome.next, hwrite, hrefused]

/-! ### Legal values by numbers (45 R255) -/

theorem ctrlLegal_iff (c : CsrFields) (v : Word) :
    csrLegal .build c v .ctrl = true ↔ v.toNat < 2 ^ 4 := by
  rw [csrLegal, extractLsb'_beq_zero]
  omega

theorem sampleRateLegal_iff (c : CsrFields) (v : Word) :
    csrLegal .build c v .sampleRate = true ↔ c.symbolRate.toNat ≤ v.toNat :=
  decide_eq_true_iff

theorem symbolRateLegal_iff (c : CsrFields) (v : Word) :
    csrLegal .build c v .symbolRate = true ↔ 1 ≤ v.toNat ∧ v.toNat ≤ c.sampleRate.toNat := by
  rw [csrLegal, Bool.and_eq_true, decide_eq_true_iff, decide_eq_true_iff]

theorem timingLegal_iff (c : CsrFields) (v : Word) :
    csrLegal .build c v .timing = true ↔ v.toNat < 2 ^ 5 := by
  rw [csrLegal, extractLsb'_beq_zero]
  omega

theorem preambleLegal_iff (c : CsrFields) (v : Word) :
    csrLegal .build c v .preamble = true ↔ 1 ≤ v.toNat % 2 ^ 16 := by
  rw [csrLegal, decide_eq_true_iff, toNat_extractLsb'_eq]
  omega

theorem syncCfgLegal_iff (c : CsrFields) (v : Word) :
    csrLegal .build c v .syncCfg = true ↔
      v.toNat < 2 ^ 21 ∧ v.toNat / 2 ^ 6 % 2 ^ 2 = 0 ∧ v.toNat % 2 ^ 6 ≤ 32 := by
  simp only [csrLegal, Bool.and_eq_true, decide_eq_true_iff, extractLsb'_beq_zero,
    toNat_extractLsb'_eq]
  omega

theorem msgCfgLegal_iff (c : CsrFields) (v : Word) :
    csrLegal .build c v .msgCfg = true ↔
      v.toNat / 2 ^ 4 % 2 ^ 4 = 0 ∧ 1 ≤ v.toNat / 2 ^ 16 ∧ v.toNat / 2 ^ 16 ≤ 256 := by
  simp only [csrLegal, Bool.and_eq_true, decide_eq_true_iff, extractLsb'_beq_zero,
    toNat_extractLsb'_eq, Config.build]
  omega

/-! ### The fields of a value by numbers (10 R23 to R30) -/

/-- A bit of a word, as the statements write it. -/
theorem getLsbD_eq_decide {n : Nat} (w : BitVec n) (k : Nat) :
    w.getLsbD k = decide (w.toNat / 2 ^ k % 2 = 1) := by
  rw [← BitVec.testBit_toNat, Nat.testBit_eq_decide_div_mod_eq]

theorem csrSet_ctrl_eq (c : CsrFields) (v : Word) : csrSet c v .ctrl =
    { c with
      bitTrace := decide (v.toNat / 8 % 2 = 1)
      trEn := decide (v.toNat / 4 % 2 = 1)
      invert := decide (v.toNat / 2 % 2 = 1)
      demodMode := if v.toNat % 2 = 1 then .fm else .mag } := by
  simp only [csrSet, DemodMode.ofBit, getLsbD_eq_decide, decide_eq_true_iff, Nat.reducePow,
    Nat.div_one]

/-- A middle field taken out whole, as the statements write it. -/
theorem extractLsb'_eq_ofNat_mod {n : Nat} (w : BitVec n) (lo len : Nat) :
    w.extractLsb' lo len = BitVec.ofNat len (w.toNat / 2 ^ lo % 2 ^ len) := by
  rw [← toNat_extractLsb'_eq, BitVec.ofNat_toNat, BitVec.setWidth_eq]

theorem csrSet_timing_eq (c : CsrFields) (v : Word) :
    csrSet c v .timing = { c with gainShift := BitVec.ofNat 5 v.toNat } := by
  rw [csrSet, extractLsb'_eq_ofNat, pow_zero, Nat.div_one]

theorem csrSet_preamble_eq (c : CsrFields) (v : Word) : csrSet c v .preamble =
    { c with
      preMinLen := BitVec.ofNat 16 (v.toNat / 2 ^ 16)
      preStartRun := BitVec.ofNat 16 (v.toNat % 2 ^ 16) } := by
  rw [csrSet, extractLsb'_eq_ofNat v 16, extractLsb'_eq_ofNat_mod v 0, pow_zero, Nat.div_one]

theorem csrSet_syncCfg_eq (c : CsrFields) (v : Word) : csrSet c v .syncCfg =
    { c with
      errLimit := BitVec.ofNat 5 (v.toNat / 2 ^ 16)
      syncMissLimit := BitVec.ofNat 8 (v.toNat / 2 ^ 8 % 2 ^ 8)
      softThreshold := BitVec.ofNat 6 (v.toNat % 2 ^ 6) } := by
  rw [csrSet, extractLsb'_eq_ofNat v 16, extractLsb'_eq_ofNat_mod v 8, extractLsb'_eq_ofNat_mod v 0,
    pow_zero, Nat.div_one]

theorem csrSet_msgCfg_eq (c : CsrFields) (v : Word) : csrSet c v .msgCfg =
    { c with
      cap := BitVec.ofNat 16 (v.toNat / 2 ^ 16)
      placeholder := BitVec.ofNat 8 (v.toNat / 2 ^ 8 % 2 ^ 8)
      kindMap := BitVec.ofNat 4 (v.toNat % 2 ^ 4) } := by
  rw [csrSet, extractLsb'_eq_ofNat v 16, extractLsb'_eq_ofNat_mod v 8, extractLsb'_eq_ofNat_mod v 0,
    pow_zero, Nat.div_one]

/-! ### The registers in turn -/

/-- Settles O55: `exec_csrWrite_of_writable` at each address, with the legality and the fields of
its register by numbers; THRESHOLD takes every value. -/
theorem csrWriteEffects : Obligations.CsrWriteEffects := by
  intro v s
  refine ⟨?ctrl, ?threshold, ?sampleRate, ?symbolRate, ?timing, ?preamble, ?syncCfg, ?msgCfg⟩
  case ctrl =>
    exact exec_csrWrite_of_writable (r := .ctrl) rfl rfl (ctrlLegal_iff _ v)
      (congrArg s.setCsr (csrSet_ctrl_eq _ v))
  case threshold => rfl
  case sampleRate =>
    exact exec_csrWrite_of_writable (r := .sampleRate) rfl rfl (sampleRateLegal_iff _ v) rfl
  case symbolRate =>
    exact exec_csrWrite_of_writable (r := .symbolRate) rfl rfl (symbolRateLegal_iff _ v) rfl
  case timing =>
    exact exec_csrWrite_of_writable (r := .timing) rfl rfl (timingLegal_iff _ v)
      (congrArg s.setCsr (csrSet_timing_eq _ v))
  case preamble =>
    exact exec_csrWrite_of_writable (r := .preamble) rfl rfl (preambleLegal_iff _ v)
      (congrArg s.setCsr (csrSet_preamble_eq _ v))
  case syncCfg =>
    exact exec_csrWrite_of_writable (r := .syncCfg) rfl rfl (syncCfgLegal_iff _ v)
      (congrArg s.setCsr (csrSet_syncCfg_eq _ v))
  case msgCfg =>
    exact exec_csrWrite_of_writable (r := .msgCfg) rfl rfl (msgCfgLegal_iff _ v)
      (congrArg s.setCsr (csrSet_msgCfg_eq _ v))

end Sys2Proof.Machine
end

section
/-! PROOFS. Every step keeps the invariant of 10 R51. -/

namespace Sys2Proof.Machine

/-! ### The message register and the buffer (10 R46, 20 R70) -/

/-- The message part of the invariant. -/
def MessageInv (cfg : Config) (s : State) : Prop :=
  MessageInRange cfg s.msg ∧ BufferInRange cfg s.buf

/-- An open message register needs only its ranges. -/
theorem MessageInRange.of_open {cfg : Config} {r : MsgReg} (hunit : UnitInRange r)
    (hnc : r.nc ≤ cfg.maxCap) (hopen : r.isOpen = true) : MessageInRange cfg r :=
  ⟨hunit.1, hunit.2, hnc, fun hclosed => absurd (hopen.symm.trans hclosed) (by decide)⟩

theorem closed_messageInRange (cfg : Config) : MessageInRange cfg .closed :=
  ⟨by decide, by decide, Nat.zero_le _, fun _ => rfl⟩

theorem openedMessage_inRange (cfg : Config) (kindMap : BitVec 4) (c : Word) (slot : BitVec 4) :
    MessageInRange cfg (openedMessage kindMap c slot) :=
  .of_open ⟨Kind.width_pos _, Nat.one_pos⟩ (Nat.zero_le _) rfl

theorem BufferInRange.write {cfg : Config} {m : Memory} (h : BufferInRange cfg m) {k : Nat}
    (hk : k < cfg.maxCap) (b : Byte) : BufferInRange cfg (m.write k b) := by
  refine ⟨Memory.wf_write k b h.1, fun c hc => ?_⟩
  rcases Memory.mem_write hc with hold | rfl
  · exact h.2 c hold
  · exact hk

theorem finalized_messageInv {cfg : Config} {s : State} (h : BufferInRange cfg s.buf) :
    MessageInv cfg (finalized s) := by
  rw [MessageInv, finalized_msg, finalized_buf]
  exact ⟨closed_messageInRange cfg, h⟩

theorem finalizeIfOpen_messageInv {cfg : Config} {s t : State} (h : finalizeIfOpen cfg s = .ok t)
    (hs : MessageInv cfg s) : MessageInv cfg t := by
  rcases finalizeIfOpen_ok.mp h with ⟨-, -, rfl⟩ | ⟨-, rfl⟩
  · exact finalized_messageInv hs.2
  · exact hs

/-- A bit of an open message completes a unit, which is stored or ends the message, or waits in it
(44 R219, R223). -/
theorem accum_messageInv {cfg : Config} {b : Bool} {s t : State} (h : accum cfg b s = .ok t)
    (hs : MessageInv cfg s) (hopen : s.msg.isOpen = true) : MessageInv cfg t := by
  obtain ⟨⟨hnb, hbits, hnc, -⟩, hbuf⟩ := hs
  rcases accum_ok.mp h with ⟨-, hunit⟩ | ⟨hw, rfl⟩
  · rcases appendUnit_ok.mp hunit with ⟨-, -, rfl⟩ | ⟨-, hroom, rfl⟩
    · exact finalized_messageInv hbuf
    · exact ⟨.of_open (withUnit_inRange s.msg) hroom hopen, hbuf.write hroom _⟩
  · exact ⟨.of_open (UnitInRange.withBit ⟨hnb, hbits⟩ hw b) hnc hopen, hbuf⟩

theorem accumBits_messageInv {cfg : Config} : ∀ {bs : List Bool} {s t : State},
    accumBits cfg bs s = .ok t → MessageInv cfg s → s.msg.isOpen = true → MessageInv cfg t
  | [], s, t, h, hs, _ => by
    obtain rfl := Except.ok.inj h
    exact hs
  | b :: bs, s, t, h, hs, hopen => by
    obtain ⟨u, hu, hrest⟩ := accumBits_cons.mp h
    have hinv := accum_messageInv hu hs hopen
    rcases hrest with ⟨hopen', hrest⟩ | ⟨-, rfl⟩
    · exact accumBits_messageInv hrest hinv hopen'
    · exact hinv

theorem parse_messageInv {cfg : Config} {c : Word} {slot : BitVec 4} {s t : State}
    (h : parse cfg c slot s = .ok t) (hs : MessageInv cfg s) : MessageInv cfg t := by
  rcases parse_ok h with ⟨-, h⟩ | ⟨-, rfl⟩ | ⟨-, -, rfl⟩ | ⟨-, hopen, h⟩ | ⟨-, -, -, h⟩
  · exact finalizeIfOpen_messageInv h hs
  · exact hs
  · exact hs
  · exact accumBits_messageInv h hs hopen
  · obtain ⟨u, hu, rfl⟩ := parseAddress_ok.mp h
    exact ⟨openedMessage_inRange _ _ _ _, (finalizeIfOpen_messageInv hu hs).2⟩

/-- The error mark touches no range, and only an open message gets it (42 R168). -/
theorem markUncorrectable_messageInv {cfg : Config} {s : State} (hs : MessageInv cfg s) :
    MessageInv cfg (markUncorrectable s) := by
  obtain ⟨⟨hnb, hbits, hnc, hclosed⟩, hbuf⟩ := hs
  rw [MessageInv, markUncorrectable_msg, markUncorrectable_buf]
  split_ifs with hopen
  · exact ⟨.of_open ⟨hnb, hbits⟩ hnc hopen, hbuf⟩
  · exact ⟨⟨hnb, hbits, hnc, hclosed⟩, hbuf⟩

/-! ### The frame acquirer (10 R44, R45, 42 R160 to R170) -/

/-- The part of the invariant a bit or a codeword can touch: the frame acquirer and the message. -/
def FramerInv (cfg : Config) (s : State) : Prop :=
  FramingInRange s.fsm ∧ RunCounted s.fsm ∧ MessageInv cfg s

/-- The invariant by the parts of the block that move together. -/
theorem inv_iff {cfg : Config} {s : State} : s.Inv cfg ↔
    ConfigLegal cfg s.csr ∧ SampleCentred cfg s.demod ∧ PhaseInSymbol s.csr s.sync ∧
      FramerInv cfg s :=
  Iff.rfl

theorem reframe_framingInRange (f : Acquirer) (st : FsmState) : FramingInRange (reframe f st) :=
  ⟨Nat.zero_le _, Nat.zero_le _, fun _ => ⟨rfl, rfl⟩⟩

/-- Outside SYNCHED every position is 0, so any next state is in range (42 R162, R163). -/
theorem FramingInRange.of_search {f : Acquirer} (h : FramingInRange f) (hstate : f.state ≠ .synched)
    (st : FsmState) : FramingInRange { f with state := st } :=
  ⟨h.1, h.2.1, fun _ => h.2.2 hstate⟩

/-- In SYNCHED the positions need only their bounds (42 R165, R166). -/
theorem FramingInRange.of_synched {f : Acquirer} (hstate : f.state = .synched)
    (hbit : f.bitcnt ≤ 31) (hindex : f.cwIndex ≤ 16) : FramingInRange f :=
  ⟨hbit, hindex, fun hne => absurd hstate hne⟩

theorem extendRun_pos (run : BitVec 16) : 1 ≤ (extendRun run).toNat := by
  unfold extendRun
  split_ifs with hmax
  · rw [hmax]; decide
  · bv_omega

theorem pushBit_runCounted (f : Acquirer) (b : Bool) : RunCounted (pushBit f b) := by
  intro _
  unfold pushBit
  dsimp only
  split_ifs
  · exact extendRun_pos _
  · decide

theorem recordBit_framerInv {cfg : Config} (b : Bool) {s : State} (hs : FramerInv cfg s) :
    FramerInv cfg (recordBit b s) := by
  obtain ⟨hframing, -, hmessage⟩ := hs
  exact ⟨hframing, pushBit_runCounted _ _, hmessage⟩

/-- Losing sync hands the message out and clears the framing (42 R170). -/
theorem loseSync_framerInv {cfg : Config} {reason : LossReason} {s t : State}
    (h : loseSync cfg reason s = .ok t) (hs : FramerInv cfg s) : FramerInv cfg t := by
  obtain ⟨-, hrun, hmessage⟩ := hs
  obtain ⟨u, hu, rfl⟩ := loseSync_ok.mp h
  have hout : MessageInv cfg u := finalizeIfOpen_messageInv hu hmessage
  exact ⟨reframe_framingInRange _ _, hrun, hout⟩

theorem windowFailure_framerInv {cfg : Config} {s t : State} (h : windowFailure cfg s = .ok t)
    (hs : FramerInv cfg s) : FramerInv cfg t := by
  rcases windowFailure_ok.mp h with ⟨-, h⟩ | ⟨-, rfl⟩
  · exact loseSync_framerInv h hs
  · exact hs

theorem countCorrected_framerInv {cfg : Config} (flips : BitVec 2) (f : Bool) {s : State}
    (hs : FramerInv cfg s) : FramerInv cfg (countCorrected flips f s) := by
  cases f <;> exact hs

theorem markUncorrectable_framerInv {cfg : Config} {s : State} (hs : FramerInv cfg s) :
    FramerInv cfg (markUncorrectable s) := by
  obtain ⟨hframing, hrun, hmessage⟩ := hs
  rw [FramerInv, markUncorrectable_fsm]
  exact ⟨hframing, hrun, markUncorrectable_messageInv hmessage⟩

theorem parse_framerInv {cfg : Config} {c : Word} {slot : BitVec 4} {s t : State}
    (h : parse cfg c slot s = .ok t) (hs : FramerInv cfg s) : FramerInv cfg t := by
  obtain ⟨hframing, hrun, hmessage⟩ := hs
  obtain ⟨-, -, -, hfsm, -⟩ := parse_keeps h
  rw [FramerInv, hfsm]
  exact ⟨hframing, hrun, parse_messageInv h hmessage⟩

theorem dataWord_framerInv {cfg : Config} {w : Word} {slot : BitVec 4} {f : Bool} {s t : State}
    (h : dataWord cfg w slot f s = .ok t) (hs : FramerInv cfg s) : FramerInv cfg t := by
  rcases dataWord_ok.mp h with ⟨-, h⟩ | ⟨-, -, h⟩ | ⟨-, -, rfl⟩
  · exact parse_framerInv h (countCorrected_framerInv _ f hs)
  · exact windowFailure_framerInv h (markUncorrectable_framerInv hs)
  · exact markUncorrectable_framerInv hs

/-- A missed sync word starts the next batch or loses sync (42 R167). -/
theorem missSync_framerInv {cfg : Config} {s t : State} (h : missSync cfg s = .ok t)
    (hs : FramerInv cfg s) (hstate : s.fsm.state = .synched) : FramerInv cfg t := by
  rcases missSync_ok.mp h with ⟨-, h⟩ | ⟨-, rfl⟩
  · exact loseSync_framerInv h hs
  · obtain ⟨⟨hbit, -, -⟩, hrun, hmessage⟩ := hs
    exact ⟨.of_synched hstate hbit (Nat.zero_le _), hrun, hmessage⟩

/-- A whole word: position 16 goes back to 0 or sync is lost, others move on by one (42 R166). -/
theorem synchedWord_framerInv {cfg : Config} {w : Word} {s t : State}
    (h : synchedWord cfg w s = .ok t) (hs : FramerInv cfg s) (hstate : s.fsm.state = .synched) :
    FramerInv cfg t := by
  rcases synchedWord_ok h with ⟨-, -, -, rfl⟩ | ⟨-, -, h⟩ | ⟨hindex, h⟩
  · obtain ⟨⟨hbit, -, -⟩, hrun, hmessage⟩ := hs
    exact ⟨.of_synched hstate hbit (Nat.zero_le _), hrun, hmessage⟩
  · exact missSync_framerInv h hs hstate
  · obtain ⟨⟨hbit, hle, -⟩, hrun, hmessage⟩ := hs
    exact dataWord_framerInv h
      ⟨.of_synched hstate hbit (Nat.lt_of_le_of_ne hle hindex), hrun, hmessage⟩

theorem stepPreambleStart_framerInv {cfg : Config} {s : State} (hs : FramerInv cfg s)
    (hstate : s.fsm.state ≠ .synched) : FramerInv cfg (stepPreambleStart s) := by
  unfold stepPreambleStart
  split_ifs
  · obtain ⟨hframing, hrun, hmessage⟩ := hs
    exact ⟨hframing.of_search hstate _, hrun, hmessage⟩
  · exact hs

theorem stepPreambleEnd_framerInv {cfg : Config} (brk : Bool) (altPrev : BitVec 16) {s : State}
    (hs : FramerInv cfg s) (hstate : s.fsm.state ≠ .synched) :
    FramerInv cfg (stepPreambleEnd brk altPrev s) := by
  unfold stepPreambleEnd
  cases brk with
  | true =>
    obtain ⟨hframing, hrun, hmessage⟩ := hs
    exact ⟨hframing.of_search hstate _, hrun, hmessage⟩
  | false => exact hs

theorem stepSearchSync_framerInv {cfg : Config} {s : State} (hs : FramerInv cfg s) :
    FramerInv cfg (stepSearchSync s) := by
  unfold stepSearchSync
  split_ifs
  · obtain ⟨-, hrun, hmessage⟩ := hs
    exact ⟨reframe_framingInRange _ _, hrun, hmessage⟩
  · exact hs

theorem fsmBit_framerInv {cfg : Config} {b : Bool} {s t : State} (h : fsmBit cfg b s = .ok t)
    (hs : FramerInv cfg s) : FramerInv cfg t := by
  have hrec := recordBit_framerInv b hs
  have ⟨⟨hbit, hindex, _⟩, hrun, hmessage⟩ := hrec
  rcases fsmBit_ok h with ⟨hstate, rfl⟩ | ⟨hstate, rfl⟩ | ⟨-, rfl⟩ | ⟨hstate, -, h⟩ |
    ⟨hstate, hlast, rfl⟩
  · exact stepPreambleStart_framerInv hrec (by simp [recordBit, pushBit, hstate])
  · exact stepPreambleEnd_framerInv _ _ hrec (by simp [recordBit, pushBit, hstate])
  · exact stepSearchSync_framerInv hrec
  · exact synchedWord_framerInv h ⟨.of_synched hstate (Nat.zero_le _) hindex, hrun, hmessage⟩ hstate
  · exact ⟨.of_synched hstate (Nat.lt_of_le_of_ne hbit hlast) hindex, hrun, hmessage⟩

/-! ### The configuration and the synchronizer (10 R43, 41 R143, R148, 45 R255) -/

/-- What keeps the other parts keeps the invariant when it keeps the frame acquirer's part. -/
theorem FramerKeeps.inv {cfg : Config} {s t : State} (hk : FramerKeeps s t) (hs : s.Inv cfg)
    (ht : FramerInv cfg t) : t.Inv cfg := by
  obtain ⟨hcsr, hdemod, hsync, -⟩ := hk
  obtain ⟨hlegal, hcentred, hphase, -⟩ := inv_iff.mp hs
  rw [← hcsr] at hlegal hphase
  rw [← hdemod] at hcentred
  rw [← hsync] at hphase
  exact inv_iff.mpr ⟨hlegal, hcentred, hphase, ht⟩

theorem fsmBit_inv {cfg : Config} {b : Bool} {s t : State} (hs : s.Inv cfg)
    (h : fsmBit cfg b s = .ok t) : t.Inv cfg := by
  obtain ⟨-, -, -, hframer⟩ := inv_iff.mp hs
  exact (fsmBit_keeps h).inv hs (fsmBit_framerInv h hframer)

theorem setSync_inv {cfg : Config} {s : State} (hs : s.Inv cfg) {x : SyncState}
    (hx : PhaseInSymbol s.csr x) : (s.setSync x).Inv cfg := by
  obtain ⟨hlegal, hcentred, -, hframer⟩ := inv_iff.mp hs
  exact inv_iff.mpr ⟨hlegal, hcentred, hx, hframer⟩

theorem traceBit_inv {cfg : Config} (acc : Int) (b : Bool) {s : State} (hs : s.Inv cfg) :
    (traceBit acc b s).Inv cfg := by
  unfold traceBit
  split_ifs <;> exact hs

/-- The advanced phase is inside the symbol, or inside the next one (41 R143). -/
theorem syncStep_inv {cfg : Config} {y : Int} {s t : State} (hs : s.Inv cfg)
    (h : syncStep cfg y s = .ok t) : t.Inv cfg := by
  obtain ⟨⟨-, hrates, -⟩, -, hphase, -⟩ := inv_iff.mp hs
  rcases syncStep_ok.mp h with ⟨hend, hbit⟩ | ⟨hinside, rfl⟩
  · have hlt := advancedPhase_lt (sliceValue s.csr y) hrates hphase
    have hnext : PhaseInSymbol s.csr (endSymbol s.csr s.sync (sliceValue s.csr y)) :=
      Nat.sub_lt_left_of_lt_add hend hlt
    exact fsmBit_inv (traceBit_inv _ _ (setSync_inv hs hnext)) hbit
  · exact setSync_inv hs hinside

/-- A legal value keeps the configuration legal (45 R255). -/
theorem csrSet_legal {cfg : Config} {c : CsrFields} {v : Word} {r : Csr} (hc : ConfigLegal cfg c)
    (hl : csrLegal cfg c v r = true) : ConfigLegal cfg (csrSet c v r) := by
  obtain ⟨hsymbol, hrates, hrun, hsoft, hcapLow, hcapHigh⟩ := hc
  cases r with
  | sampleRate => exact ⟨hsymbol, of_decide_eq_true hl, hrun, hsoft, hcapLow, hcapHigh⟩
  | symbolRate =>
    obtain ⟨hlow, hhigh⟩ := Bool.and_eq_true_iff.mp hl
    exact ⟨of_decide_eq_true hlow, of_decide_eq_true hhigh, hrun, hsoft, hcapLow, hcapHigh⟩
  | preamble => exact ⟨hsymbol, hrates, of_decide_eq_true hl, hsoft, hcapLow, hcapHigh⟩
  | syncCfg =>
    obtain ⟨-, hsoft'⟩ := Bool.and_eq_true_iff.mp hl
    exact ⟨hsymbol, hrates, hrun, of_decide_eq_true hsoft', hcapLow, hcapHigh⟩
  | msgCfg =>
    obtain ⟨hlow, hhigh⟩ := Bool.and_eq_true_iff.mp hl
    obtain ⟨-, hlow⟩ := Bool.and_eq_true_iff.mp hlow
    exact ⟨hsymbol, hrates, hrun, hsoft, of_decide_eq_true hlow, of_decide_eq_true hhigh⟩
  | _ => exact ⟨hsymbol, hrates, hrun, hsoft, hcapLow, hcapHigh⟩

/-- Only a rate register changes the sample rate, and its write restarts the symbol (41 R148). -/
theorem csrSet_sampleRate {r : Csr} (hr : r.isRate = false) (c : CsrFields) (v : Word) :
    (csrSet c v r).sampleRate = c.sampleRate := by
  cases r with
  | sampleRate | symbolRate => cases hr
  | _ => rfl

theorem csrWrite_inv {cfg : Config} {s : State} {v : Word} {r : Csr} (hs : s.Inv cfg)
    (hl : csrLegal cfg s.csr v r = true) : (csrWrite s v r).Inv cfg := by
  obtain ⟨hlegal, hcentred, hphase, hframer⟩ := inv_iff.mp hs
  have hlegal' := csrSet_legal hlegal hl
  unfold csrWrite
  split_ifs with hr
  · have ⟨hsymbol, hrates, _⟩ := hlegal'
    exact inv_iff.mpr ⟨hlegal', hcentred, hsymbol.trans hrates, hframer⟩
  · have hrate := csrSet_sampleRate (Bool.eq_false_of_not_eq_true hr) s.csr v
    have hphase' : s.sync.phase < (csrSet s.csr v r).sampleRate.toNat := hrate ▸ hphase
    exact inv_iff.mpr ⟨hlegal', hcentred, hphase', hframer⟩

/-! ### Every command and every step -/

theorem keepSample_inv {cfg : Config} (i q : Byte) {s : State} (hs : s.Inv cfg) :
    (keepSample cfg i q s).Inv cfg := by
  obtain ⟨hlegal, -, hphase, hframer⟩ := inv_iff.mp hs
  obtain ⟨hilow, hihigh⟩ := centre_bounds cfg i
  obtain ⟨hqlow, hqhigh⟩ := centre_bounds cfg q
  exact inv_iff.mpr ⟨hlegal, ⟨hilow, hihigh, hqlow, hqhigh⟩, hphase, hframer⟩

/-- The RESET command leaves the cleared parts as hardware reset does, and the configuration and the
buffer as they were (10 R50). -/
theorem softReset_inv {s : State} (hs : s.Inv .build) : (softReset s).Inv .build := by
  obtain ⟨hlegal, -, hphase, -, -, -, hbuf⟩ := hs
  obtain ⟨-, hcentred, -, hframing, hrun, hmessage, -⟩ := invAtReset
  exact ⟨hlegal, hcentred, Nat.zero_lt_of_lt hphase, hframing, hrun, hmessage, hbuf⟩

/-- Every command keeps the invariant. -/
theorem exec_inv {i : Instr} {s t : State} (hs : s.Inv .build) (h : exec i s = .next t) :
    t.Inv .build := by
  obtain ⟨-, -, -, hframer⟩ := inv_iff.mp hs
  cases i with
  | nop | sampleLoss _ | demodQuery _ _ _ _ _ | bchSyndrome _ | bchCorrect _ =>
    obtain rfl := Host.Outcome.next.inj h
    exact hs
  | sample ib qb => exact syncStep_inv (keepSample_inv ib qb hs) (answer_eq_next.mp h)
  | magIn y => exact syncStep_inv hs (answer_eq_next.mp h)
  | bitIn b => exact fsmBit_inv hs (answer_eq_next.mp h)
  | cwIn w slot =>
    have hword := answer_eq_next.mp h
    exact (dataWord_keeps hword).inv hs (dataWord_framerInv hword hframer)
  | csrRead a =>
    rcases execCsrRead_cases a s with hs' | ⟨v, hs'⟩
    · obtain rfl := Host.Outcome.next.inj (hs'.symm.trans h)
      exact hs
    · obtain rfl := Host.Outcome.next.inj (hs'.symm.trans h)
      exact hs
  | csrWrite a v =>
    rcases execCsrWrite_cases a v s with ⟨cause, hs'⟩ | ⟨r, -, -, hl, hs'⟩
    · obtain rfl := Host.Outcome.next.inj (hs'.symm.trans h)
      exact hs
    · obtain rfl := Host.Outcome.next.inj (hs'.symm.trans h)
      exact csrWrite_inv hs hl
  | flush =>
    obtain ⟨hframing, hrun, hmessage⟩ := hframer
    have hflush := answer_eq_next.mp h
    obtain ⟨-, -, -, hfsm, -⟩ := finalizeIfOpen_keeps hflush
    refine (finalizeIfOpen_keeps hflush).framer.inv hs ?_
    rw [FramerInv, hfsm]
    exact ⟨hframing, hrun, finalizeIfOpen_messageInv hflush hmessage⟩
  | reset =>
    obtain rfl := Host.Outcome.next.inj h
    exact softReset_inv hs

/-- Settles O10: a command keeps the invariant by `exec_inv`, a hardware reset restores it
(`invAtReset`), and the other inputs touch only the counters and the ports. -/
theorem invKeptByStep : Obligations.InvKeptByStep := by
  intro s t hs h
  rcases step_cases s with ⟨-, hs'⟩ | ⟨w, i, rest, -, -, hs'⟩ | ⟨w, r, rest, -, -, hs'⟩ |
    ⟨rest, -, hs'⟩ | ⟨rest, -, hs'⟩
  · obtain rfl := Host.Outcome.next.inj (hs'.symm.trans h)
    exact hs
  · exact exec_inv (s := s.setInputs rest) hs (hs'.symm.trans h)
  · obtain rfl := Host.Outcome.next.inj (hs'.symm.trans h)
    exact hs
  · obtain rfl := Host.Outcome.next.inj (hs'.symm.trans h)
    exact hs
  · obtain rfl := Host.Outcome.next.inj (hs'.symm.trans h)
    exact invAtReset

end Sys2Proof.Machine
end

section
/-! PROOFS. Counted bits, handing a message out and losing sync, by numbers (00 R11, 42 R164, R170,
44 R224). -/

namespace Sys2Proof.Machine

/-! ### Counted bits -/

/-- The set bits among the lowest `k`, counted as a list (00 R11). -/
theorem popcountBelow_eq_length (x : Nat) : ∀ k,
    popcountBelow x k = ((List.range k).filter fun i => x.testBit i).length
  | 0 => rfl
  | k + 1 => by
    rw [popcountBelow, popcountBelow_eq_length x k, List.range_succ, List.filter_append,
      List.length_append]
    cases h : x.testBit k <;> simp [h]

/-- Positions above all set bits count nothing. -/
theorem popcountBelow_of_lt {x k : Nat} (h : x < 2 ^ k) : ∀ m,
    popcountBelow x (k + m) = popcountBelow x k
  | 0 => rfl
  | m + 1 => by
    have hlt : x < 2 ^ (k + m) := h.trans_le (Nat.pow_le_pow_right (by norm_num) (by omega))
    rw [← Nat.add_assoc, popcountBelow, Nat.testBit_lt_two_pow hlt, popcountBelow_of_lt h m]
    rfl

theorem popcount_eq_weight (w : Word) : popcount w = weight w :=
  popcountBelow_eq_length w.toNat 32

/-- A 16-bit window by the weight of a word (42 R169). -/
theorem popcount_window_eq_weight (x : BitVec 16) : popcount x = weight (BitVec.setWidth 32 x) := by
  have hwide : (BitVec.setWidth 32 x).toNat = x.toNat := by
    rw [BitVec.toNat_setWidth, Nat.mod_eq_of_lt (by omega)]
  rw [← popcount_eq_weight, popcount, popcount, hwide]
  exact (popcountBelow_of_lt x.isLt 16).symm

/-- The distance from the sync word by numbers (42 R164). -/
theorem syncDistance_eq_weight (sr : Word) : syncDistance sr = weight (sr ^^^ 0x7CD215D8#32) :=
  popcount_eq_weight _

theorem syncDistance_le (sr : Word) : syncDistance sr ≤ 32 :=
  popcount_le _

/-! ### Event words by numbers -/

/-- The SYNC_ACQUIRED event by numbers (30 R101, 42 R164). -/
theorem syncAcquired_word (d : BitVec 6) :
    (Event.syncAcquired d).word = eventWord 0x20 d.toNat := by
  rw [Event.word_eq_eventWord]
  exact congrArg _ (toNat_zero_append d)

/-- The BATCH_SYNC event by numbers (30 R101, 42 R167). -/
theorem batchSync_word (flips : BitVec 2) :
    (Event.batchSync flips).word = eventWord 0x21 flips.toNat := by
  rw [Event.word_eq_eventWord]
  exact congrArg _ (toNat_zero_append flips)

/-- The SYNC_MISS event by numbers (30 R101, 42 R167). -/
theorem syncMiss_word (misses : BitVec 8) :
    (Event.syncMiss misses).word = eventWord 0x22 misses.toNat := by
  rw [Event.word_eq_eventWord]
  exact congrArg _ (toNat_zero_append misses)

/-- The SYNC_LOST event by numbers (30 R101, 42 R170). -/
theorem syncLost_word (reason : LossReason) :
    (Event.syncLost reason).word = eventWord 0x23 reason.code.toNat := by
  rw [Event.word_eq_eventWord]
  exact congrArg _ (toNat_zero_append reason.code)

/-- The MSG_HEADER event by numbers (30 R101, 44 R224). -/
theorem headerEvent_word {r : MsgReg} (h : r.nc < 2 ^ 16) :
    (headerEvent r).word = eventWord 0x01 (r.nc * 2 ^ 26 + r.err.toNat * 2 ^ 25
      + r.trunc.toNat * 2 ^ 24 + r.kind.bit.toNat * 2 ^ 23 + r.func.toNat * 2 ^ 21
      + r.capcode.toNat) := by
  rw [Event.word_eq_eventWord]
  refine congrArg (eventWord 0x01) ?_
  simp only [headerEvent, Event.payload, toNat_append_eq, BitVec.toNat_ofNat, BitVec.toNat_ofBool,
    Nat.mod_eq_of_lt h]
  omega

/-- The MSG_CHAR event by numbers (30 R101, 44 R224). -/
theorem msgChar_word {k : Nat} (h : k < 2 ^ 16) (ch : Byte) :
    (Event.msgChar (BitVec.ofNat 16 k) ch).word = eventWord 0x02 (k * 2 ^ 8 + ch.toNat) := by
  rw [Event.word_eq_eventWord]
  refine congrArg (eventWord 0x02) ?_
  simp only [Event.payload, toNat_append_eq, BitVec.toNat_ofNat, Nat.mod_eq_of_lt h]
  omega

/-- The MSG_END event by numbers (30 R101, 44 R224). -/
theorem msgEnd_word {n : Nat} (h : n < 2 ^ 16) :
    (Event.msgEnd (BitVec.ofNat 16 n)).word = eventWord 0x03 n := by
  rw [Event.word_eq_eventWord]
  refine congrArg (eventWord 0x03) ?_
  simp only [Event.payload, toNat_append_eq, BitVec.toNat_ofNat, Nat.mod_eq_of_lt h]
  omega

/-- A message's events by numbers (44 R224). -/
theorem messageEvents_words {r : MsgReg} (h : r.nc < 2 ^ 16) (m : Memory) :
    (messageEvents r m).map Event.word = messageWords r m := by
  have hchars : (charsFrom m 0 r.nc).map Event.word =
      (List.range r.nc).map fun k => eventWord 0x02 (k * 2 ^ 8 + (m.read k).toNat) := by
    rw [charsFrom, List.map_map, List.range_eq_range']
    refine List.map_congr_left fun k hk => ?_
    have hlt : k < r.nc := by simpa using hk
    exact msgChar_word (hlt.trans h) _
  rw [messageEvents, List.map_cons, List.map_append, hchars, List.map_singleton, headerEvent_word h,
    msgEnd_word h]
  rfl

/-! ### Handing out the open message -/

theorem handedOut_of_closed {s : State} (h : s.msg.isOpen = false) : handedOut s = s := by
  rw [handedOut, h]
  rfl

/-- A message handed out, by numbers (44 R224). -/
theorem finalized_eq_handedOut {s : State} (hopen : s.msg.isOpen = true) (h : s.msg.nc < 2 ^ 16) :
    finalized s = handedOut s := by
  have hcnt := finalized_cnt s
  rw [handedOut, if_pos hopen]
  ext1
  case hevts => rw [finalized_evts, messageEvents_words h]
  case hcnt =>
    rw [hcnt]
    split_ifs <;> rfl
  all_goals simp [MsgReg.closed]

/-- `if msg.open = 1: Finalize()` by numbers: a message of at most 256 characters is always handed
out (20 R70, 44 R224). -/
theorem finalizeIfOpen_eq_handedOut {s : State} (h : s.msg.nc ≤ 256) :
    finalizeIfOpen .build s = .ok (handedOut s) := by
  cases hopen : s.msg.isOpen with
  | true =>
    have hout := finalized_eq_handedOut hopen (by omega)
    exact finalizeIfOpen_ok.mpr (.inl ⟨hopen, h, hout.symm⟩)
  | false => exact finalizeIfOpen_ok.mpr (.inr ⟨hopen, handedOut_of_closed hopen⟩)

/-- Handing out neither reads nor writes the frame acquirer (44 R224). -/
theorem handedOut_setFsm (s : State) (f : Acquirer) :
    handedOut (s.setFsm f) = (handedOut s).setFsm f := by
  unfold handedOut
  cases hopen : s.msg.isOpen <;> simp only [State.setFsm_msg, hopen] <;> rfl

/-! ### Losing sync -/

/-- `LoseSync(reason)` by numbers (42 R170). -/
theorem loseSync_eq_syncLostWith (reason : LossReason) {s : State} (h : s.msg.nc ≤ 256) :
    loseSync .build reason s = .ok (syncLostWith reason.code.toNat s) := by
  refine loseSync_ok.mpr ⟨handedOut s, finalizeIfOpen_eq_handedOut h, ?_⟩
  rw [State.emit, syncLost_word]
  rfl

/-- Of the frame acquirer only the bit history outlives the loss (42 R170). -/
theorem syncLostWith_setFsm (reason : Nat) {s : State} {f : Acquirer}
    (h : reframe f .searchPreambleStart = reframe s.fsm .searchPreambleStart) :
    syncLostWith reason (s.setFsm f) = syncLostWith reason s := by
  calc syncLostWith reason (s.setFsm f)
      = ((((handedOut (s.setFsm f)).setFsm (reframe f .searchPreambleStart)).inc .syncLost
          1).setEvts ((handedOut (s.setFsm f)).evts ++ [eventWord 0x23 reason])) := rfl
    _ = ((((handedOut s).setFsm (reframe s.fsm .searchPreambleStart)).inc .syncLost 1).setEvts
          ((handedOut s).evts ++ [eventWord 0x23 reason])) := by rw [handedOut_setFsm, h]; rfl
    _ = syncLostWith reason s := rfl

end Sys2Proof.Machine
end

section
/-! PROOFS. One bit in each state of the frame acquirer (42 R161 to R165, R175). -/

namespace Sys2Proof.Machine

/-! ### The bit history by numbers -/

/-- This bit differs from a bit before it (42 R161). -/
theorem runExtends_iff (f : Acquirer) (b : Bool) :
    runExtends f b = true ↔ f.havePrev = true ∧ b ≠ f.prevBit := by
  simp only [runExtends, Bool.and_eq_true, bne_iff_ne]

/-- This bit repeats the bit before it (42 R161). -/
theorem runBreaks_iff (f : Acquirer) (b : Bool) :
    runBreaks f b = true ↔ f.havePrev = true ∧ b = f.prevBit := by
  simp only [runBreaks, Bool.and_eq_true, beq_iff_eq]

/-- The run counts one more and stops at 65535 (42 R161). -/
theorem extendRun_eq (run : BitVec 16) :
    extendRun run = BitVec.ofNat 16 (min (run.toNat + 1) 65535) := by
  unfold extendRun
  split_ifs with hmax
  · rw [hmax]; rfl
  · have hlt : run.toNat + 1 ≤ 65535 := by bv_omega
    rw [Nat.min_eq_left hlt, BitVec.ofNat_add, BitVec.ofNat_toNat, BitVec.setWidth_eq]
    rfl

theorem pushBit_eq_historyAfter (f : Acquirer) (b : Bool) : pushBit f b = historyAfter f b := by
  have hrun : (pushBit f b).altRun = (historyAfter f b).altRun :=
    if_congr (runExtends_iff f b) (extendRun_eq f.altRun) rfl
  calc pushBit f b
      = { historyAfter f b with sr := (pushBit f b).sr, altRun := (pushBit f b).altRun } := rfl
    _ = historyAfter f b := by rw [pushBit_sr, hrun]

/-- A bit is counted and kept (42 R161). -/
theorem recordBit_eq_bitTaken (b : Bool) (s : State) :
    recordBit b s = bitTaken (historyAfter s.fsm b) s := by
  rw [recordBit, pushBit_eq_historyAfter]
  rfl

theorem exec_bitIn (b : Bool) (s : State) : exec (.bitIn b) s = answer (fsmBit .build b s) := rfl

/-- Taking a bit leaves the state of the frame acquirer to the state's own rule (42 R161). -/
theorem recordBit_state (b : Bool) (s : State) : (recordBit b s).fsm.state = s.fsm.state := rfl

/-! ### The search for a preamble -/

theorem exec_bitIn_of_preambleStart {s : State} (h : s.fsm.state = .searchPreambleStart)
    (b : Bool) : exec (.bitIn b) s = .next (stepPreambleStart (recordBit b s)) := by
  simp only [exec_bitIn, fsmBit, h, answer_ok]

theorem exec_bitIn_of_preambleEnd {s : State} (h : s.fsm.state = .searchPreambleEnd) (b : Bool) :
    exec (.bitIn b) s =
      .next (stepPreambleEnd (runBreaks s.fsm b) s.fsm.altRun (recordBit b s)) := by
  simp only [exec_bitIn, fsmBit, h, answer_ok]

/-- A frame acquirer already in the state a rule names is not moved by it. -/
theorem setFsm_state_self {s : State} {st : FsmState} (h : s.fsm.state = st) :
    s.setFsm { s.fsm with state := st } = s := by
  rw [← h]
  rfl

/-- SEARCH_PREAMBLE_START only moves the state (42 R162). -/
theorem stepPreambleStart_eq {s : State} (h : s.fsm.state = .searchPreambleStart) :
    stepPreambleStart s = s.setFsm { s.fsm with
      state := if s.csr.preStartRun.toNat ≤ s.fsm.altRun.toNat then .searchPreambleEnd
        else .searchPreambleStart } := by
  unfold stepPreambleStart
  split_ifs
  · rfl
  · exact (setFsm_state_self h).symm

/-- SEARCH_PREAMBLE_END only moves the state, and only when the run breaks (42 R163). -/
theorem stepPreambleEnd_eq {s : State} (h : s.fsm.state = .searchPreambleEnd) (brk : Bool)
    (altPrev : BitVec 16) :
    stepPreambleEnd brk altPrev s = s.setFsm { s.fsm with
      state := if brk = true then
          if s.csr.preMinLen.toNat ≤ altPrev.toNat then .searchSync else .searchPreambleStart
        else .searchPreambleEnd } := by
  cases brk with
  | true => rfl
  | false => exact (setFsm_state_self h).symm

/-- Settles O28: the bit recorded, then the state's rule (`stepPreambleStart_eq`). -/
theorem bitInPreambleStart : Obligations.BitInPreambleStart := by
  intro b s h
  rw [exec_bitIn_of_preambleStart h, stepPreambleStart_eq ((recordBit_state b s).trans h),
    recordBit_eq_bitTaken]
  rfl

/-- Settles O29: the bit recorded, then the state's rule (`stepPreambleEnd_eq`), the break by its
conditions (`runBreaks_iff`). -/
theorem bitInPreambleEnd : Obligations.BitInPreambleEnd := by
  intro b s h
  rw [exec_bitIn_of_preambleEnd h, stepPreambleEnd_eq ((recordBit_state b s).trans h),
    recordBit_eq_bitTaken]
  simp only [runBreaks_iff]
  rfl

/-! ### The search for the sync word -/

theorem exec_bitIn_of_searchSync {s : State} (h : s.fsm.state = .searchSync) (b : Bool) :
    exec (.bitIn b) s = .next (stepSearchSync (recordBit b s)) := by
  simp only [exec_bitIn, fsmBit, h, answer_ok]

/-- `Acquire` of a word's distance, by numbers (42 R164). -/
theorem acquire_syncDistance (sr : Word) (s : State) :
    acquire (syncDistance sr) s =
      { s with
        fsm := { s.fsm with state := .synched, bitcnt := 0, cwIndex := 0, miss := 0, errHist := 0 }
        cnt := { s.cnt with syncAcq := s.cnt.syncAcq + 1 }
        evts := s.evts ++ [eventWord 0x20 (weight (sr ^^^ 0x7CD215D8#32))] } := by
  have hle := syncDistance_le sr
  have hfits : (BitVec.ofNat 6 (syncDistance sr)).toNat = weight (sr ^^^ 0x7CD215D8#32) := by
    rw [BitVec.toNat_ofNat, Nat.mod_eq_of_lt (by omega), syncDistance_eq_weight]
  rw [acquire, State.emit, syncAcquired_word, hfits]
  rfl

/-- Settles O30: the bit recorded, then `Acquire` within the threshold. -/
theorem bitInSearchSync : Obligations.BitInSearchSync := by
  intro b s h f d
  rw [exec_bitIn_of_searchSync h, recordBit_eq_bitTaken, stepSearchSync, acquire_syncDistance,
    syncDistance_eq_weight]
  rfl

/-! ### Inside a word -/

theorem exec_bitIn_of_synched {s : State} (h : s.fsm.state = .synched) (b : Bool) :
    exec (.bitIn b) s = answer (stepSynched .build (recordBit b s)) := by
  simp only [exec_bitIn, fsmBit, h]

/-- Settles O31: a bit short of a word is recorded and counted into it. -/
theorem bitInsideWord : Obligations.BitInsideWord := by
  intro b s h hbitcnt
  have hinside : (bitTaken (historyAfter s.fsm b) s).fsm.bitcnt + 1 ≠ cwBits := by
    change s.fsm.bitcnt + 1 ≠ 32
    omega
  rw [exec_bitIn_of_synched h, recordBit_eq_bitTaken, stepSynched, if_neg hinside]
  rfl

end Sys2Proof.Machine
end

section
/-! PROOFS. Whole words in SYNCHED, and the word of CW_IN that cannot be corrected (42 R166 to R170,
44 R230). -/

namespace Sys2Proof.Machine

/-! ### The word a bit completes -/

/-- The last bit of a word in SYNCHED completes it (42 R165, R166). -/
theorem exec_bitIn_of_wordEnd {s : State} (h : s.fsm.state = .synched) (hbitcnt : s.fsm.bitcnt = 31)
    (b : Bool) :
    exec (.bitIn b) s = answer (synchedWord .build (historyAfter s.fsm b).sr
      (bitTaken { historyAfter s.fsm b with bitcnt := 0 } s)) := by
  have hend : (bitTaken (historyAfter s.fsm b) s).fsm.bitcnt + 1 = cwBits := by
    change s.fsm.bitcnt + 1 = 32
    omega
  rw [exec_bitIn_of_synched h, recordBit_eq_bitTaken, stepSynched, if_pos hend]
  rfl

theorem synchedWord_of_syncPosition {cfg : Config} {s : State} (h : s.fsm.cwIndex = 16) (w : Word) :
    synchedWord cfg w s =
      if (correct w).ok = true ∧ (correct w).word = syncWord then
        .ok (acceptSync (correct w).flips s)
      else missSync cfg s :=
  if_pos h

theorem synchedWord_of_dataPosition {cfg : Config} {s : State} (h : s.fsm.cwIndex ≠ 16) (w : Word) :
    synchedWord cfg w s = dataWord cfg w (BitVec.ofNat 4 s.fsm.cwIndex) true
      (s.setFsm { s.fsm with cwIndex := s.fsm.cwIndex + 1 }) :=
  if_neg h

/-! ### The expected sync word -/

/-- The misses count one more and stop at 255 (42 R166). -/
theorem countMiss_toNat (miss : BitVec 8) : (countMiss miss).toNat = min (miss.toNat + 1) 255 := by
  unfold countMiss
  split_ifs with hmax
  · rw [hmax]; rfl
  · bv_omega

theorem countMiss_eq (miss : BitVec 8) :
    countMiss miss = BitVec.ofNat 8 (min (miss.toNat + 1) 255) := by
  rw [← countMiss_toNat, BitVec.ofNat_toNat, BitVec.setWidth_eq]

/-- A sync word accepted, by numbers (42 R167). -/
theorem acceptSync_eq (flips : BitVec 2) (s : State) :
    acceptSync flips s =
      { s with
        fsm := { s.fsm with miss := 0, cwIndex := 0 }
        cnt := { s.cnt with batch := s.cnt.batch + 1 }
        evts := s.evts ++ [eventWord 0x21 flips.toNat] } := by
  rw [acceptSync, State.emit, batchSync_word]
  rfl

/-- A sync word missed, by numbers: tolerated within `SYNC_MISS_LIMIT`, else sync is lost with
reason 0 (42 R167, R170). -/
theorem missSync_eq {s : State} (h : s.msg.nc ≤ 256) :
    missSync .build s = .ok
      (if min (s.fsm.miss.toNat + 1) 255 ≤ s.csr.syncMissLimit.toNat then
        { s with
          fsm := { s.fsm with
            miss := BitVec.ofNat 8 (min (s.fsm.miss.toNat + 1) 255), cwIndex := 0 }
          evts := s.evts ++ [eventWord 0x22 (min (s.fsm.miss.toNat + 1) 255)] }
      else syncLostWith 0 s) := by
  rw [missSync, countMiss_toNat]
  split_ifs with hlost hkept hkept
  · omega
  · calc loseSync .build .syncMissed (s.setFsm { s.fsm with miss := countMiss s.fsm.miss })
        = .ok (syncLostWith 0 (s.setFsm { s.fsm with miss := countMiss s.fsm.miss })) :=
          loseSync_eq_syncLostWith .syncMissed h
      _ = .ok (syncLostWith 0 s) := congrArg _ (syncLostWith_setFsm 0 rfl)
  · rw [State.emit, syncMiss_word, countMiss_toNat, countMiss_eq]
    rfl
  · omega

/-- Settles O32: the word at position 16 is accepted (`acceptSync_eq`) or missed (`missSync_eq`). -/
theorem expectedSyncWord : Obligations.ExpectedSyncWord := by
  intro b s h hbitcnt hindex hnc f misses
  rw [exec_bitIn_of_wordEnd h hbitcnt, synchedWord_of_syncPosition (s := bitTaken f s) hindex,
    acceptSync_eq, missSync_eq (s := bitTaken f s) hnc, ← apply_ite Except.ok, answer_ok]
  rfl

/-! ### A data word -/

/-- The error window with one more word, by numbers (42 R169). -/
theorem pushErr_eq (f : Acquirer) (bad : Bool) :
    pushErr f bad = { f with errHist := BitVec.ofNat 16 (f.errHist.toNat * 2 + bad.toNat) } := by
  have hbit : (BitVec.setWidth 16 (BitVec.ofBool bad)).toNat = bad.toNat := by cases bad <;> rfl
  have hbad : bad.toNat < 2 ^ 1 := bad.toNat_lt
  have hshift : f.errHist.toNat <<< 1 % 2 ^ 16 = (f.errHist.toNat % 2 ^ 15) <<< 1 := by
    rw [Nat.shiftLeft_eq, Nat.shiftLeft_eq]
    omega
  have hwindow : f.errHist <<< 1 ||| BitVec.setWidth 16 (BitVec.ofBool bad) =
      BitVec.ofNat 16 (f.errHist.toNat * 2 + bad.toNat) := by
    apply BitVec.eq_of_toNat_eq
    rw [BitVec.toNat_or, BitVec.toNat_shiftLeft, hbit, hshift, ← Nat.shiftLeft_add_eq_or_of_lt hbad,
      Nat.shiftLeft_eq, BitVec.toNat_ofNat]
    omega
  rw [pushErr, hwindow]

/-- An uncorrectable word counted and marked, by numbers (42 R168). -/
theorem markUncorrectable_eq (s : State) :
    markUncorrectable s =
      { s with
        cnt := { s.cnt with cwUncorr := s.cnt.cwUncorr + 1 }
        msg := if s.msg.isOpen then { s.msg with err := true } else s.msg } := by
  unfold markUncorrectable
  split_ifs <;> rfl

/-- A corrected word from SYNCHED is CW_IN's, with a 0 entered in the error window first (42 R168).
-/
theorem countCorrected_true (flips : BitVec 2) (s : State) :
    countCorrected flips true s = correctedCounted flips (s.setFsm (pushErr s.fsm false)) := by
  rw [← countCorrected_eq_correctedCounted]
  rfl

/-- A correctable data word in SYNCHED is CW_IN of it, but for the error window (42 R168, 44 R230).
-/
theorem dataWord_of_corrected {w : Word} (hok : (correct w).ok = true) (slot : BitVec 4)
    (s : State) : answer (dataWord .build w slot true s) =
      exec (.cwIn w slot) (s.setFsm (pushErr s.fsm false)) := by
  rw [exec_cwIn_of_corrected hok, ← countCorrected_true]
  exact congrArg answer (if_pos hok)

/-- An uncorrectable data word in SYNCHED marks, then tests the error window (42 R168, R169). -/
theorem dataWord_of_uncorrectable {cfg : Config} {w : Word} (hfail : (correct w).ok = false)
    (slot : BitVec 4) (s : State) :
    dataWord cfg w slot true s = windowFailure cfg (markUncorrectable s) := by
  simp [dataWord, hfail]

/-- More than `ERR_LIMIT` failures among the last 16 words lose sync with reason 1 (42 R169, R170).
-/
theorem windowFailure_eq {s : State} (h : s.msg.nc ≤ 256) :
    windowFailure .build s = .ok
      (if s.csr.errLimit.toNat < weight (BitVec.setWidth 32 (pushErr s.fsm true).errHist) then
        syncLostWith 1 (s.setFsm (pushErr s.fsm true))
      else s.setFsm (pushErr s.fsm true)) := by
  rw [windowFailure, popcount_window_eq_weight,
    loseSync_eq_syncLostWith .errorRate (s := s.setFsm (pushErr s.fsm true)) h,
    ← apply_ite Except.ok]
  rfl

/-- Settles O33: a word at a position below 16 is corrected (`dataWord_of_corrected`) or enters a 1
in the error window (`windowFailure_eq`). -/
theorem synchedDataWord : Obligations.SynchedDataWord := by
  intro b s h hbitcnt hindex hsafe f u marked
  have hword : exec (.bitIn b) s = answer (dataWord .build f.sr (BitVec.ofNat 4 s.fsm.cwIndex) true
      (bitTaken f s)) := by
    rw [exec_bitIn_of_wordEnd h hbitcnt, synchedWord_of_dataPosition]
    · rfl
    · exact hindex.ne
  refine ⟨fun hok => ⟨?_, exec_safe (.bitIn b) hsafe⟩, fun hfail => ?_⟩
  · rw [hword, dataWord_of_corrected hok, pushErr_eq]
    rfl
  · have hnc : (markUncorrectable (bitTaken f s)).msg.nc ≤ 256 := by
      rw [markUncorrectable_msg]
      split_ifs <;> exact hsafe.1
    have hmarked : (markUncorrectable (bitTaken f s)).setFsm
        (pushErr (markUncorrectable (bitTaken f s)).fsm true) = marked := by
      rw [markUncorrectable_eq, pushErr_eq]
      rfl
    rw [hword, dataWord_of_uncorrectable hfail, windowFailure_eq hnc, hmarked, answer_ok,
      markUncorrectable_fsm, markUncorrectable_csr, pushErr_eq]
    rfl

/-! ### CW_IN -/

/-- Settles O43: CW_IN of an uncorrectable word only counts and marks (`markUncorrectable_eq`). -/
theorem cwInUncorrectable : Obligations.CwInUncorrectable := by
  intro w slot s hfail
  have hmark : dataWord .build w slot false s = .ok (markUncorrectable s) :=
    dataWord_ok.mpr (.inr (.inr ⟨hfail, rfl, rfl⟩))
  rw [← markUncorrectable_eq]
  exact congrArg answer hmark

end Sys2Proof.Machine
end

section
/-! PROOFS. Flips of a codeword, and the words corrected to the sync word (42 R167, 43 R191 to
R194). -/

namespace Sys2Proof.Machine

/-! ### The syndrome is linear -/

/-- The set bits of a sum, modulo 2 (43 R192). -/
theorem popcountBelow_xor (x y : Nat) : ∀ k,
    popcountBelow (x ^^^ y) k % 2 = (popcountBelow x k + popcountBelow y k) % 2
  | 0 => rfl
  | k + 1 => by
    have ih := popcountBelow_xor x y k
    have hbit : (x.testBit k ^^ y.testBit k).toNat % 2 =
        ((x.testBit k).toNat + (y.testBit k).toNat) % 2 := by
      cases x.testBit k <;> cases y.testBit k <;> rfl
    rw [popcountBelow, popcountBelow, popcountBelow, Nat.testBit_xor]
    omega

theorem oddParity_xor {n : Nat} (a b : BitVec n) :
    oddParity (a ^^^ b) = (oddParity a ^^ oddParity b) := by
  have hsum : popcount (a ^^^ b) % 2 = (popcount a % 2 + popcount b % 2) % 2 := by
    rw [← Nat.add_mod, popcount, BitVec.toNat_xor]
    exact popcountBelow_xor a.toNat b.toNat n
  rw [oddParity, oddParity, oddParity, hsum]
  rcases Nat.mod_two_eq_zero_or_one (popcount a) with ha | ha <;>
    rcases Nat.mod_two_eq_zero_or_one (popcount b) with hb | hb <;> rw [ha, hb] <;> rfl

/-- Reducing a sum is reducing both parts: where both subtract the generator it cancels (43 R191).
-/
theorem bchRemSteps_xor : ∀ (k : Nat) (a b : BitVec 31),
    bchRemSteps k (a ^^^ b) = bchRemSteps k a ^^^ bchRemSteps k b
  | 0, _, _ => rfl
  | k + 1, a, b => by
    rw [bchRemSteps, bchRemSteps, bchRemSteps, ← bchRemSteps_xor k, BitVec.getLsbD_xor]
    congr 1
    cases a.getLsbD (k + 10) <;> cases b.getLsbD (k + 10)
    · rfl
    · exact BitVec.xor_assoc a b _
    · change a ^^^ b ^^^ bchGen <<< k = a ^^^ bchGen <<< k ^^^ b
      ac_rfl
    · change a ^^^ b = a ^^^ bchGen <<< k ^^^ (b ^^^ bchGen <<< k)
      rw [BitVec.xor_comm b, ← BitVec.xor_assoc, BitVec.xor_assoc a, BitVec.xor_self,
        BitVec.xor_zero]

theorem bchRem_xor (a b : BitVec 31) : bchRem (a ^^^ b) = bchRem a ^^^ bchRem b := by
  rw [bchRem, bchRemSteps_xor, BitVec.extractLsb'_xor]
  rfl

theorem syndrome_xor (a b : Word) : syndrome (a ^^^ b) = syndrome a ^^^ syndrome b := by
  rw [syndrome, BitVec.extractLsb'_xor, bchRem_xor, oddParity_xor, ← BitVec.ofBool_xor_ofBool,
    ← BitVec.xor_append]
  rfl

/-! ### Patterns of at most two flips -/

/-- The patterns of no flip, one flip and two flips that `Correct` tries (43 R193). -/
def flipPatterns : List Word :=
  0 :: (singleFlips ++ doubleFlips)

theorem mem_flipPatterns {e : Word} :
    e ∈ flipPatterns ↔ e = 0 ∨ e ∈ singleFlips ∨ e ∈ doubleFlips := by
  rw [flipPatterns, List.mem_cons, List.mem_append]

theorem getLsbD_oneBit {k : Nat} (hk : k < 32) (i : Nat) :
    (oneBit i).getLsbD k = decide (i = k) := by
  rw [oneBit, ← BitVec.twoPow_eq, BitVec.getLsbD_twoPow]
  by_cases h : i = k <;> simp [h, hk]

theorem weight_of_mem_singleFlips {e : Word} (h : e ∈ singleFlips) : weight e = 1 := by
  obtain ⟨i, hi, rfl⟩ := mem_singleFlips.mp h
  exact (by decide +kernel : ∀ i < 32, weight (oneBit i) = 1) i hi

theorem weight_of_mem_doubleFlips {e : Word} (h : e ∈ doubleFlips) : weight e = 2 := by
  obtain ⟨i, j, hij, hj, rfl⟩ := mem_doubleFlips.mp h
  exact (by decide +kernel : ∀ j < 32, ∀ i < j, weight (oneBit i ^^^ oneBit j) = 2) j hj i hij

/-- The positions of a word's set bits, rising. -/
def setBits (e : Word) : List Nat :=
  (List.range 32).filter fun k => e.getLsbD k

theorem weight_eq_length_setBits (e : Word) : weight e = (setBits e).length := rfl

theorem lt_of_mem_setBits {e : Word} {k : Nat} (h : k ∈ setBits e) : k < 32 :=
  List.mem_range.mp (List.mem_of_mem_filter h)

theorem setBits_pairwise_lt (e : Word) : (setBits e).Pairwise (· < ·) :=
  List.pairwise_lt_range.filter _

/-- A word is known by the positions of its set bits. -/
theorem eq_of_setBits {e f : Word} (h : ∀ k < 32, f.getLsbD k = decide (k ∈ setBits e)) : e = f :=
  BitVec.eq_of_getLsbD_eq fun k hk => by
    rw [h k hk]
    simp [setBits, hk]

/-- A word of at most two set bits is one of the patterns, by the list of its set bits. -/
theorem mem_flipPatterns_of_weight_le {e : Word} (h : weight e ≤ 2) : e ∈ flipPatterns := by
  rw [weight_eq_length_setBits] at h
  have hlt : ∀ k ∈ setBits e, k < 32 := fun _ => lt_of_mem_setBits
  have hsorted := setBits_pairwise_lt e
  rw [mem_flipPatterns]
  match hbits : setBits e with
  | [] =>
    refine .inl (eq_of_setBits fun k hk => ?_)
    simp [hbits]
  | [i] =>
    refine .inr (.inl (mem_singleFlips.mpr ⟨i, hlt i (by simp [hbits]), ?_⟩))
    refine eq_of_setBits fun k hk => ?_
    rw [hbits, getLsbD_oneBit hk]
    simp [eq_comm]
  | [i, j] =>
    have hij : i < j := by simpa [hbits] using hsorted
    refine .inr (.inr (mem_doubleFlips.mpr ⟨i, j, hij, hlt j (by simp [hbits]), ?_⟩))
    refine eq_of_setBits fun k hk => ?_
    rw [hbits, BitVec.getLsbD_xor, getLsbD_oneBit hk, getLsbD_oneBit hk]
    rcases Nat.lt_trichotomy k i with hki | rfl | hki
    · simp [hki.ne, hki.ne', (hki.trans hij).ne, (hki.trans hij).ne']
    · simp [hij.ne, hij.ne']
    · simp [hki.ne, hki.ne', eq_comm]
  | _ :: _ :: _ :: _ =>
    rw [hbits] at h
    simp at h

/-! ### Different patterns have different syndromes -/

/-- No number occurs twice in a list or among the set bits of `seen`. -/
def distinctFrom : Nat → List Nat → Bool
  | _, [] => true
  | seen, v :: vs => !seen.testBit v && distinctFrom (seen ||| 2 ^ v) vs

theorem nodup_of_distinctFrom : ∀ {vs : List Nat} {seen : Nat}, distinctFrom seen vs = true →
    vs.Nodup ∧ ∀ v ∈ vs, seen.testBit v = false
  | [], _, _ => ⟨List.nodup_nil, nofun⟩
  | v :: vs, seen, h => by
    rw [distinctFrom, Bool.and_eq_true, Bool.not_eq_true'] at h
    obtain ⟨hv, hvs⟩ := h
    obtain ⟨hnodup, hunseen⟩ := nodup_of_distinctFrom hvs
    have hunseen : ∀ u ∈ vs, seen.testBit u = false ∧ v ≠ u := fun u hu => by
      simpa [Nat.testBit_or, Nat.testBit_two_pow] using hunseen u hu
    refine ⟨List.nodup_cons.mpr ⟨fun hmem => (hunseen v hmem).2 rfl, hnodup⟩, fun u hu => ?_⟩
    rcases List.mem_cons.mp hu with rfl | hu
    · exact hv
    · exact (hunseen u hu).1

/-- The 529 patterns have 529 syndromes: the code's distance is at least 5 (43 R194). -/
theorem syndrome_injOn_flipPatterns {e f : Word} (he : e ∈ flipPatterns) (hf : f ∈ flipPatterns)
    (h : syndrome e = syndrome f) : e = f := by
  have hdistinct : distinctFrom 0 (flipPatterns.map fun e => (syndrome e).toNat) = true := by
    decide +kernel
  exact List.inj_on_of_nodup_map (nodup_of_distinctFrom hdistinct).1 he hf (congrArg BitVec.toNat h)

/-! ### Flips of a codeword are undone -/

/-- From a codeword with one pattern of flips, another pattern leads to a codeword only when it
undoes the first (43 R194). -/
theorem isCodeword_flipped_iff {v e f : Word} (hv : syndrome v = 0) (he : e ∈ flipPatterns)
    (hf : f ∈ flipPatterns) : isCodeword (v ^^^ e ^^^ f) = true ↔ f = e := by
  have hsyndrome : syndrome (v ^^^ e ^^^ f) = syndrome e ^^^ syndrome f := by
    simp [syndrome_xor, hv]
  rw [isCodeword, beq_iff_eq, hsyndrome]
  refine ⟨fun h => ?_, fun h => by rw [h, BitVec.xor_self]; rfl⟩
  exact (syndrome_injOn_flipPatterns he hf (BitVec.xor_eq_zero_iff.mp h)).symm

/-- A search among patterns finds the flips themselves, when they are among them (43 R193). -/
theorem firstFlip_flipped {v e : Word} (hv : syndrome v = 0) (he : e ∈ flipPatterns)
    {flips : List Word} (hflips : flips ⊆ flipPatterns) :
    firstFlip (v ^^^ e) flips = if e ∈ flips then some e else none := by
  split_ifs with hmem
  · cases hfirst : firstFlip (v ^^^ e) flips with
    | none =>
      have hnot := firstFlip_none.mp hfirst e hmem
      rw [(isCodeword_flipped_iff hv he he).mpr rfl] at hnot
      cases hnot
    | some f =>
      obtain ⟨hf, hcode⟩ := firstFlip_some hfirst
      rw [(isCodeword_flipped_iff hv he (hflips hf)).mp hcode]
  · refine firstFlip_none.mpr fun f hf => Bool.eq_false_of_not_eq_true fun hcode => ?_
    exact hmem ((isCodeword_flipped_iff hv he (hflips hf)).mp hcode ▸ hf)

/-- At most two flips of a codeword are undone and counted (43 R193, R194). -/
theorem correct_flipped {v e : Word} (hv : syndrome v = 0) (he : e ∈ flipPatterns) :
    correct (v ^^^ e) = ⟨true, v, BitVec.ofNat 2 (weight e)⟩ := by
  have hzero : isCodeword (v ^^^ e) = true ↔ 0 = e := by
    simpa using isCodeword_flipped_iff (f := 0) hv he (mem_flipPatterns.mpr (.inl rfl))
  have hundo : v ^^^ e ^^^ e = v := by rw [BitVec.xor_assoc, BitVec.xor_self, BitVec.xor_zero]
  have hsingle := firstFlip_flipped hv he (flips := singleFlips)
    fun f hf => mem_flipPatterns.mpr (.inr (.inl hf))
  have hdouble := firstFlip_flipped hv he (flips := doubleFlips)
    fun f hf => mem_flipPatterns.mpr (.inr (.inr hf))
  have hweight : weight 0 = 0 := by decide
  rcases mem_flipPatterns.mp he with rfl | hmem | hmem
  · rw [correct, if_pos (hzero.mpr rfl), hweight]
    exact congrArg (Correction.mk true · 0) BitVec.xor_zero
  · have hone := weight_of_mem_singleFlips hmem
    have hne : (0 : Word) ≠ e := by rintro rfl; omega
    rw [correct, if_neg (mt hzero.mp hne), hsingle, if_pos hmem, hone]
    exact congrArg (Correction.mk true · 1) hundo
  · have htwo := weight_of_mem_doubleFlips hmem
    have hne : (0 : Word) ≠ e := by rintro rfl; omega
    have hnot : e ∉ singleFlips := fun hmem => by
      have := weight_of_mem_singleFlips hmem
      omega
    rw [correct, if_neg (mt hzero.mp hne), hsingle, if_neg hnot, hdouble, if_pos hmem, htwo]
    exact congrArg (Correction.mk true · 2) hundo

/-- A correction flips by one of the patterns (43 R193). -/
theorem correct_word_of_ok {w : Word} (h : (correct w).ok = true) :
    ∃ e ∈ flipPatterns, (correct w).word = w ^^^ e := by
  rcases correct_cases w with ⟨-, hw⟩ | ⟨-, e, he, hw⟩ | ⟨-, -, e, he, hw⟩ | ⟨-, -, -, hw⟩
  · exact ⟨0, mem_flipPatterns.mpr (.inl rfl), by simp [hw]⟩
  · exact ⟨e, mem_flipPatterns.mpr (.inr (.inl (firstFlip_some he).1)), by rw [hw]⟩
  · exact ⟨e, mem_flipPatterns.mpr (.inr (.inr (firstFlip_some he).1)), by rw [hw]⟩
  · rw [hw] at h
    cases h

theorem weight_le_of_mem_flipPatterns {e : Word} (h : e ∈ flipPatterns) : weight e ≤ 2 := by
  rcases mem_flipPatterns.mp h with rfl | h | h
  · decide
  · rw [weight_of_mem_singleFlips h]; omega
  · rw [weight_of_mem_doubleFlips h]

/-- The same flips twice change nothing. -/
theorem xor_xor_cancel (a b : Word) : a ^^^ (a ^^^ b) = b := by
  rw [← BitVec.xor_assoc, BitVec.xor_self, BitVec.zero_xor]

/-- Settles O42: a correction flips by a pattern, and a pattern of flips of the sync word, which is
a codeword, is undone (`correct_flipped`). -/
theorem syncWordWithinTwo : Obligations.SyncWordWithinTwo := by
  have hsync : syndrome syncWord = 0 := by decide +kernel
  intro w
  constructor
  · rintro ⟨hok, hword⟩
    obtain ⟨e, he, hflip⟩ := correct_word_of_ok hok
    have hdistance : w ^^^ 0x7CD215D8#32 = e := by
      rw [show 0x7CD215D8#32 = w ^^^ e from hword.symm.trans hflip, xor_xor_cancel]
    rw [hdistance]
    exact weight_le_of_mem_flipPatterns he
  · intro hweight
    have hflipped : syncWord ^^^ (w ^^^ syncWord) = w := by
      rw [BitVec.xor_comm w, xor_xor_cancel]
    have hcorrect := correct_flipped hsync (mem_flipPatterns_of_weight_le hweight)
    change correct (syncWord ^^^ (w ^^^ syncWord)) = _ at hcorrect
    rw [hflipped] at hcorrect
    rw [hcorrect]
    exact ⟨rfl, rfl⟩

end Sys2Proof.Machine
end

section
/-! PROOFS. A message word with a unit too many truncates the message and hands it out (44 R219 to
R224). -/

namespace Sys2Proof.Machine

/-- The message register of a message handed out at capacity (44 R219, R223). -/
def overflowed (r : MsgReg) (cap : Nat) : MsgReg :=
  { r with bits := 0, nb := 0, trunc := true, nc := max r.nc cap }

/-- At capacity the register is handed out with the characters it holds. -/
theorem overflowed_of_full {r : MsgReg} {cap : Nat} (h : cap ≤ r.nc) :
    overflowed r cap = truncatedMsg r := by
  rw [overflowed, max_eq_left h]
  rfl

theorem overflowed_withBit (r : MsgReg) (b : Bool) (cap : Nat) :
    overflowed (withBit r b) cap = overflowed r cap := rfl

/-- A character stored below the capacity is one of those up to it. -/
theorem overflowed_withUnit {r : MsgReg} {cap : Nat} (h : r.nc < cap) :
    overflowed (withUnit r) cap = overflowed r cap := by
  have hmax : max (r.nc + 1) cap = max r.nc cap := by omega
  rw [overflowed, overflowed, ← hmax]
  rfl

/-- Bits that complete a unit too many: the units below the capacity stored, then the message
truncated and handed out, the bits after it dropped (44 R219, R223). -/
theorem accumBits_of_overflow {cfg : Config} (bs : List Bool) {s : State} (h : UnitInRange s.msg)
    (ho : s.msg.isOpen = true) (hnc : s.msg.nc ≤ cfg.maxCap) (hcap : s.csr.cap.toNat ≤ cfg.maxCap)
    (hunits : 0 < unitsWith s.msg bs)
    (hover : s.csr.cap.toNat < s.msg.nc + unitsWith s.msg bs) :
    ∃ m, accumBits cfg bs s =
        .ok (finalized ((s.setBuf m).setMsg (overflowed s.msg s.csr.cap.toNat))) ∧
      UnitsStored s.msg s.csr.placeholder bs (s.csr.cap.toNat - s.msg.nc) s.buf m := by
  induction bs generalizing s with
  | nil => rw [unitsWith_nil h] at hunits; omega
  | cons b bs ih =>
    by_cases hw : s.msg.nb + 1 = s.msg.kind.width
    · rcases Nat.lt_or_ge s.msg.nc s.csr.cap.toNat with hroom | hfull
      · rw [unitsWith_cons_of_complete hw] at hover
        have hunit : accum cfg b s = .ok (appended (addBit s.msg b) s) :=
          accum_ok.mpr (.inl ⟨hw, appendUnit_ok.mpr (.inr ⟨hroom, by omega, rfl⟩)⟩)
        have hover' : s.csr.cap.toNat < s.msg.nc + 1 + unitsWith (withUnit s.msg) bs := by omega
        have hunits' : 0 < unitsWith (withUnit s.msg) bs := by omega
        obtain ⟨m, hm, hstored⟩ := ih (s := appended (addBit s.msg b) s) (withUnit_inRange s.msg) ho
          (hroom.trans_le hcap) hcap hunits' hover'
        have hleft : s.csr.cap.toNat - s.msg.nc = s.csr.cap.toNat - (s.msg.nc + 1) + 1 := by omega
        refine ⟨m, ?_, hleft ▸ .of_withUnit h hw hstored⟩
        rw [← overflowed_withUnit hroom]
        exact accumBits_cons.mpr ⟨_, hunit, .inl ⟨ho, hm⟩⟩
      · have hunit : accum cfg b s = .ok (finalized (s.setMsg (truncatedMsg s.msg))) :=
          accum_ok.mpr (.inl ⟨hw, appendUnit_ok.mpr (.inl ⟨hfull, hnc, rfl⟩)⟩)
        refine ⟨s.buf, ?_, (Nat.sub_eq_zero_of_le hfull).symm ▸ .zero _ _ _ _⟩
        rw [overflowed_of_full hfull]
        refine accumBits_cons.mpr ⟨_, hunit, .inr ⟨?_, rfl⟩⟩
        rw [finalized_msg]
        rfl
    · have hbits := unitsWith_withBit s.msg b bs
      obtain ⟨m, hm, hstored⟩ := ih (s := s.setMsg (withBit s.msg b)) (h.withBit hw b) ho hnc hcap
        (hbits.symm ▸ hunits) (hbits.symm ▸ hover)
      have hbit : accum cfg b s = .ok (s.setMsg (withBit s.msg b)) := accum_ok.mpr (.inr ⟨hw, rfl⟩)
      refine ⟨m, ?_, .of_withBit h hstored⟩
      rw [← overflowed_withBit s.msg b]
      exact accumBits_cons.mpr ⟨_, hbit, .inl ⟨ho, hm⟩⟩

/-- A message word completes at least two units (44 R216, R219). -/
theorem unitsCompleted_pos (r : MsgReg) : 0 < unitsCompleted r :=
  Nat.div_pos (by have := r.kind.width_le; omega) r.kind.width_pos

/-- Settles O48: a message word is parsed as its payload bits (`parse_of_messageWord`), which
complete a unit too many (`accumBits_of_overflow`), and the truncated message is handed out
(`finalized_eq_handedOut`). -/
theorem messageWordOverflows : Obligations.MessageWordOverflows := by
  intro w slot s hok hc ho hmsg hcap hover
  obtain ⟨hnb, hbits, hnc, -⟩ := hmsg
  have hunits := unitsCompleted_pos s.msg
  rw [← unitsWith_payloadBits s.msg (correct w).word] at hover hunits
  obtain ⟨m, hm, hstored⟩ := accumBits_of_overflow (cfg := .build) (payloadBits (correct w).word)
    (s := correctedCounted (correct w).flips s) ⟨hnb, hbits⟩ ho hnc hcap hunits hover
  have hout := finalized_eq_handedOut (s := ((correctedCounted (correct w).flips s).setBuf m).setMsg
    (overflowed s.msg s.csr.cap.toNat)) ho (Nat.lt_of_le_of_lt (max_le hnc hcap) (by decide))
  refine ⟨m, ?_, fun k => ?_⟩
  · rw [exec_cwIn_of_corrected hok,
      parse_of_messageWord hc (s := correctedCounted (correct w).flips s) ho, hm, answer_ok]
    exact congrArg Host.Outcome.next hout
  · have hread : m.read k = if s.msg.nc ≤ k ∧ k < s.msg.nc + (s.csr.cap.toNat - s.msg.nc) then
        characterOf s.msg.kind s.csr.placeholder (unitOf s.msg.kind.width
          (streamWith s.msg (payloadBits (correct w).word)) (k - s.msg.nc))
      else s.buf.read k := hstored k
    rw [hread, streamWith_payloadBits]
    exact if_congr (by omega) rfl rfl

end Sys2Proof.Machine
end

section
/-! PROOFS. From a clean preamble the search acquires on the last bit of the sync word and not
before (42 R161, R164, R171). -/

namespace Sys2Proof.Machine

/-! ### Commands one after another -/

theorem execAll_append_eq_next {is js : List Instr} {s t : State} :
    execAll (is ++ js) s = .next t ↔ ∃ u, execAll is s = .next u ∧ execAll js u = .next t := by
  induction is generalizing s with
  | nil => simp [execAll]
  | cons i is ih =>
    simp only [List.cons_append, execAll_cons_eq_next, ih]
    constructor
    · rintro ⟨v, hv, u, hu, ht⟩
      exact ⟨u, ⟨v, hv, hu⟩, ht⟩
    · rintro ⟨u, ⟨v, hv, hu⟩, ht⟩
      exact ⟨v, hv, u, hu, ht⟩

/-- One more command after others. -/
theorem execAll_append_singleton {is : List Instr} {i : Instr} {s u t : State}
    (hu : execAll is s = .next u) (ht : exec i u = .next t) : execAll (is ++ [i]) s = .next t :=
  execAll_append_eq_next.mpr ⟨u, hu, execAll_cons_eq_next.mpr ⟨t, ht, rfl⟩⟩

/-! ### Searching on -/

/-- The shift register with one more bit (42 R161). -/
def shiftedIn (sr : Word) (b : Bool) : Word :=
  sr <<< 1 ||| BitVec.setWidth 32 (BitVec.ofBool b)

/-- The second state searches on with the window `sr`, the first one's configuration and no new
event. -/
def SearchesOn (s : State) (sr : Word) (t : State) : Prop :=
  t.fsm.state = .searchSync ∧ t.fsm.sr = sr ∧ t.csr = s.csr ∧ t.evts = s.evts

/-- A bit that leaves a window too far from the sync word is only recorded (42 R164). -/
theorem SearchesOn.exec_bitIn {s u : State} {sr : Word} {b : Bool} (h : SearchesOn s sr u)
    (hfar : s.csr.softThreshold.toNat < syncDistance (shiftedIn sr b)) :
    ∃ t, exec (.bitIn b) u = .next t ∧ SearchesOn s (shiftedIn sr b) t := by
  obtain ⟨hstate, rfl, hcsr, hevts⟩ := h
  rw [← hcsr] at hfar
  have hstep : stepSearchSync (recordBit b u) = recordBit b u := if_neg (not_le.mpr hfar)
  refine ⟨recordBit b u, ?_, hstate, rfl, hcsr, hevts⟩
  rw [exec_bitIn_of_searchSync hstate, hstep]

/-- A bit that completes the sync word acquires, with distance 0 (42 R164). -/
theorem SearchesOn.exec_bitIn_of_syncWord {s u : State} {sr : Word} {b : Bool}
    (h : SearchesOn s sr u) (hsync : shiftedIn sr b = syncWord) :
    ∃ t, exec (.bitIn b) u = .next t ∧ t.fsm.state = .synched ∧ t.fsm.sr = syncWord ∧
      t.evts = s.evts ++ [eventWord 0x20 0] := by
  obtain ⟨hstate, rfl, -, hevts⟩ := h
  have hdistance : syncDistance (recordBit b u).fsm.sr = 0 := by
    change syncDistance (shiftedIn u.fsm.sr b) = 0
    rw [hsync]
    decide
  have hstep : stepSearchSync (recordBit b u) = acquire 0 (recordBit b u) := by
    rw [stepSearchSync, hdistance, if_pos (Nat.zero_le _)]
  refine ⟨acquire 0 (recordBit b u), ?_, rfl, hsync, ?_⟩
  · rw [exec_bitIn_of_searchSync hstate, hstep]
  · rw [acquire, State.emit_evts, syncAcquired_word, ← hevts]
    rfl

/-! ### The preamble -/

/-- The two phases of an alternating window (42 R171). -/
def IsPreamble (sr : Word) : Prop :=
  sr = 0xAAAAAAAA ∨ sr = 0x55555555

/-- One more alternating bit leaves the window of the other phase, far from the sync word. -/
theorem IsPreamble.next {sr : Word} (h : IsPreamble sr) :
    shiftedIn sr (!sr.getLsbD 0) = ~~~sr ∧ IsPreamble (~~~sr) ∧ 11 ≤ syncDistance (~~~sr) := by
  rcases h with rfl | rfl
  · exact ⟨by decide, .inr (by decide), by decide⟩
  · exact ⟨by decide, .inl (by decide), by decide⟩

/-- The window after `n` more bits of a preamble. -/
def preambleWindow (sr : Word) (n : Nat) : Word :=
  if n % 2 = 0 then sr else ~~~sr

theorem IsPreamble.window {sr : Word} (h : IsPreamble sr) (n : Nat) :
    IsPreamble (preambleWindow sr n) := by
  unfold preambleWindow
  split_ifs
  · exact h
  · exact h.next.2.1

/-- Bit `n` of the preamble is the opposite of the last bit in the window. -/
theorem preambleBit_eq (sr : Word) (n : Nat) :
    (decide (n % 2 = 0) != sr.getLsbD 0) = !(preambleWindow sr n).getLsbD 0 := by
  unfold preambleWindow
  split_ifs with h <;> simp [h]

theorem preambleWindow_succ (sr : Word) (n : Nat) :
    preambleWindow sr (n + 1) = ~~~preambleWindow sr n := by
  unfold preambleWindow
  rcases Nat.mod_two_eq_zero_or_one n with h | h
  · rw [if_neg (by omega), if_pos h]
  · rw [if_pos (by omega), if_neg (by omega), BitVec.not_not]

/-- Preamble bits alone never acquire (42 R171). -/
theorem execAll_preamble {s : State} (hstate : s.fsm.state = .searchSync)
    (hsoft : s.csr.softThreshold.toNat ≤ 10) (hpre : IsPreamble s.fsm.sr) : ∀ n : Nat,
    ∃ t, execAll ((List.range n).map fun k =>
        .bitIn (decide (k % 2 = 0) != s.fsm.sr.getLsbD 0)) s = .next t ∧
      SearchesOn s (preambleWindow s.fsm.sr n) t
  | 0 => ⟨s, rfl, hstate, rfl, rfl, rfl⟩
  | n + 1 => by
    obtain ⟨u, hu, hsearch⟩ := execAll_preamble hstate hsoft hpre n
    obtain ⟨hshift, -, hdistance⟩ := (hpre.window n).next
    rw [← preambleBit_eq] at hshift
    obtain ⟨t, ht, hnext⟩ := hsearch.exec_bitIn (by rw [hshift]; omega)
    rw [hshift, ← preambleWindow_succ] at hnext
    refine ⟨t, ?_, hnext⟩
    rw [List.range_succ, List.map_append]
    exact execAll_append_singleton hu ht

/-! ### The sync word after the preamble -/

/-- Bit `k` of the sync word in transmission order (20 R75). -/
def syncBit (k : Nat) : Bool :=
  syncWord.getLsbD (31 - k)

/-- The window after `j` bits of the sync word. -/
def syncWindow (sr : Word) : Nat → Word
  | 0 => sr
  | j + 1 => shiftedIn (syncWindow sr j) (syncBit j)

/-- Every window but the last is far from the sync word, and the last is the sync word (42 R171). -/
theorem IsPreamble.windows_far {sr : Word} (h : IsPreamble sr) :
    (∀ j < 32, 11 ≤ syncDistance (syncWindow sr j)) ∧ syncWindow sr 32 = syncWord := by
  rcases h with rfl | rfl <;> exact ⟨by decide +kernel, by decide⟩

/-- The bits of the sync word but the last do not acquire (42 R171). -/
theorem execAll_syncBits {s u : State} {sr : Word} (hsoft : s.csr.softThreshold.toNat ≤ 10)
    (hpre : IsPreamble sr) (hsearch : SearchesOn s sr u) : ∀ j < 32,
    ∃ t, execAll ((List.range j).map fun k => .bitIn (syncBit k)) u = .next t ∧
      SearchesOn s (syncWindow sr j) t
  | 0, _ => ⟨u, rfl, hsearch⟩
  | j + 1, hj => by
    obtain ⟨v, hv, hsearch⟩ := execAll_syncBits hsoft hpre hsearch j (by omega)
    have hdistance : 11 ≤ syncDistance (shiftedIn (syncWindow sr j) (syncBit j)) :=
      hpre.windows_far.1 (j + 1) hj
    obtain ⟨t, ht, hnext⟩ := hsearch.exec_bitIn (b := syncBit j) (by omega)
    refine ⟨t, ?_, hnext⟩
    rw [List.range_succ, List.map_append]
    exact execAll_append_singleton hv ht

/-- Settles O57: preamble bits (`execAll_preamble`), then the bits of the sync word but the last
(`execAll_syncBits`), then the last (`exec_bitIn_of_syncWord`). -/
theorem syncWindowsFar : Obligations.SyncWindowsFar := by
  intro s n hstate hsoft hpre stream
  obtain ⟨u, hu, hpreamble⟩ := execAll_preamble hstate hsoft hpre n
  have hwindow : IsPreamble (preambleWindow s.fsm.sr n) := IsPreamble.window hpre n
  have hbits : ∀ j < 32, ∃ t, execAll (stream j) s = .next t ∧
      SearchesOn s (syncWindow (preambleWindow s.fsm.sr n) j) t := fun j hj => by
    obtain ⟨t, ht, hsearch⟩ := execAll_syncBits hsoft hwindow hpreamble j hj
    exact ⟨t, execAll_append_eq_next.mpr ⟨u, hu, ht⟩, hsearch⟩
  constructor
  · intro j hj
    obtain ⟨t, ht, htstate, htsr, -, htevts⟩ := hbits j hj
    exact ⟨t, ht, htstate, htsr ▸ hwindow.windows_far.1 j hj, htevts⟩
  · obtain ⟨t, ht, hsearch⟩ := hbits 31 (by decide)
    obtain ⟨v, hv, hacquired⟩ :=
      hsearch.exec_bitIn_of_syncWord (b := syncBit 31) hwindow.windows_far.2
    refine ⟨v, ?_, hacquired⟩
    have hlast : stream 32 = stream 31 ++ [.bitIn (syncBit 31)] := by
      simp only [stream, List.range_succ (n := 31), List.map_append, List.append_assoc]
      rfl
    rw [hlast]
    exact execAll_append_singleton ht hv

end Sys2Proof.Machine
end

section
/-! PROOFS. How the frame acquirer's state moves, and what is counted when it does (42 R160 to
R170). -/

namespace Sys2Proof.Machine

/-! ### Staying in SYNCHED or losing sync -/

/-- The frame acquirer's state and its two counters are as they were. -/
def StateKept (s t : State) : Prop :=
  t.fsm.state = s.fsm.state ∧ t.cnt.syncAcq = s.cnt.syncAcq ∧ t.cnt.syncLost = s.cnt.syncLost

/-- Sync was lost once, and no acquisition counted (42 R170). -/
def SyncLostOnce (s t : State) : Prop :=
  t.fsm.state = .searchPreambleStart ∧ t.cnt.syncAcq = s.cnt.syncAcq ∧
    t.cnt.syncLost = s.cnt.syncLost + 1

theorem StateKept.refl (s : State) : StateKept s s := ⟨rfl, rfl, rfl⟩

theorem StateKept.trans {s t u : State} (h : StateKept s t) (k : StateKept t u) :
    StateKept s u := by
  obtain ⟨hstate, hacq, hlost⟩ := h
  obtain ⟨kstate, kacq, klost⟩ := k
  exact ⟨kstate.trans hstate, kacq.trans hacq, klost.trans hlost⟩

theorem StateKept.lostOnce {s t u : State} (h : StateKept s t) (k : SyncLostOnce t u) :
    SyncLostOnce s u := by
  obtain ⟨-, hacq, hlost⟩ := h
  obtain ⟨kstate, kacq, klost⟩ := k
  exact ⟨kstate, kacq.trans hacq, klost.trans (by rw [hlost])⟩

/-- The counters of words and messages are not the frame acquirer's. -/
theorem CountsOnly.stateKept {s t : State} (h : CountsOnly wordCounters s t)
    (hfsm : t.fsm = s.fsm) : StateKept s t :=
  ⟨congrArg _ hfsm, h .syncAcq (by decide), h .syncLost (by decide)⟩

theorem loseSync_lostOnce {cfg : Config} {reason : LossReason} {s t : State}
    (h : loseSync cfg reason s = .ok t) : SyncLostOnce s t := by
  obtain ⟨u, hu, rfl⟩ := loseSync_ok.mp h
  have hcounts := finalizeIfOpen_countsOnly hu
  exact ⟨rfl, hcounts .syncAcq (by decide), congrArg (· + 1) (hcounts .syncLost (by decide))⟩

theorem windowFailure_moves {cfg : Config} {s t : State} (h : windowFailure cfg s = .ok t) :
    StateKept s t ∨ SyncLostOnce s t := by
  rcases windowFailure_ok.mp h with ⟨-, h⟩ | ⟨-, rfl⟩
  · have hlost := loseSync_lostOnce h
    exact .inr hlost
  · exact .inl ⟨rfl, rfl, rfl⟩

theorem missSync_moves {cfg : Config} {s t : State} (h : missSync cfg s = .ok t) :
    StateKept s t ∨ SyncLostOnce s t := by
  rcases missSync_ok.mp h with ⟨-, h⟩ | ⟨-, rfl⟩
  · have hlost := loseSync_lostOnce h
    exact .inr hlost
  · exact .inl ⟨rfl, rfl, rfl⟩

/-- A data word from SYNCHED loses sync only by the error window (42 R168, R169). -/
theorem dataWord_moves {cfg : Config} {w : Word} {slot : BitVec 4} {f : Bool} {s t : State}
    (h : dataWord cfg w slot f s = .ok t) : StateKept s t ∨ SyncLostOnce s t := by
  have hmarked : StateKept s (markUncorrectable s) :=
    (markUncorrectable_countsOnly s).stateKept (markUncorrectable_fsm s)
  rcases dataWord_ok.mp h with ⟨-, h⟩ | ⟨-, -, h⟩ | ⟨-, -, rfl⟩
  · have hcounts := parse_countCorrected_countsOnly h
    obtain ⟨-, -, -, hfsm, -⟩ := parse_keeps h
    have hstate : t.fsm.state = s.fsm.state := by
      rw [hfsm, countCorrected_fsm]
      split_ifs <;> rfl
    exact .inl ⟨hstate, hcounts .syncAcq (by decide), hcounts .syncLost (by decide)⟩
  · exact (windowFailure_moves h).imp hmarked.trans hmarked.lostOnce
  · exact .inl hmarked

/-- A whole word in SYNCHED keeps sync or loses it once (42 R166). -/
theorem synchedWord_moves {cfg : Config} {w : Word} {s t : State}
    (h : synchedWord cfg w s = .ok t) : StateKept s t ∨ SyncLostOnce s t := by
  rcases synchedWord_ok h with ⟨-, -, -, rfl⟩ | ⟨-, -, h⟩ | ⟨-, h⟩
  · exact .inl ⟨rfl, rfl, rfl⟩
  · exact missSync_moves h
  · have hmoves := dataWord_moves h
    exact hmoves

/-! ### One bit -/

/-- The transitions the spec infers (42 R160). -/
def transitions : List (FsmState × FsmState) :=
  [(.searchPreambleStart, .searchPreambleEnd), (.searchPreambleEnd, .searchSync),
    (.searchPreambleEnd, .searchPreambleStart), (.searchSync, .synched),
    (.synched, .searchPreambleStart)]

/-- The state stays or takes one of the transitions, and each acquisition and loss is counted (42
R160, R164, R170). -/
def AcquirerMoves (s t : State) : Prop :=
  (t.fsm.state = s.fsm.state ∨ (s.fsm.state, t.fsm.state) ∈ transitions) ∧
  t.cnt.syncAcq = s.cnt.syncAcq +
    (if s.fsm.state = .searchSync ∧ t.fsm.state = .synched then 1 else 0) ∧
  t.cnt.syncLost = s.cnt.syncLost +
    (if s.fsm.state = .synched ∧ t.fsm.state = .searchPreambleStart then 1 else 0)

theorem StateKept.moves {s t : State} (h : StateKept s t) : AcquirerMoves s t := by
  obtain ⟨hstate, hacq, hlost⟩ := h
  refine ⟨.inl hstate, ?_, ?_⟩
  · rw [hacq, hstate, if_neg (by rintro ⟨hs, hs'⟩; simp [hs] at hs')]
    exact (BitVec.add_zero _).symm
  · rw [hlost, hstate, if_neg (by rintro ⟨hs, hs'⟩; simp [hs] at hs')]
    exact (BitVec.add_zero _).symm

/-- A move within the search for a preamble and a sync word counts nothing (42 R162, R163). -/
theorem AcquirerMoves.of_search {s t : State} (hmove : (s.fsm.state, t.fsm.state) ∈ transitions)
    (hacquired : t.fsm.state ≠ .synched) (hsynched : s.fsm.state ≠ .synched)
    (hcnt : t.cnt.syncAcq = s.cnt.syncAcq ∧ t.cnt.syncLost = s.cnt.syncLost) :
    AcquirerMoves s t := by
  obtain ⟨hacq, hlost⟩ := hcnt
  refine ⟨.inr hmove, ?_, ?_⟩
  · rw [hacq, if_neg fun h => hacquired h.2]
    exact (BitVec.add_zero _).symm
  · rw [hlost, if_neg fun h => hsynched h.1]
    exact (BitVec.add_zero _).symm

theorem SyncLostOnce.moves {s t : State} (h : SyncLostOnce s t) (hs : s.fsm.state = .synched) :
    AcquirerMoves s t := by
  obtain ⟨hstate, hacq, hlost⟩ := h
  rw [AcquirerMoves, hs, hstate]
  exact ⟨.inr (by decide), hacq.trans (BitVec.add_zero _).symm, hlost⟩

theorem stepPreambleStart_moves {s : State} (hs : s.fsm.state = .searchPreambleStart) :
    AcquirerMoves s (stepPreambleStart s) := by
  unfold stepPreambleStart
  split_ifs
  · refine .of_search ?_ ?_ ?_ ⟨rfl, rfl⟩ <;> simp [hs, transitions]
  · exact (StateKept.refl s).moves

theorem stepPreambleEnd_moves {s : State} (hs : s.fsm.state = .searchPreambleEnd) (brk : Bool)
    (altPrev : BitVec 16) : AcquirerMoves s (stepPreambleEnd brk altPrev s) := by
  unfold stepPreambleEnd
  cases brk with
  | true =>
    by_cases hlong : s.csr.preMinLen.toNat ≤ altPrev.toNat
    · refine .of_search ?_ ?_ ?_ ⟨rfl, rfl⟩ <;> simp [hs, hlong, transitions]
    · refine .of_search ?_ ?_ ?_ ⟨rfl, rfl⟩ <;> simp [hs, hlong, transitions]
  | false => exact (StateKept.refl s).moves

theorem stepSearchSync_moves {s : State} (hs : s.fsm.state = .searchSync) :
    AcquirerMoves s (stepSearchSync s) := by
  unfold stepSearchSync
  split_ifs
  · have hstate : (acquire (syncDistance s.fsm.sr) s).fsm.state = .synched := rfl
    rw [AcquirerMoves, hs, hstate]
    exact ⟨.inr (by decide), rfl, (BitVec.add_zero _).symm⟩
  · exact (StateKept.refl s).moves

/-- Taking a bit leaves the state and the two counters to the state's own rule (42 R161). -/
theorem AcquirerMoves.of_recordBit {b : Bool} {s t : State} (h : AcquirerMoves (recordBit b s) t) :
    AcquirerMoves s t := h

/-- A bit moves the frame acquirer along a transition or not at all (42 R160). -/
theorem fsmBit_moves {cfg : Config} {b : Bool} {s t : State} (h : fsmBit cfg b s = .ok t) :
    AcquirerMoves s t := by
  rcases fsmBit_ok h with ⟨hs, rfl⟩ | ⟨hs, rfl⟩ | ⟨hs, rfl⟩ | ⟨hs, -, h⟩ | ⟨-, -, rfl⟩
  · exact .of_recordBit (stepPreambleStart_moves (s := recordBit b s) hs)
  · exact .of_recordBit (stepPreambleEnd_moves (s := recordBit b s) hs _ _)
  · exact .of_recordBit (stepSearchSync_moves (s := recordBit b s) hs)
  · rcases synchedWord_moves h with hkept | hlost
    · exact StateKept.moves (s := s) hkept
    · exact SyncLostOnce.moves (s := s) hlost hs
  · exact StateKept.moves ⟨rfl, rfl, rfl⟩

theorem syncStep_moves {cfg : Config} {y : Int} {s t : State} (h : syncStep cfg y s = .ok t) :
    AcquirerMoves s t := by
  rcases syncStep_ok.mp h with ⟨-, h⟩ | ⟨-, rfl⟩
  · have hmoves := fsmBit_moves h
    rw [AcquirerMoves, traceBit_fsm, traceBit_cnt] at hmoves
    exact hmoves
  · exact StateKept.moves ⟨rfl, rfl, rfl⟩

/-! ### The commands -/

theorem csrWrite_fsm (s : State) (v : Word) (r : Csr) : (csrWrite s v r).fsm = s.fsm := by
  unfold csrWrite
  split <;> rfl

theorem csrWrite_cnt (s : State) (v : Word) (r : Csr) : (csrWrite s v r).cnt = s.cnt := by
  unfold csrWrite
  split <;> rfl

/-- The commands that hand the frame acquirer a bit, or may (41 R140, 42 R175). -/
def FeedsAcquirer (i : Instr) : Prop :=
  (∃ a b, i = .sample a b) ∨ (∃ y, i = .magIn y) ∨ ∃ b, i = .bitIn b

theorem exec_moves_of_feeds {i : Instr} (hi : FeedsAcquirer i) {s t : State}
    (h : exec i s = .next t) : AcquirerMoves s t := by
  rcases hi with ⟨a, b, rfl⟩ | ⟨y, rfl⟩ | ⟨b, rfl⟩
  · exact syncStep_moves (s := keepSample .build a b s) (answer_eq_next.mp h)
  · exact syncStep_moves (answer_eq_next.mp h)
  · exact fsmBit_moves (answer_eq_next.mp h)

/-- Every command but RESET that hands the frame acquirer no bit leaves it as it was, and its two
counters (44 R230, 45 R250 to R253). -/
theorem exec_keeps_fsm {i : Instr} (hi : ¬ FeedsAcquirer i) (hreset : i ≠ .reset) {s t : State}
    (h : exec i s = .next t) :
    t.fsm = s.fsm ∧ t.cnt.syncAcq = s.cnt.syncAcq ∧ t.cnt.syncLost = s.cnt.syncLost := by
  cases i with
  | sample a b => exact absurd (.inl ⟨a, b, rfl⟩) hi
  | magIn y => exact absurd (.inr (.inl ⟨y, rfl⟩)) hi
  | bitIn b => exact absurd (.inr (.inr ⟨b, rfl⟩)) hi
  | nop | sampleLoss _ | demodQuery _ _ _ _ _ | bchSyndrome _ | bchCorrect _ =>
    obtain rfl := Host.Outcome.next.inj h
    exact ⟨rfl, rfl, rfl⟩
  | cwIn w slot =>
    have hword := answer_eq_next.mp h
    have hcounts := dataWord_countsOnly_words hword
    exact ⟨dataWord_fsm hword, hcounts .syncAcq (by decide), hcounts .syncLost (by decide)⟩
  | csrRead a =>
    rcases execCsrRead_cases a s with hs | ⟨v, hs⟩
    · obtain rfl := Host.Outcome.next.inj (hs.symm.trans h)
      exact ⟨rfl, rfl, rfl⟩
    · obtain rfl := Host.Outcome.next.inj (hs.symm.trans h)
      exact ⟨rfl, rfl, rfl⟩
  | csrWrite a v =>
    rcases execCsrWrite_cases a v s with ⟨cause, hs⟩ | ⟨r, -, -, -, hs⟩
    · obtain rfl := Host.Outcome.next.inj (hs.symm.trans h)
      exact ⟨rfl, rfl, rfl⟩
    · obtain rfl := Host.Outcome.next.inj (hs.symm.trans h)
      rw [csrWrite_fsm, csrWrite_cnt]
      exact ⟨rfl, rfl, rfl⟩
  | flush =>
    have hflush := answer_eq_next.mp h
    have hcounts := finalizeIfOpen_countsOnly hflush
    obtain ⟨-, -, -, hfsm, -⟩ := finalizeIfOpen_keeps hflush
    exact ⟨hfsm, hcounts .syncAcq (by decide), hcounts .syncLost (by decide)⟩
  | reset => exact absurd rfl hreset

/-- Settles O13: a command that feeds bits moves along the transitions (`exec_moves_of_feeds`),
every other but RESET keeps the frame acquirer (`exec_keeps_fsm`). -/
theorem frameAcquirerMoves : Obligations.FrameAcquirerMoves := by
  intro i s t h
  refine ⟨?_, fun hsample hmag hbit hreset => ?_, fun hreset => ?_⟩
  · rintro rfl
    obtain rfl := Host.Outcome.next.inj h
    rfl
  · refine (exec_keeps_fsm ?_ hreset h).1
    rintro (⟨a, b, hi⟩ | ⟨y, hi⟩ | ⟨b, hi⟩)
    · exact hsample a b hi
    · exact hmag y hi
    · exact hbit b hi
  · by_cases hi : FeedsAcquirer i
    · exact exec_moves_of_feeds hi h
    · obtain ⟨hfsm, hcnt⟩ := exec_keeps_fsm hi hreset h
      exact StateKept.moves ⟨congrArg _ hfsm, hcnt⟩

end Sys2Proof.Machine
end

section
/-! PROOFS. The remainder as a division of polynomials, and the words the encoder gives (43 R190 to
R192, R197). -/

namespace Sys2Proof.Machine

open Polynomial

/-! ### Bit vectors as polynomials over GF(2) -/

/-- The polynomial of a bit vector, bit `k` the coefficient of `x^k` (43 R190). -/
noncomputable def bitPoly {n : Nat} (v : BitVec n) : (ZMod 2)[X] :=
  ∑ k ∈ Finset.range n, if v.getLsbD k then X ^ k else 0

theorem coeff_bitPoly {n : Nat} (v : BitVec n) (i : Nat) :
    (bitPoly v).coeff i = if v.getLsbD i then 1 else 0 := by
  have hterm : ∀ k, (if v.getLsbD k then X ^ k else 0 : (ZMod 2)[X]).coeff i =
      if i = k then (if v.getLsbD i then 1 else 0) else 0 := fun k => by
    by_cases hik : i = k
    · subst hik
      cases v.getLsbD i <;> simp
    · cases v.getLsbD k <;> simp [coeff_X_pow, hik]
  rw [bitPoly, finsetSum_coeff, Finset.sum_congr rfl fun k _ => hterm k, Finset.sum_ite_eq]
  by_cases hi : i < n
  · simp [hi]
  · simp [BitVec.getLsbD_of_ge v i (Nat.le_of_not_lt hi)]

theorem bitPoly_congr {n m : Nat} {v : BitVec n} {w : BitVec m}
    (h : ∀ i, v.getLsbD i = w.getLsbD i) : bitPoly v = bitPoly w := by
  ext i
  rw [coeff_bitPoly, coeff_bitPoly, h]

/-- Exclusive or adds polynomials over GF(2). -/
theorem bitPoly_xor {n : Nat} (a b : BitVec n) : bitPoly (a ^^^ b) = bitPoly a + bitPoly b := by
  have hbit : ∀ p q : Bool, (if (p ^^ q) then 1 else 0 : ZMod 2) =
      (if p then 1 else 0) + if q then 1 else 0 := by decide
  ext i
  rw [coeff_add, coeff_bitPoly, coeff_bitPoly, coeff_bitPoly, BitVec.getLsbD_xor, hbit]

/-- A shift that drops no set bit multiplies by a power of x. -/
theorem bitPoly_shiftLeft {n k : Nat} {v : BitVec n}
    (hlow : ∀ i, n ≤ i + k → v.getLsbD i = false) : bitPoly (v <<< k) = X ^ k * bitPoly v := by
  ext i
  rw [coeff_X_pow_mul', coeff_bitPoly, coeff_bitPoly, BitVec.getLsbD_shiftLeft]
  by_cases hk : k ≤ i
  · by_cases hi : i < n
    · simp [hk, hi]
    · simp [hi, hlow (i - k) (by omega)]
  · simp [hk, Nat.lt_of_not_le hk]

/-! ### The generator -/

theorem getLsbD_bchGen_of_gt {i : Nat} (h : 10 < i) : bchGen.getLsbD i = false := by
  by_cases hi : i < 31
  · exact (by decide : ∀ i < 31, 10 < i → bchGen.getLsbD i = false) i hi h
  · exact BitVec.getLsbD_of_ge bchGen i (Nat.le_of_not_lt hi)

/-- The generator's polynomial (43 R190). -/
theorem bitPoly_bchGen :
    bitPoly bchGen = X ^ 10 + X ^ 9 + X ^ 8 + X ^ 6 + X ^ 5 + X ^ 3 + 1 := by
  have hsum : bitPoly bchGen = 1 + X ^ 3 + X ^ 5 + X ^ 6 + X ^ 8 + X ^ 9 + X ^ 10 := by
    simp [bitPoly, bchGen, Finset.sum_range_succ]
  rw [hsum]
  ring

/-! ### The division -/

/-- No bit at `d` or above is set: the polynomial has a degree below `d`. -/
def BitsBelow {n : Nat} (d : Nat) (v : BitVec n) : Prop :=
  ∀ i, d ≤ i → v.getLsbD i = false

/-- One step of the division: the leading bit is cleared, by a multiple of the generator if it was
set (43 R191). -/
def bchRemStep (k : Nat) (r : BitVec 31) : BitVec 31 :=
  if r.getLsbD (k + 10) then r ^^^ bchGen <<< k else r

theorem bchRemSteps_succ (k : Nat) (r : BitVec 31) :
    bchRemSteps (k + 1) r = bchRemSteps k (bchRemStep k r) := rfl

/-- A step clears the leading bit and sets none above it. -/
theorem bchRemStep_bitsBelow {k : Nat} (hk : k ≤ 20) {r : BitVec 31}
    (hr : BitsBelow (k + 1 + 10) r) : BitsBelow (k + 10) (bchRemStep k r) := by
  intro i hi
  unfold bchRemStep
  rcases Nat.eq_or_lt_of_le hi with rfl | hlt
  · split
    next hbit =>
      have hlead : bchGen.getLsbD 10 = true := by decide
      have hgen : (bchGen <<< k).getLsbD (k + 10) = true := by
        simp [hlead, show k + 10 < 31 by omega]
      rw [BitVec.getLsbD_xor, hbit, hgen]
      rfl
    next hbit => exact Bool.eq_false_of_not_eq_true hbit
  · have hclear := hr i (by omega)
    split
    · rw [BitVec.getLsbD_xor, hclear, BitVec.getLsbD_shiftLeft,
        getLsbD_bchGen_of_gt (show 10 < i - k by omega), Bool.and_false]
      rfl
    · exact hclear

/-- A step adds a multiple of the generator. -/
theorem exists_bitPoly_bchRemStep {k : Nat} (hk : k ≤ 20) (r : BitVec 31) :
    ∃ q, bitPoly r = q * bitPoly bchGen + bitPoly (bchRemStep k r) := by
  unfold bchRemStep
  split
  · have hshift : bitPoly (bchGen <<< k) = X ^ k * bitPoly bchGen :=
      bitPoly_shiftLeft fun i hi => getLsbD_bchGen_of_gt (by omega)
    refine ⟨X ^ k, ?_⟩
    rw [← hshift, ← bitPoly_xor, BitVec.xor_comm r, ← BitVec.xor_assoc, BitVec.xor_self,
      BitVec.zero_xor]
  · exact ⟨0, by simp⟩

theorem bchRemSteps_bitsBelow : ∀ {k : Nat}, k ≤ 21 → ∀ {r : BitVec 31}, BitsBelow (k + 10) r →
    BitsBelow 10 (bchRemSteps k r)
  | 0, _, _, hr => hr
  | k + 1, hk, r, hr =>
    bchRemSteps_bitsBelow (k := k) (r := bchRemStep k r) (by omega)
      (bchRemStep_bitsBelow (by omega) hr)

theorem exists_bitPoly_bchRemSteps : ∀ {k : Nat}, k ≤ 21 → ∀ r : BitVec 31,
    ∃ q, bitPoly r = q * bitPoly bchGen + bitPoly (bchRemSteps k r)
  | 0, _, r => ⟨0, by simp [bchRemSteps]⟩
  | k + 1, hk, r => by
    obtain ⟨p, hp⟩ := exists_bitPoly_bchRemStep (k := k) (by omega) r
    obtain ⟨q, hq⟩ := exists_bitPoly_bchRemSteps (k := k) (by omega) (bchRemStep k r)
    refine ⟨p + q, ?_⟩
    rw [hp, hq, bchRemSteps_succ, add_mul, add_assoc]

/-- Every bit of the 31-bit remainder is one of the ten that `BchRem` returns (43 R191). -/
theorem getLsbD_bchRem (v : BitVec 31) (i : Nat) :
    (bchRem v).getLsbD i = (bchRemSteps 21 v).getLsbD i := by
  have hlow : BitsBelow 10 (bchRemSteps 21 v) :=
    bchRemSteps_bitsBelow le_rfl fun i hi => BitVec.getLsbD_of_ge v i hi
  rw [bchRem, BitVec.getLsbD_extractLsb', Nat.zero_add]
  by_cases hi : i < 10
  · simp [hi]
  · simp [hi, hlow i (Nat.le_of_not_lt hi)]

/-- Settles O34: every step of the division adds a multiple of the generator
(`exists_bitPoly_bchRemSteps`) and what is left has ten bits (`getLsbD_bchRem`). -/
theorem bchRemainder : Obligations.BchRemainder := by
  refine ⟨fun v => ?_, bchRem_xor⟩
  obtain ⟨q, hq⟩ := exists_bitPoly_bchRemSteps le_rfl v
  refine ⟨q, ?_⟩
  rw [← bitPoly_congr (getLsbD_bchRem v), bitPoly_bchGen] at hq
  exact hq

/-! ### The syndrome by numbers -/

theorem toNat_oddParity (w : Word) : (oddParity w).toNat = weight w % 2 := by
  rw [oddParity, popcount_eq_weight]
  rcases Nat.mod_two_eq_zero_or_one (weight w) with h | h <;> rw [h] <;> rfl

theorem syndrome_toNat (w : Word) :
    (syndrome w).toNat = weight w % 2 * 2 ^ 10 + (bchRem (w.extractLsb' 1 31)).toNat := by
  rw [syndrome, toNat_append_eq, BitVec.toNat_ofBool, toNat_oddParity]

/-- A word is a codeword by its parity and its remainder (43 R192). -/
theorem syndrome_eq_zero_iff {w : Word} :
    syndrome w = 0 ↔ oddParity w = false ∧ bchRem (w.extractLsb' 1 31) = 0 := by
  rw [← Bool.toNat_eq_zero, toNat_oddParity]
  simp only [← BitVec.toNat_inj, syndrome_toNat, BitVec.ofNat_eq_ofNat, BitVec.toNat_ofNat]
  omega

theorem weight_even_of_syndrome {w : Word} (hw : syndrome w = 0) : weight w % 2 = 0 := by
  rw [← toNat_oddParity, (syndrome_eq_zero_iff.mp hw).1]
  rfl

theorem isCodeword_eq_true_iff {w : Word} : isCodeword w = true ↔ syndrome w = 0 :=
  beq_iff_eq

/-! ### The encoder -/

/-- A value of ten bits is its own remainder (43 R191). -/
theorem bchRemSteps_of_bitsBelow : ∀ {k : Nat} {r : BitVec 31}, BitsBelow 10 r →
    bchRemSteps k r = r
  | 0, _, _ => rfl
  | k + 1, r, hr => by
    have hstep : bchRemStep k r = r := by
      rw [bchRemStep, hr (k + 10) (by omega)]
      rfl
    rw [bchRemSteps_succ, hstep, bchRemSteps_of_bitsBelow hr]

@[simp] theorem bchRem_setWidth (x : BitVec 10) : bchRem (x.setWidth 31) = x := by
  have hlow : BitsBelow 10 (x.setWidth 31) := fun i hi => by
    simp [BitVec.getLsbD_of_ge x i hi]
  rw [bchRem, bchRemSteps_of_bitsBelow hlow]
  refine BitVec.eq_of_getLsbD_eq fun i hi => ?_
  rw [BitVec.getLsbD_extractLsb', Nat.zero_add, BitVec.getLsbD_setWidth]
  simp [hi, show i < 31 by omega]

/-- Information bits and parity bits joined are their sum (43 R197). -/
theorem append_eq_xor_setWidth (m : BitVec 21) (x : BitVec 10) :
    m ++ x = (m ++ 0#10) ^^^ x.setWidth 31 :=
  BitVec.eq_of_getLsbD_eq fun i hi => by
    rw [BitVec.getLsbD_xor, BitVec.getLsbD_append, BitVec.getLsbD_append, BitVec.getLsbD_setWidth]
    by_cases hlow : i < 10
    · simp [hlow, hi]
    · simp [hlow, BitVec.getLsbD_of_ge x i (Nat.le_of_not_lt hlow)]

/-- A 31-bit word is a BCH codeword exactly when its ten parity bits are the remainder of its
information bits (43 R190, R197). -/
theorem bchRem_append_eq_zero_iff (m : BitVec 21) (x : BitVec 10) :
    bchRem (m ++ x) = 0 ↔ bchRem (m ++ 0#10) = x := by
  rw [append_eq_xor_setWidth m x, bchRem_xor, bchRem_setWidth]
  exact BitVec.xor_eq_zero_iff

/-- A bit put below a number adds itself to the set bits. -/
theorem popcountBelow_double_add (x : Nat) (b : Bool) : ∀ k,
    popcountBelow (x * 2 + b.toNat) (k + 1) = popcountBelow x k + b.toNat
  | 0 => by cases b <;> simp [popcountBelow]
  | k + 1 => by
    have hhalf : (x * 2 + b.toNat) / 2 = x := by
      have := b.toNat_lt
      omega
    rw [popcountBelow, popcountBelow_double_add x b k, Nat.testBit_succ, hhalf, popcountBelow]
    omega

/-- A parity bit is even with its word exactly when it is the word's parity (43 R190). -/
theorem oddParity_append_ofBool_eq_false_iff {n : Nat} (c : BitVec n) (b : Bool) :
    oddParity (c ++ BitVec.ofBool b) = false ↔ oddParity c = b := by
  have hcount : popcount (c ++ BitVec.ofBool b) = popcount c + b.toNat := by
    rw [popcount, toNat_append_eq, BitVec.toNat_ofBool, pow_one, popcountBelow_double_add, popcount]
  rw [oddParity, oddParity, hcount]
  rcases Nat.mod_two_eq_zero_or_one (popcount c) with h | h <;>
    cases b <;> simp [Nat.add_mod, h]

/-- A word of three fields is a codeword exactly when the ten parity bits are the remainder and the
last bit the parity (43 R192). -/
theorem syndrome_append_eq_zero_iff (m : BitVec 21) (x : BitVec 10) (b : Bool) :
    syndrome (m ++ x ++ BitVec.ofBool b : Word) = 0 ↔
      bchRem (m ++ 0#10) = x ∧ oddParity (m ++ x) = b := by
  have hhigh : (m ++ x ++ BitVec.ofBool b : Word).extractLsb' 1 31 = m ++ x :=
    BitVec.extractLsb'_append_eq_left
  rw [syndrome_eq_zero_iff, oddParity_append_ofBool_eq_false_iff, hhigh, bchRem_append_eq_zero_iff,
    and_comm]

/-- The encoder's three fields (43 R197). -/
theorem bchEncode_eq (m : BitVec 21) : bchEncode m =
    m ++ bchRem (m ++ 0#10) ++ BitVec.ofBool (oddParity (m ++ bchRem (m ++ 0#10))) := by
  rw [append_eq_xor_setWidth m (bchRem (m ++ 0#10))]
  rfl

/-- A word is its information bits, its parity bits and its last bit (43 R190). -/
theorem word_eq_append (w : Word) :
    w = w.extractLsb' 11 21 ++ w.extractLsb' 1 10 ++ BitVec.ofBool (w.getLsbD 0) := by
  have hjoin : w.extractLsb' 11 21 ++ w.extractLsb' 1 10 = w.extractLsb' 1 31 :=
    BitVec.extractLsb'_append_extractLsb'_eq_extractLsb' rfl
  rw [ofBool_getLsbD, hjoin]
  exact ((extractLsb'_append_low w 1 31).trans BitVec.extractLsb'_eq_self).symm

/-- Settles O36: a word is its information bits, its parity bits and its last bit, and syndrome zero
fixes the last two as the encoder does (`syndrome_append_eq_zero_iff`, `bchEncode_eq`). -/
theorem syndromeZeroIffEncoded : Obligations.SyndromeZeroIffEncoded := by
  intro w
  constructor
  · intro h
    rw [word_eq_append w, syndrome_append_eq_zero_iff] at h
    obtain ⟨hrem, hparity⟩ := h
    refine ⟨w.extractLsb' 11 21, ?_⟩
    rw [bchEncode_eq, hrem, hparity]
    exact word_eq_append w
  · rintro ⟨m, rfl⟩
    rw [bchEncode_eq]
    exact (syndrome_append_eq_zero_iff _ _ _).mpr ⟨rfl, rfl⟩

end Sys2Proof.Machine
end

section
/-! PROOFS. The distance of the code, what correction achieves, and the codec's two commands
(43 R193 to R196). -/

namespace Sys2Proof.Machine

/-! ### The commands -/

/-- The RESULT of BCH_SYNDROME by numbers (30 R102). -/
theorem resultSyndrome_word (syn : BitVec 11) :
    (resultSyndrome syn).word = eventWord 0x30 syn.toNat := by
  have hpayload : (resultSyndrome syn).payload.toNat = syn.toNat := toNat_zero_append syn
  rw [Event.word_eq_eventWord, hpayload]
  rfl

/-- The RESULT of BCH_CORRECT by numbers (30 R102). -/
theorem resultCorrect_word (fail : Bool) (flips : BitVec 2) (w : Word) :
    (resultCorrect fail flips w).word =
      eventWord 0x30 (fail.toNat * 2 ^ 34 + flips.toNat * 2 ^ 32 + w.toNat) := by
  have hpayload : (resultCorrect fail flips w).payload.toNat =
      fail.toNat * 2 ^ 34 + flips.toNat * 2 ^ 32 + w.toNat := by
    simp only [resultCorrect, Event.payload, toNat_append_eq, BitVec.toNat_ofNat,
      BitVec.toNat_ofBool]
    omega
  rw [Event.word_eq_eventWord, hpayload]
  rfl

/-- Settles O35: the RESULT's number is the syndrome's (`resultSyndrome_word`, `syndrome_toNat`). -/
theorem syndromeResult : Obligations.SyndromeResult := by
  intro w s
  have hexec : exec (.bchSyndrome w) s = .next (s.emit (resultSyndrome (syndrome w))) := rfl
  rw [hexec, State.emit, resultSyndrome_word, syndrome_toNat]
  rfl

/-- Settles O37: the RESULT's number by its three fields (`resultCorrect_word`). -/
theorem bchCorrectResult : Obligations.BchCorrectResult := by
  intro w s
  have hexec : exec (.bchCorrect w) s = .next (s.emit
      (resultCorrect (!(correct w).ok) (correct w).flips (correct w).word)) := rfl
  have hfail : (!(correct w).ok).toNat = 1 - (correct w).ok.toNat := by
    cases (correct w).ok <;> rfl
  rw [hexec, State.emit, resultCorrect_word, hfail]
  rfl

/-! ### The weight of a sum -/

theorem popcountBelow_xor_le (x y : Nat) : ∀ k,
    popcountBelow (x ^^^ y) k ≤ popcountBelow x k + popcountBelow y k
  | 0 => Nat.le_refl 0
  | k + 1 => by
    have ih := popcountBelow_xor_le x y k
    have hbit : (x.testBit k ^^ y.testBit k).toNat ≤ (x.testBit k).toNat + (y.testBit k).toNat := by
      cases x.testBit k <;> cases y.testBit k <;> decide
    rw [popcountBelow, popcountBelow, popcountBelow, Nat.testBit_xor]
    omega

theorem weight_xor_le (a b : Word) : weight (a ^^^ b) ≤ weight a + weight b := by
  rw [← popcount_eq_weight, ← popcount_eq_weight, ← popcount_eq_weight, popcount, BitVec.toNat_xor]
  exact popcountBelow_xor_le a.toNat b.toNat 32

/-- The flips from one word to another are at most those over a third. -/
theorem weight_xor_triangle (w v u : Word) :
    weight (v ^^^ u) ≤ weight (w ^^^ v) + weight (w ^^^ u) := by
  have hsum : v ^^^ u = (w ^^^ v) ^^^ (w ^^^ u) := by
    rw [BitVec.xor_comm w v, BitVec.xor_assoc, xor_xor_cancel]
  rw [hsum]
  exact weight_xor_le _ _

/-! ### A word as the sum of its set bits -/

/-- The word whose set bits are the listed positions. -/
def wordOfBits (l : List Nat) : Word :=
  l.foldr (fun i w => oneBit i ^^^ w) 0

@[simp] theorem wordOfBits_nil : wordOfBits [] = 0 := rfl

@[simp] theorem wordOfBits_cons (i : Nat) (l : List Nat) :
    wordOfBits (i :: l) = oneBit i ^^^ wordOfBits l := rfl

theorem wordOfBits_append : ∀ l m : List Nat, wordOfBits (l ++ m) = wordOfBits l ^^^ wordOfBits m
  | [], m => by simp
  | i :: l, m => by simp [wordOfBits_append l m, BitVec.xor_assoc]

theorem getLsbD_wordOfBits {k : Nat} (hk : k < 32) : ∀ {l : List Nat}, l.Nodup →
    (wordOfBits l).getLsbD k = decide (k ∈ l)
  | [], _ => by simp
  | i :: l, hl => by
    obtain ⟨hi, hl⟩ := List.nodup_cons.mp hl
    rw [wordOfBits_cons, BitVec.getLsbD_xor, getLsbD_oneBit hk, getLsbD_wordOfBits hk hl]
    by_cases hik : i = k
    · subst hik
      simp [hi]
    · simp [hik, Ne.symm hik]

theorem wordOfBits_setBits (e : Word) : wordOfBits (setBits e) = e :=
  (eq_of_setBits fun _ hk =>
    getLsbD_wordOfBits hk ((setBits_pairwise_lt e).imp Nat.ne_of_lt)).symm

/-- At most two positions, rising, make one of the patterns that `Correct` tries (43 R193). -/
theorem wordOfBits_mem_flipPatterns {l : List Nat} (hlen : l.length ≤ 2)
    (hsorted : l.Pairwise (· < ·)) (hlt : ∀ k ∈ l, k < 32) : wordOfBits l ∈ flipPatterns := by
  rw [mem_flipPatterns]
  match l with
  | [] => exact .inl rfl
  | [i] =>
    refine .inr (.inl (mem_singleFlips.mpr ⟨i, hlt i (by simp), ?_⟩))
    simp
  | [i, j] =>
    refine .inr (.inr (mem_doubleFlips.mpr ⟨i, j, ?_, hlt j (by simp), ?_⟩))
    · simpa using hsorted
    · simp
  | _ :: _ :: _ :: _ => simp at hlen

/-- A word of at most four set bits is the sum of two patterns: its two lowest bits and the rest. -/
theorem exists_flipPatterns_of_weight_le {e : Word} (h : weight e ≤ 4) :
    ∃ f ∈ flipPatterns, ∃ g ∈ flipPatterns, e = f ^^^ g := by
  have hsorted := setBits_pairwise_lt e
  have hlt : ∀ k ∈ setBits e, k < 32 := fun _ => lt_of_mem_setBits
  rw [weight_eq_length_setBits] at h
  refine ⟨_, wordOfBits_mem_flipPatterns (l := (setBits e).take 2) ?_ hsorted.take ?_,
    _, wordOfBits_mem_flipPatterns (l := (setBits e).drop 2) ?_ hsorted.drop ?_, ?_⟩
  · exact List.length_take_le 2 _
  · exact fun k hk => hlt k (List.mem_of_mem_take hk)
  · rw [List.length_drop]
    omega
  · exact fun k hk => hlt k (List.mem_of_mem_drop hk)
  · rw [← wordOfBits_append, List.take_append_drop, wordOfBits_setBits]

/-! ### The minimum distance -/

/-- A codeword of at most four set bits is 0: its two parts are patterns of one syndrome, so they
are the same (43 R194). -/
theorem eq_zero_of_weight_le {w : Word} (hw : syndrome w = 0) (h : weight w ≤ 4) : w = 0 := by
  obtain ⟨f, hf, g, hg, rfl⟩ := exists_flipPatterns_of_weight_le h
  rw [syndrome_xor] at hw
  rw [syndrome_injOn_flipPatterns hf hg (BitVec.xor_eq_zero_iff.mp hw)]
  exact BitVec.xor_self

theorem six_le_weight {w : Word} (hw : syndrome w = 0) (hne : w ≠ 0) : 6 ≤ weight w := by
  have heven := weight_even_of_syndrome hw
  have hfour : ¬ weight w ≤ 4 := fun h => hne (eq_zero_of_weight_le hw h)
  omega

/-- Two codewords differ in at least six bits (43 R194). -/
theorem six_le_distance {v u : Word} (hv : syndrome v = 0) (hu : syndrome u = 0) (hne : v ≠ u) :
    6 ≤ weight (v ^^^ u) := by
  refine six_le_weight ?_ (mt BitVec.xor_eq_zero_iff.mp hne)
  rw [syndrome_xor, hv, hu]
  exact BitVec.xor_self

/-- Settles O38: the weight is even by the parity bit and above 4 because different patterns of at
most two flips have different syndromes (`six_le_weight`). -/
theorem minimumDistance : Obligations.MinimumDistance := by
  refine ⟨fun w hw => ⟨weight_even_of_syndrome hw, six_le_weight hw⟩, ?_, ?_⟩
  · decide +kernel
  · decide +kernel

/-! ### What correction achieves -/

/-- Settles O39: such a pattern is one that `Correct` tries, and it is the only one it can find
(`correct_flipped`). -/
theorem correctsUpToTwo : Obligations.CorrectsUpToTwo :=
  fun _ _ hv he => correct_flipped hv (mem_flipPatterns_of_weight_le he)

/-- A word within two flips of a codeword is corrected to it (43 R193). -/
theorem correct_of_near {w v : Word} (hv : syndrome v = 0) (h : weight (w ^^^ v) ≤ 2) :
    correct w = ⟨true, v, BitVec.ofNat 2 (weight (w ^^^ v))⟩ := by
  have hflipped : v ^^^ (w ^^^ v) = w := by rw [BitVec.xor_comm w, xor_xor_cancel]
  have hcorrect := correctsUpToTwo v (w ^^^ v) hv h
  rwa [hflipped] at hcorrect

/-- What a correction gives is a codeword (43 R193). -/
theorem syndrome_correct_of_ok {w : Word} (h : (correct w).ok = true) :
    syndrome (correct w).word = 0 := by
  rw [← isCodeword_eq_true_iff]
  rcases correct_cases w with ⟨hcode, hw⟩ | ⟨-, e, he, hw⟩ | ⟨-, -, e, he, hw⟩ | ⟨-, -, -, hw⟩
  · rwa [hw]
  · rw [hw]
    exact (firstFlip_some he).2
  · rw [hw]
    exact (firstFlip_some he).2
  · rw [hw] at h
    cases h

/-- A correction flips at most two bits (43 R193). -/
theorem weight_correct_of_ok {w : Word} (h : (correct w).ok = true) :
    weight (w ^^^ (correct w).word) ≤ 2 := by
  obtain ⟨e, he, hword⟩ := correct_word_of_ok h
  rw [hword, xor_xor_cancel]
  exact weight_le_of_mem_flipPatterns he

/-- A failure gives the word back with no flip (43 R193). -/
theorem correct_of_failed {w : Word} (h : (correct w).ok = false) : correct w = ⟨false, w, 0⟩ := by
  rcases correct_cases w with ⟨-, hw⟩ | ⟨-, e, -, hw⟩ | ⟨-, -, e, -, hw⟩ | ⟨-, -, -, hw⟩
  · rw [hw] at h
    cases h
  · rw [hw] at h
    cases h
  · rw [hw] at h
    cases h
  · exact hw

/-- Settles O40: a correction would be a second codeword at most two flips from the word, so at most
five from the first, nearer than the minimum distance (`six_le_distance`). -/
theorem threeFlipsFail : Obligations.ThreeFlipsFail := by
  intro v e hv he
  refine correct_of_failed (Bool.eq_false_of_not_eq_true fun hok => ?_)
  have hthree : weight (v ^^^ e ^^^ v) = 3 := by
    rw [BitVec.xor_comm v e, BitVec.xor_assoc, BitVec.xor_self, BitVec.xor_zero, he]
  have hnear := weight_correct_of_ok hok
  have hne : v ≠ (correct (v ^^^ e)).word := fun heq => by
    rw [← heq] at hnear
    omega
  have hsix := six_le_distance hv (syndrome_correct_of_ok hok) hne
  have hfive := weight_xor_triangle (v ^^^ e) v (correct (v ^^^ e)).word
  omega

/-- The flips of a correction are the distance from the word to what it gives (43 R193). -/
theorem toNat_flips_correct {w : Word} (h : (correct w).ok = true) :
    (correct w).flips.toNat = weight (w ^^^ (correct w).word) := by
  have hnear := weight_correct_of_ok h
  have hflips := congrArg Correction.flips (correct_of_near (syndrome_correct_of_ok h) hnear)
  rw [hflips, BitVec.toNat_ofNat]
  exact Nat.mod_eq_of_lt (by omega)

/-- Settles O41: a codeword within two flips is the one `Correct` gives (`correct_of_near`), so none
is nearer than the correction, and none is in reach of a failure. -/
theorem correctionIsNearest : Obligations.CorrectionIsNearest := by
  intro w
  constructor
  · intro hok
    have hflips := toNat_flips_correct hok
    have hnear := weight_correct_of_ok hok
    refine ⟨syndrome_correct_of_ok hok, hflips.symm, hflips ▸ hnear, fun v hv => ?_⟩
    rcases Nat.lt_or_ge 2 (weight (w ^^^ v)) with hfar | hclose
    · omega
    · have hword : (correct w).word = v := by rw [correct_of_near hv hclose]
      rw [hflips, hword]
  · intro hfail
    refine ⟨?_, ?_, fun v hv => Nat.lt_of_not_le fun hclose => ?_⟩
    · rw [correct_of_failed hfail]
    · rw [correct_of_failed hfail]
    · rw [correct_of_near hv hclose] at hfail
      cases hfail

end Sys2Proof.Machine
end

section
/-! PROOFS. The words that carry no message bits, and FLUSH (44 R211 to R217, R224, 45 R253). -/

namespace Sys2Proof.Machine

/-! ### The classes of a corrected word -/

theorem parse_idleWord (cfg : Config) (slot : BitVec 4) (s : State) :
    parse cfg idleWord slot s = finalizeIfOpen cfg s :=
  if_pos rfl

theorem parse_syncWord (cfg : Config) (slot : BitVec 4) (s : State) :
    parse cfg syncWord slot s = .ok s := by
  have hidle : syncWord ≠ idleWord := by decide
  rw [parse, if_neg hidle, if_pos rfl]

/-- A message word with no open message is ignored (44 R217). -/
theorem parse_of_orphanWord {cfg : Config} {c : Word} (hc : c.getLsbD 31 = true) {s : State}
    (hclosed : s.msg.isOpen = false) (slot : BitVec 4) : parse cfg c slot s = .ok s := by
  have hidle : c ≠ idleWord := by rintro rfl; exact absurd hc (by decide)
  have hsync : c ≠ syncWord := by rintro rfl; exact absurd hc (by decide)
  rw [parse, if_neg hidle, if_neg hsync, isMessageWord, if_pos hc, hclosed]
  rfl

theorem parse_of_addressWord {cfg : Config} {c : Word} (hidle : c ≠ idleWord) (hsync : c ≠ syncWord)
    (hc : c.getLsbD 31 = false) (slot : BitVec 4) (s : State) :
    parse cfg c slot s = parseAddress cfg c slot s := by
  rw [parse, if_neg hidle, if_neg hsync, isMessageWord, hc]
  rfl

/-! ### The message an address opens, by numbers -/

/-- The capcode by numbers (44 R215). -/
theorem capcodeOf_eq_ofNat (c : Word) (slot : BitVec 4) :
    capcodeOf c slot =
      BitVec.ofNat 21 (c.toNat / 2 ^ 13 % 2 ^ 18 * 8 + slot.toNat / 2) := by
  apply BitVec.eq_of_toNat_eq
  rw [capcodeOf, slotFrame, toNat_append_eq, toNat_extractLsb'_eq, toNat_extractLsb'_eq,
    BitVec.toNat_ofNat]
  omega

/-- The function by numbers (44 R215). -/
theorem funcOf_eq_ofNat (c : Word) : funcOf c = BitVec.ofNat 2 (c.toNat / 2 ^ 11 % 2 ^ 2) :=
  extractLsb'_eq_ofNat_mod c 11 2

/-- The kind by numbers (44 R214). -/
theorem kindOf_funcOf (kindMap : BitVec 4) (c : Word) :
    kindOf kindMap (funcOf c) =
      if kindMap.getLsbD (c.toNat / 2 ^ 11 % 2 ^ 2) then .alphanumeric else .numeric := by
  rw [kindOf, funcOf, toNat_extractLsb'_eq]

/-- An address closes the open message and opens its own, with no event of the opening
(44 R215). -/
theorem parseAddress_eq_handedOut (c : Word) (slot : BitVec 4) {s : State} (h : s.msg.nc ≤ 256) :
    parseAddress .build c slot s =
      .ok ((handedOut s).setMsg (openedMessage s.csr.kindMap c slot)) :=
  parseAddress_ok.mpr ⟨handedOut s, finalizeIfOpen_eq_handedOut h, rfl⟩

/-! ### CW_IN and FLUSH -/

/-- Settles O44: the idle word only finalizes (`parse_idleWord`), which hands the open message out
(`finalizeIfOpen_eq_handedOut`). -/
theorem cwInIdle : Obligations.CwInIdle := by
  intro w slot s hok hidle hnc
  have hword : (correct w).word = idleWord := hidle
  rw [exec_cwIn_of_corrected hok, hword, parse_idleWord,
    finalizeIfOpen_eq_handedOut (s := correctedCounted (correct w).flips s) hnc, answer_ok]

/-- Settles O45: the parser leaves the counted state as it is (`parse_syncWord`,
`parse_of_orphanWord`). -/
theorem cwInIgnored : Obligations.CwInIgnored := by
  intro w slot s hok hclass
  rw [exec_cwIn_of_corrected hok]
  rcases hclass with hsync | ⟨hc, hclosed⟩
  · have hword : (correct w).word = syncWord := hsync
    rw [hword, parse_syncWord, answer_ok]
  · rw [parse_of_orphanWord hc (s := correctedCounted (correct w).flips s) hclosed, answer_ok]

/-- Settles O46: an address word hands out and opens (`parseAddress_eq_handedOut`); the opened
message's fields are then read by numbers. -/
theorem cwInAddress : Obligations.CwInAddress := by
  intro w slot s hok hidle hsync hc hnc
  rw [exec_cwIn_of_corrected hok, parse_of_addressWord hidle hsync hc,
    parseAddress_eq_handedOut _ _ (s := correctedCounted (correct w).flips s) hnc, answer_ok,
    openedMessage, capcodeOf_eq_ofNat, kindOf_funcOf, funcOf_eq_ofNat]
  rfl

/-- Settles O50: FLUSH is `if msg.open = 1: Finalize()` (`finalizeIfOpen_eq_handedOut`). -/
theorem flushHandsOut : Obligations.FlushHandsOut := by
  intro s hnc
  exact congrArg answer (finalizeIfOpen_eq_handedOut hnc)

end Sys2Proof.Machine
end

section
/-! PROOFS. Writes of read-only registers, and NOP (45 R250, R252, 60 R273). -/

namespace Sys2Proof.Machine

/-! ### Read-only registers -/

/-- A listed read-only address has a register that is not read-write (10 R21). -/
theorem csrAt_of_readOnly {a : Byte} (ha : a.toNat ∈ readOnlyAddresses) :
    ∃ r, csrAt a = some r ∧ r.writable = false := by
  rw [← Option.map_eq_some_iff]
  revert a
  decide

theorem execCsrWrite_of_readOnly {a : Byte} {r : Csr} (hat : csrAt a = some r)
    (hro : r.writable = false) (v : Word) (s : State) :
    execCsrWrite a v s = .next (raiseIllegal .csrReadOnly 0x31 a s) := by
  simp only [execCsrWrite, csrWriteFor, hat, hro, Opcode.byte, Bool.false_eq_true, if_false]

/-- Settles O54: the address has a register that is not read-write, so no value is looked at. -/
theorem readOnlyCsrRefused : Obligations.ReadOnlyCsrRefused := by
  intro a v s ha
  obtain ⟨r, hat, hro⟩ := csrAt_of_readOnly ha
  calc exec (.csrWrite a v) s = .next (raiseIllegal .csrReadOnly 0x31 a s) :=
        execCsrWrite_of_readOnly hat hro v s
    _ = .next (refusedWith 4 0x31 a.toNat s) := by rw [raiseIllegal_eq_refusedWith]; rfl

/-! ### NOP -/

/-- A word of opcode 0 has no operand, so any bit set in it is reserved (30 R93, R95). -/
theorem step_offer_of_nop_operands {w : CmdWord} (hpos : 0 < w.toNat) (hlt : w.toNat < 2 ^ 56)
    (s : State) : step (s.offer w) = .next (refusedWith 2 0 0 s) := by
  have hopcode : w.toNat / 2 ^ 56 = 0 := Nat.div_eq_of_lt hlt
  have hrow : (0x00, 0x00000000000000) ∈ opcodeMasks := List.mem_cons_self
  have hstray : w.toNat % 2 ^ 56 &&& 0 ≠ w.toNat % 2 ^ 56 := by
    rw [Nat.and_zero, Nat.mod_eq_of_lt hlt]
    exact hpos.ne
  have hrefused := ((refusedWords w s).2 _ hrow hopcode.symm).1 hstray
  rwa [hopcode] at hrefused

/-- Settles O49: the word 0 is the encoding of NOP, and any other word of opcode 0 sets an operand bit
(`step_offer_of_nop_operands`). -/
theorem nopDoesNothing : Obligations.NopDoesNothing := by
  intro s
  have hdec : decode 0 = .command .nop := decode_encode .nop
  refine ⟨rfl, ?_, fun w hpos hlt => step_offer_of_nop_operands hpos hlt s⟩
  calc step (s.offer 0) = performWith exec 0 s := step_offer s 0
    _ = .next s := performWith_of_decode_command hdec s

end Sys2Proof.Machine
end
